-- ==== Sys2Proof/Word.lean ====
section
/-! DEFINITION. The byte and the register word of HZ-CORE (10_state.md R20: every register is 32 bits; 20_memory.md R60: the
memory is byte-addressed). -/

namespace Sys2Proof

/-- One byte of the memory (20_memory.md R60). -/
abbrev Byte := BitVec 8

/-- One register, or one 32-bit word of a text or a table (10_state.md R20, 20_memory.md R62). -/
abbrev Word := BitVec 32

end Sys2Proof
end

