-- ==== Sys2Proof/Machine/Bits.lean ====
section
/-! DEFINITION. The bit-level writer and reader of 40_bitio.md, and the integer helpers of 00_scope.md R9, R10. A bit sequence is a
list of Booleans in stream order (00_scope.md R14). -/

namespace Sys2Proof.Machine

/-- `ceil_div` (00_scope.md R9). -/
def ceilDiv (a b : Nat) : Nat := (a + b - 1) / b

/-- The search of `clog2`: the first `k` from `k` up with `x ≤ 2^k`, `fuel` tries at most. -/
def clog2From (x : Nat) : Nat → Nat → Nat
  | 0, k => k
  | fuel + 1, k => if x ≤ 2 ^ k then k else clog2From x fuel (k + 1)

/-- `clog2(x)`: the least `k` with `2^k ≥ x` (00_scope.md R10). -/
def clog2 (x : Nat) : Nat := clog2From x x 0

/-- `bits_L(v)`: the `L` binary digits of `v`, most significant first (00_scope.md R12; 40_bitio.md R142: digit `j` is
`(v >> (L-1-j)) & 1`). -/
def bitsOf : Nat → Nat → List Bool
  | 0, _ => []
  | L + 1, v => v.testBit L :: bitsOf L v

/-- The value of a bit string, most significant first (40_bitio.md R147). -/
def ofBits (bs : List Bool) : Nat := bs.foldl (fun v b => 2 * v + b.toNat) 0

/-- `put(v, L)` (40_bitio.md R142). Total: the precondition `v < 2^L` holds at every call by the rule that computes `v`
(log 16). -/
def put (wbits : List Bool) (v L : Nat) : List Bool := wbits ++ bitsOf L v

/-- `nbytes()` (40_bitio.md R144). -/
def nbytes (wbits : List Bool) : Nat := ceilDiv wbits.length 8

/-- One byte of a container: up to eight bits, the first at bit 7, zeros filling the low end (40_bitio.md R141). -/
def packByte (bs : List Bool) : Byte := BitVec.ofNat 8 (ofBits (bs ++ List.replicate (8 - bs.length) false))

/-- The first `n` bytes of a packed bit sequence (40_bitio.md R143). -/
def packBytes : Nat → List Bool → List Byte
  | 0, _ => []
  | n + 1, bs => packByte (bs.take 8) :: packBytes n (bs.drop 8)

/-- `finish()`: pad with zero bits to a byte boundary and pack (40_bitio.md R143). -/
def finish (wbits : List Bool) : List Byte := packBytes (nbytes wbits) wbits

/-- A fresh reader on a byte sequence: the bits still to read, `bit(t)` of 40_bitio.md R146 in order of `t`. The reader's
position `p` (R145) is what has been dropped, and `avail()` is the length of what is left. -/
def readerOn (rbytes : List Byte) : List Bool := rbytes.flatMap fun b => bitsOf 8 b.toNat

/-- `avail()` (40_bitio.md R145). -/
def avail (r : List Bool) : Nat := r.length

/-- `get(L)`: the field's value and the reader after it (40_bitio.md R147). Every caller tests `avail` first (log 16). -/
def get (r : List Bool) (L : Nat) : Nat × List Bool := (ofBits (r.take L), r.drop L)

end Sys2Proof.Machine
end

