-- ==== Sys2Proof/Machine/HuffmanTree.lean ====
section
/-! DEFINITION. The Huffman tree builder (41_huffman_tree.md) and the canonical code table generator (42_huffman_canonical.md). A map
from symbols to numbers is an association list with distinct keys. -/

namespace Sys2Proof.Machine

/-- A node: a leaf owns a symbol; an internal node owns two children and the sum of their frequencies (00_scope.md R16). Each has
its creation sequence number (41_huffman_tree.md R161). -/
inductive HufTree where
  | leaf (sym freq seq : Nat)
  | node (freq seq : Nat) (left right : HufTree)
  deriving DecidableEq, Repr

/-- The frequency of a node. -/
def HufTree.freq : HufTree → Nat
  | .leaf _ f _ => f
  | .node f _ _ _ => f

/-- The sequence number of a node. -/
def HufTree.seq : HufTree → Nat
  | .leaf _ _ q => q
  | .node _ q _ _ => q

/-- The priority order: `(freq, seq)` lexicographically (41_huffman_tree.md R162). -/
def HufTree.before (a b : HufTree) : Bool := a.freq < b.freq || (a.freq == b.freq && a.seq < b.seq)

/-- The node of `x :: q` with the least `(freq, seq)`, and the other nodes (41_huffman_tree.md R162, R163). -/
def takeLeast (x : HufTree) : List HufTree → HufTree × List HufTree
  | [] => (x, [])
  | y :: q =>
    if y.before x then
      match takeLeast y q with
      | (a, rest) => (a, x :: rest)
    else
      match takeLeast x q with
      | (a, rest) => (a, y :: rest)

/-- One turn of the merge loop (41_huffman_tree.md R163): the two least nodes `a` then `c` give way to an internal node with
left child `a`, right child `c` (92_eei_decisions.md D8). With fewer than two nodes nothing happens. -/
def mergeOnce (next : Nat) : List HufTree → List HufTree
  | [] => []
  | x :: q =>
    match takeLeast x q with
    | (a, []) => [a]
    | (a, y :: q') =>
      match takeLeast y q' with
      | (c, rest) => HufTree.node (a.freq + c.freq) next a c :: rest

/-- The merge loop, `k` turns, the next sequence number `next` (41_huffman_tree.md R163). -/
def mergeLoop : Nat → Nat → List HufTree → List HufTree
  | 0, _, q => q
  | k + 1, next, q => mergeLoop k (next + 1) (mergeOnce next q)

/-- The leaves, in ascending order of symbol, numbered from `seq` (41_huffman_tree.md R161). -/
def leavesFrom (seq : Nat) : List (Nat × Nat) → List HufTree
  | [] => []
  | (s, f) :: rest => HufTree.leaf s f seq :: leavesFrom (seq + 1) rest

/-- Ascending symbol order of a map's entries. -/
abbrev symLe (a b : Nat × Nat) : Prop := a.1 ≤ b.1

/-- The leaves of a frequency map in creation order (41_huffman_tree.md R161). -/
def leavesOf (F : List (Nat × Nat)) : List HufTree := leavesFrom 0 (F.insertionSort symLe)

/-- The symbols of a tree with the depth of their leaves, the root at depth `d` (41_huffman_tree.md R163, R165). -/
def HufTree.depths (d : Nat) : HufTree → List (Nat × Nat)
  | .leaf s _ _ => [(s, d)]
  | .node _ _ l r => l.depths (d + 1) ++ r.depths (d + 1)

/-- `tree_lengths(F)` (41_huffman_tree.md R160 to R164): the map from the symbols of `F` to their code lengths. `n - 1` turns of the
loop leave one node. -/
def treeLengths (F : List (Nat × Nat)) : List (Nat × Nat) :=
  match F with
  | [(s, _)] => [(s, 1)]
  | _ => (mergeLoop (F.length - 1) F.length (leavesOf F)).flatMap (HufTree.depths 0)

/-- The canonical order of `(symbol, length)` pairs: length, then symbol value (42_huffman_canonical.md R180). -/
abbrev canonLe (a b : Nat × Nat) : Prop := a.2 < b.2 ∨ (a.2 = b.2 ∧ a.1 ≤ b.1)

/-- A length table in canonical order (41_huffman_tree.md R166, 42_huffman_canonical.md R180). -/
def canonSort (len : List (Nat × Nat)) : List (Nat × Nat) := len.insertionSort canonLe

/-- An entry of a code table (30_encoding.md R102). -/
structure CodeEntry where
  sym : Nat
  len : Nat
  code : Nat
  deriving DecidableEq, Repr

/-- The codes of the entries after one of length `l` and code `c` (42_huffman_canonical.md R180). -/
def codesAfter (l c : Nat) : List (Nat × Nat) → List CodeEntry
  | [] => []
  | (s, l') :: rest =>
    { sym := s, len := l', code := (c + 1) <<< (l' - l) } :: codesAfter l' ((c + 1) <<< (l' - l)) rest

/-- `canon(len)` (42_huffman_canonical.md R180): the code table in canonical order; the first code is 0. -/
def canon (len : List (Nat × Nat)) : List CodeEntry :=
  match canonSort len with
  | [] => []
  | (s, l) :: rest => { sym := s, len := l, code := 0 } :: codesAfter l 0 rest

/-- Every code fits its length (42_huffman_canonical.md R181). -/
def codesFit (T : List CodeEntry) : Bool := T.all fun e => e.code < 2 ^ e.len

/-- `bits_len(code)`: the bit string of an entry (42_huffman_canonical.md R182). -/
def CodeEntry.bits (e : CodeEntry) : List Bool := bitsOf e.len e.code

/-- The entry of a symbol. -/
def entryOf (T : List CodeEntry) (s : Nat) : Option CodeEntry := T.find? fun e => e.sym == s

/-- The code length of a symbol; 0 for a symbol that is no key. -/
def lengthOf (len : List (Nat × Nat)) (s : Nat) : Nat :=
  match len.find? fun p => p.1 == s with
  | some p => p.2
  | none => 0

end Sys2Proof.Machine
end

