-- ==== Sys2Proof/Machine/Bytes.lean ====
section
/-! DEFINITION. The byte order of 32-bit words: little-endian, fixed (20_memory.md R62; 10_state.md R20 for registers). -/

namespace Sys2Proof.Machine

/-- The four bytes of a word, the least significant first (20_memory.md R62). -/
def wordBytes (w : Word) : List Byte :=
  [w.extractLsb' 0 8, w.extractLsb' 8 8, w.extractLsb' 16 8, w.extractLsb' 24 8]

/-- The word whose bytes, from the lowest address up, are `b0 b1 b2 b3` (20_memory.md R62). -/
def bytesWord (b0 b1 b2 b3 : Byte) : Word := b3 ++ b2 ++ b1 ++ b0

/-- A sequence of values as 32-bit words in memory: the form of a text or of a table's fields (20_memory.md R64,
30_encoding.md R100 to R102). -/
def wordsBytes (vs : List Nat) : List Byte := vs.flatMap fun v => wordBytes (BitVec.ofNat 32 v)

end Sys2Proof.Machine
end

