-- ==== Sys2Proof/Config.lean ====
section
/-! DEFINITION. The implementation parameters of 00_scope.md R8 and 60_exceptions.md R312, and the free values of
60_exceptions.md R307 and 70_reset_and_hazards.md R341, R361. -/

namespace Sys2Proof

/-- The parameters the spec leaves OPEN (92_eei_decisions.md, OPEN parameters). A State carries one `Config`, which no step
changes, so that a statement about every state is a statement about every choice of them. -/
structure Config where
  /-- `BASE`: the byte address of register offset 0x00 in the host's MMIO space. -/
  base : Nat
  /-- `MEM_BYTES`: the size of the memory, `1 ≤ MEM_BYTES ≤ 2^32`. -/
  memBytes : Nat
  /-- `W_MAX`: the largest windowSize accepted. -/
  wMax : Nat
  /-- `B_MAX`: the largest bufferSize accepted. -/
  bMax : Nat
  /-- `IRQ_LINE`: the platform's number of the interrupt line. -/
  irqLine : Nat
  deriving DecidableEq, Repr

/-- The parameters `State.reset` carries: W_MAX and B_MAX at the spec's default (92_eei_decisions.md D23). DESIGN CHOICE
(log 5), unsafe: BASE 0, MEM_BYTES 2^32 and IRQ_LINE 0, for which the spec has no default. -/
def Config.default : Config :=
  { base := 0, memBytes := 4294967296, wMax := 0xFFFFFFFF, bMax := 0xFFFFFFFF, irqLine := 0 }

/-- `DMA_COHERENT` (20_memory.md R77): assumed true; a platform where it is false is outside the spec (log 17). -/
def Config.dmaCoherent : Bool := true

/-- The elapsed cycles the `n`-th draw gives (70_reset_and_hazards.md R361: STAT_CYCLES is an unspecified 32-bit value, a model
draws it). A free value: it has no body, so no proof can see one. Log 2. -/
opaque Config.freeCycles : Nat → Word

/-- The byte the `n`-th draw leaves at an address whose contents become unspecified (60_exceptions.md R307,
70_reset_and_hazards.md R341). A free value. Log 3. -/
opaque Config.freeByte : Nat → Nat → Byte

end Sys2Proof
end

