-- ==== Sys2Proof/Machine/HostOp.lean ====
section
/-! DEFINITION. What the host can do to the block: the operations of 30_encoding.md R130, its memory accesses (20_memory.md R73)
and power-on (70_reset_and_hazards.md R340). Nothing else reaches the block (60_exceptions.md R313, R319). -/

namespace Sys2Proof.Machine

/-- One operation of the host. Addresses are absolute: a register's is `BASE + offset` (10_state.md R20). -/
inductive HostOp where
  /-- `WR`: a write of `width` bytes at MMIO address `addr` (30_encoding.md R130) -/
  | writeReg (addr width : Nat) (value : Word)
  /-- `RD`: a read of `width` bytes at MMIO address `addr` -/
  | readReg (addr width : Nat)
  /-- `POLL`: repeat the 32-bit read at `addr` until `(read & mask) = value` (log 15) -/
  | poll (addr : Nat) (mask value : Word)
  /-- a write of bytes to the memory, the first at `addr` (20_memory.md R73) -/
  | writeMem (addr : Nat) (bytes : List Byte)
  /-- a read of `count` bytes of the memory, the first at `addr` -/
  | readMem (addr count : Nat)
  /-- power-on reset (70_reset_and_hazards.md R340) -/
  | powerOn
  deriving DecidableEq, Repr

end Sys2Proof.Machine
end

