-- ==== Sys2Proof/Syntax.lean ====
section
/-! DEFINITION. The commands: one constructor per row of opcode_table.json (30_encoding.md R91, R92), and the raw command word of
30_encoding.md R90. -/

namespace Sys2Proof

/-- A command of HZ-CORE. A command has no operand field (30_encoding.md R95), and LZ_COMPRESS is three rows of the table, one
for each legal FLAGS value (R92). -/
inductive Instr where
  /-- HUF_COMPRESS, 43_huffman_codec.md R200 -/
  | hufCompress
  /-- HUF_DECOMPRESS, 43_huffman_codec.md R210 -/
  | hufDecompress
  /-- LZ_COMPRESS with FLAGS 0b01, 45_lz77_codec.md R260 -/
  | lzCompressBits
  /-- LZ_COMPRESS with FLAGS 0b10, 45_lz77_codec.md R260 -/
  | lzCompressText
  /-- LZ_COMPRESS with FLAGS 0b11, 45_lz77_codec.md R260 -/
  | lzCompressBitsText
  /-- LZ_DECOMPRESS_BITS, 45_lz77_codec.md R270 -/
  | lzDecompressBits
  /-- LZ_DECOMPRESS_TEXT, 45_lz77_codec.md R280 -/
  | lzDecompressText
  /-- HUF_LENGTHS, 41_huffman_tree.md R166 -/
  | hufLengths
  /-- HUF_CANON, 42_huffman_canonical.md R186 -/
  | hufCanon
  deriving DecidableEq, Repr

/-- The fields of a command word (30_encoding.md R90), before any check. -/
structure CommandWord where
  /-- bit 31 -/
  go : Bool
  /-- bits 30:10 -/
  reserved : BitVec 21
  /-- bits 9:8 -/
  flags : BitVec 2
  /-- bits 7:0 -/
  opcode : BitVec 8
  deriving DecidableEq, Repr

end Sys2Proof
end

