-- ==== Sys2Proof/WellFormed.lean ====
section
/-! DEFINITION. Which raw command words, parameters and host operations are well formed. -/

namespace Sys2Proof

/-- The seven opcodes of 30_encoding.md R91 are 0x01 to 0x07. -/
def CommandWord.knownOpcode (c : CommandWord) : Bool :=
  1 ≤ c.opcode.toNat && c.opcode.toNat ≤ 7

/-- FLAGS is nonzero exactly for LZ_COMPRESS, opcode 0x03 (30_encoding.md R92, R93). -/
def CommandWord.legalFlags (c : CommandWord) : Bool :=
  if c.opcode = 3#8 then c.flags != 0#2 else c.flags == 0#2

/-- A command word that starts a legal command (30_encoding.md R90 to R94): GO set, reserved bits zero, a known opcode with
legal FLAGS. -/
def CommandWord.wf (c : CommandWord) : Bool :=
  c.go && c.reserved == 0#21 && c.knownOpcode && c.legalFlags

/-- A command has no operand fields (30_encoding.md R95): every term is well formed. -/
def Instr.wf (_ : Instr) : Bool := true

/-- The bounds of 00_scope.md R8: `1 ≤ MEM_BYTES ≤ 2^32`; W_MAX and B_MAX bound 32-bit registers and admit the value 1. -/
def Config.wf (c : Config) : Bool :=
  1 ≤ c.memBytes && c.memBytes ≤ 4294967296 &&
  (1 ≤ c.wMax && c.wMax ≤ 0xFFFFFFFF) && (1 ≤ c.bMax && c.bMax ≤ 0xFFFFFFFF)

namespace Machine

/-- A register access inside the interface (10_state.md R20): 32 bits wide, in the window, at a multiple of 4 from BASE. -/
def legalRegAccess (c : Config) (addr width : Nat) : Bool :=
  width == 4 && c.base ≤ addr && addr < c.base + 256 && (addr - c.base) % 4 == 0

/-- A host operation inside the interface: register accesses as 10_state.md R20 asks, memory accesses inside the memory of
20_memory.md R60. The duties while BUSY (R73) depend on the state and are checked by the step. -/
def HostOp.wf (c : Config) : HostOp → Bool
  | .writeReg addr width _ => legalRegAccess c addr width
  | .readReg addr width => legalRegAccess c addr width
  | .poll addr _ _ => legalRegAccess c addr 4
  | .writeMem addr bytes => bytes.isEmpty || addr + bytes.length ≤ c.memBytes
  | .readMem addr count => count == 0 || addr + count ≤ c.memBytes
  | .powerOn => true

end Machine
end Sys2Proof
end

