-- ==== Sys2Proof/Decode.lean ====
section
/-! DEFINITION. The decoder of command words (30_encoding.md R90 to R94), total and rejecting by name, and the encoder, both written
from the tables of R90 to R92. -/

namespace Sys2Proof

/-- Why a word is no command. -/
inductive DecodeError where
  /-- GO is 0: the word starts nothing (10_state.md R23) -/
  | goClear
  /-- a bit of CMD[30:10] is set (30_encoding.md R94) -/
  | reservedBits
  /-- OPCODE is none of 0x01 to 0x07 (30_encoding.md R93) -/
  | undefinedOpcode
  /-- FLAGS nonzero with an opcode other than 0x03, or zero with 0x03 (30_encoding.md R93) -/
  | illegalFlags
  /-- fewer or more than the four bytes of a command word (30_encoding.md R90) -/
  | notOneWord
  deriving DecidableEq, Repr

/-- The fields of a 32-bit word written to CMD (30_encoding.md R90). -/
def splitWord (w : Word) : CommandWord :=
  { go := w.getLsbD 31, reserved := w.extractLsb' 10 21, flags := w.extractLsb' 8 2, opcode := w.extractLsb' 0 8 }

/-- The word of a command's fields (30_encoding.md R90). -/
def joinWord (c : CommandWord) : Word := BitVec.ofBool c.go ++ c.reserved ++ c.flags ++ c.opcode

/-- The opcode map of 30_encoding.md R91, with the FLAGS of R92 for LZ_COMPRESS. -/
def decodeFields (c : CommandWord) : Except DecodeError Instr :=
  if c.go = false then .error .goClear
  else if c.reserved ≠ 0#21 then .error .reservedBits
  else if c.opcode = 1#8 then if c.flags = 0#2 then .ok .hufCompress else .error .illegalFlags
  else if c.opcode = 2#8 then if c.flags = 0#2 then .ok .hufDecompress else .error .illegalFlags
  else if c.opcode = 3#8 then
    if c.flags = 0b01#2 then .ok .lzCompressBits
    else if c.flags = 0b10#2 then .ok .lzCompressText
    else if c.flags = 0b11#2 then .ok .lzCompressBitsText
    else .error .illegalFlags
  else if c.opcode = 4#8 then if c.flags = 0#2 then .ok .lzDecompressBits else .error .illegalFlags
  else if c.opcode = 5#8 then if c.flags = 0#2 then .ok .lzDecompressText else .error .illegalFlags
  else if c.opcode = 6#8 then if c.flags = 0#2 then .ok .hufLengths else .error .illegalFlags
  else if c.opcode = 7#8 then if c.flags = 0#2 then .ok .hufCanon else .error .illegalFlags
  else .error .undefinedOpcode

/-- The command a 32-bit word written to CMD starts. -/
def decodeWord (w : Word) : Except DecodeError Instr := decodeFields (splitWord w)

/-- The command that the stored CMD[30:0] of an accepted GO stands for (10_state.md R34: `cmd = written[30:0]`). -/
def decodeCommand (cmd : BitVec 31) : Except DecodeError Instr := decodeWord (1#1 ++ cmd)

/-- Decoding on bytes: the four bytes of a word in register byte order (10_state.md R20; DEDUCED, log 7). -/
def decode : List Byte → Except DecodeError Instr
  | [b0, b1, b2, b3] => decodeWord (Machine.bytesWord b0 b1 b2 b3)
  | _ => .error .notOneWord

/-- OPCODE of a command (30_encoding.md R91). -/
def opcodeOf : Instr → BitVec 8
  | .hufCompress => 0x01#8
  | .hufDecompress => 0x02#8
  | .lzCompressBits => 0x03#8
  | .lzCompressText => 0x03#8
  | .lzCompressBitsText => 0x03#8
  | .lzDecompressBits => 0x04#8
  | .lzDecompressText => 0x05#8
  | .hufLengths => 0x06#8
  | .hufCanon => 0x07#8

/-- FLAGS of a command: EMIT_TEXT, EMIT_BITS for LZ_COMPRESS, else 0b00 (30_encoding.md R92). -/
def flagsOf : Instr → BitVec 2
  | .lzCompressBits => 0b01#2
  | .lzCompressText => 0b10#2
  | .lzCompressBitsText => 0b11#2
  | .hufCompress => 0b00#2
  | .hufDecompress => 0b00#2
  | .lzDecompressBits => 0b00#2
  | .lzDecompressText => 0b00#2
  | .hufLengths => 0b00#2
  | .hufCanon => 0b00#2

/-- The word that starts a command: `0x80000000 | FLAGS << 8 | OPCODE` (30_encoding.md R131). -/
def encode (i : Instr) : Word :=
  joinWord { go := true, reserved := 0#21, flags := flagsOf i, opcode := opcodeOf i }

/-- What the decoder reads from a row of opcode_table.json: `nbits` bits of `w`, the rest of the word zero, laid out as the
register's four bytes. -/
def decodeTableWord (nbits w : Nat) : Option Instr :=
  match decode (Machine.wordBytes (BitVec.ofNat 32 (w % 2 ^ nbits))) with
  | .ok i => some i
  | .error _ => none

end Sys2Proof
end

