-- ==== Sys2Proof/Machine/Memory.lean ====
section
/-! DEFINITION. The memory of 20_memory.md R60 as a list of (address, byte) pairs in one canonical form, and every operation on it. -/

namespace Sys2Proof.Machine

/-- The memory: the bytes that differ from `fillByte`, by rising address. -/
abbrev Memory := List Host.Cell

/-- What an unlisted byte reads as. DESIGN CHOICE (log 4), unsafe: the contents at power-on are the host's (10_state.md R39). -/
def fillByte : Byte := 0#8

/-- `MemRead(a, 1)` (00_scope.md R13). Total: an unlisted address reads `fillByte`. -/
def Memory.read : Memory → Nat → Byte
  | [], _ => fillByte
  | (x, u) :: rest, a => if x = a then u else Memory.read rest a

/-- The memory with nothing listed at `a`. -/
def Memory.erase (m : Memory) (a : Nat) : Memory := m.filter fun c => c.1 != a

/-- A cell put before the first one with a greater address. -/
def Memory.place (a : Nat) (v : Byte) : Memory → Memory
  | [] => [(a, v)]
  | (x, u) :: rest => if a < x then (a, v) :: (x, u) :: rest else (x, u) :: Memory.place a v rest

/-- `MemWrite(a, 1, v)` (00_scope.md R13), in canonical form: writing `fillByte` unlists the address. -/
def Memory.write (m : Memory) (a : Nat) (v : Byte) : Memory :=
  if v = fillByte then m.erase a else Memory.place a v (m.erase a)

/-- `MemRead(a, n)` (00_scope.md R13). -/
def Memory.readBytes (m : Memory) (a : Nat) : Nat → List Byte
  | 0 => []
  | n + 1 => m.read a :: Memory.readBytes m (a + 1) n

/-- `MemWrite(a, |bs|, bs)` (00_scope.md R13). -/
def Memory.writeBytes (m : Memory) (a : Nat) : List Byte → Memory
  | [] => m
  | b :: bs => Memory.writeBytes (m.write a b) (a + 1) bs

/-- `MemRead32(a)` (00_scope.md R13, 20_memory.md R62). -/
def Memory.readWord (m : Memory) (a : Nat) : Word :=
  bytesWord (m.read a) (m.read (a + 1)) (m.read (a + 2)) (m.read (a + 3))

/-- `n` words from address `a` up, as numbers: a text of `n` symbols (20_memory.md R64). -/
def Memory.readWords (m : Memory) (a : Nat) : Nat → List Nat
  | 0 => []
  | n + 1 => (m.readWord a).toNat :: Memory.readWords m (a + 4) n

/-- `n` table entries of two words each from address `a` up (30_encoding.md R100, R101). -/
def Memory.readPairs (m : Memory) (a : Nat) : Nat → List (Nat × Nat)
  | 0 => []
  | n + 1 => ((m.readWord a).toNat, (m.readWord (a + 4)).toNat) :: Memory.readPairs m (a + 8) n

/-- Addresses strictly rising. -/
def Memory.rising : Memory → Bool
  | [] => true
  | [_] => true
  | c :: d :: rest => c.1 < d.1 && Memory.rising (d :: rest)

/-- The canonical form: addresses strictly rising, and no cell equal to what an unlisted address reads as. -/
def Memory.wf (m : Memory) : Bool := m.rising && m.all fun c => c.2 != fillByte

/-- Every listed address is below `n`. -/
def Memory.below (m : Memory) (n : Nat) : Bool := m.all fun c => c.1 < n

end Sys2Proof.Machine
end

