-- ==== Sys2Proof/Machine/State.lean ====
section
/-! DEFINITION. The architectural state of HZ-CORE (10_state.md), the reasons a step can stop, and reset. -/

namespace Sys2Proof.Machine

/-- Why a step faults. -/
inductive Fault where
  /-- A host memory access reaches an address outside the memory of 20_memory.md R60. Raised by `hostStep`. Safe: the model stops
  (log 9). -/
  | hostAddressOutsideMemory
  deriving DecidableEq, Repr

/-- Why a step is refused. -/
inductive Refusal where
  /-- An instruction that has no meaning yet. Raised by an arm of `exec`. Safe. -/
  | notModelled (mnemonic : String)
  /-- A host register access of a width other than 32 bits (10_state.md R20, 60_exceptions.md R310). Raised by `hostStep`. Safe. -/
  | registerAccessWidth
  /-- A host register access at an offset that is no multiple of 4 (10_state.md R20). Raised by `hostStep`. Safe. -/
  | registerAccessMisaligned
  /-- A host register access outside `BASE .. BASE + 0xFF`. Raised by `hostStep`. Safe (log 10). -/
  | outsideRegisterWindow
  /-- A host write of a byte of the running command's source or used destination ranges (20_memory.md R73). Raised by
  `hostStep`. Safe. -/
  | hostWritesBusyBuffer
  /-- A host read of a byte of the running command's used destination ranges (20_memory.md R73). Raised by `hostStep`. Safe. -/
  | hostReadsBusyDestination
  /-- A command's meaning asked for while no command is running. Raised by every meaning; `step` never asks. Safe (log 11). -/
  | noCommandRunning
  deriving DecidableEq, Repr

/-- The eight operand registers (10_state.md R37): written by the host, read by every command through `latched`. -/
structure Operands where
  /-- SRC_ADDR, 10_state.md R26 -/
  srcAddr : Word
  /-- SRC_LEN, R26 -/
  srcLen : Word
  /-- DST_ADDR, R27 -/
  dstAddr : Word
  /-- DST_CAP, R27 -/
  dstCap : Word
  /-- DST2_ADDR, R28 -/
  dst2Addr : Word
  /-- DST2_CAP, R28 -/
  dst2Cap : Word
  /-- WINDOW_SIZE, R29 -/
  windowSize : Word
  /-- BUFFER_SIZE, R29 -/
  bufferSize : Word
  deriving DecidableEq, Repr

/-- `latched` of 10_state.md R34: the command and the operands the running command runs on. -/
structure Latched where
  /-- `cmd = written[30:0]` -/
  cmd : BitVec 31
  operands : Operands
  deriving DecidableEq, Repr

/-- The two agents whose steps interleave (60_exceptions.md R313). -/
inductive Agent where
  | host
  | engine
  deriving DecidableEq, Repr

/-- The whole machine. ID is hard-wired; STATUS.BUSY, STATUS.ERR and the interrupt line are views (log 14). -/
structure State where
  /-- the parameters of 00_scope.md R8; no step changes them (log 5) -/
  config : Config
  /-- CTRL.IRQ_EN, 10_state.md R22 -/
  irqEn : Bool
  /-- CMD[30:0], R23 -/
  cmd : BitVec 31
  /-- STATUS.DONE, R24 -/
  done : Bool
  /-- STATUS.CMD_REJECTED, R24 -/
  rejected : Bool
  /-- STATUS.ERR_CODE, R24 -/
  errCode : BitVec 8
  /-- ERR_POS, R25 -/
  errPos : Word
  /-- SRC_ADDR, SRC_LEN, DST_ADDR, DST_CAP, DST2_ADDR, DST2_CAP, WINDOW_SIZE, BUFFER_SIZE, R26 to R29 -/
  operands : Operands
  /-- DST_LEN, R27 -/
  dstLen : Word
  /-- DST2_LEN, R28 -/
  dst2Len : Word
  /-- STAT_ORIG, R30 -/
  statOrig : Word
  /-- STAT_COMP, R30 -/
  statComp : Word
  /-- STAT_CYCLES, R30 -/
  statCycles : Word
  /-- the command state machine of R33: `none` is IDLE, `some` is BUSY with what was latched -/
  running : Option Latched
  /-- the memory, 20_memory.md R60 -/
  mem : Memory
  /-- the host's operations still to come (log 12) -/
  host : List HostOp
  /-- which agent moves in the next steps; when it is empty, the engine if BUSY, else the host (log 1) -/
  schedule : List Agent
  /-- what the host's last register read returned (log 12) -/
  hostWord : Word
  /-- what the host's last memory read returned (log 12) -/
  hostBytes : List Byte
  /-- how many draws of free values there have been (log 2, log 3) -/
  draws : Nat
  deriving DecidableEq, Repr

/-- Every operand register at its reset value (10_state.md R39). -/
def Operands.reset : Operands :=
  { srcAddr := 0, srcLen := 0, dstAddr := 0, dstCap := 0, dst2Addr := 0, dst2Cap := 0, windowSize := 0, bufferSize := 0 }

/-- The machine right after power-on reset on a platform with the given parameters: every register at the value of 10_state.md
R39, nothing listed in memory (log 4), and no host operation pending. -/
def State.resetOn (c : Config) : State :=
  { config := c, irqEn := false, cmd := 0, done := false, rejected := false, errCode := 0, errPos := 0,
    operands := Operands.reset, dstLen := 0, dst2Len := 0, statOrig := 0, statComp := 0, statCycles := 0,
    running := none, mem := [], host := [], schedule := [], hostWord := 0, hostBytes := [], draws := 0 }

/-- The machine right after reset (10_state.md R39), on the parameters of log 5. -/
def State.reset : State := State.resetOn Config.default

end Sys2Proof.Machine
end

