-- ==== Sys2Proof/Machine/Flags.lean ====
section
/-! DEFINITION. The error codes of 60_exceptions.md R301, the STATUS word of 10_state.md R24 and the interrupt line of 60_exceptions.md
R312. The block has no condition codes (10_state.md R38). -/

namespace Sys2Proof.Machine

/-- The errors a command can end with (60_exceptions.md R301). -/
inductive Err where
  | invalidInput
  | codeLengthOverflow
  | malformedContainer
  | offsetOutOfRange
  | unrepresentableSymbol
  | illegalCommand
  | badParameter
  | alignmentError
  | addressRange
  | bufferOverlap
  | formatLimit
  | outputOverflow
  deriving DecidableEq, Repr

/-- `code(E)` (60_exceptions.md R301). -/
def errCodeOf : Err → BitVec 8
  | .invalidInput => 1#8
  | .codeLengthOverflow => 2#8
  | .malformedContainer => 3#8
  | .offsetOutOfRange => 4#8
  | .unrepresentableSymbol => 5#8
  | .illegalCommand => 6#8
  | .badParameter => 7#8
  | .alignmentError => 8#8
  | .addressRange => 9#8
  | .bufferOverlap => 10#8
  | .formatLimit => 11#8
  | .outputOverflow => 12#8

/-- `raise E(pos)` (60_exceptions.md R300): the error and the position a command ends with. -/
structure Raise where
  err : Err
  pos : Nat
  deriving DecidableEq, Repr

/-- `raise E`, which means `raise E(0)` (00_scope.md R13). -/
def raise0 (e : Err) : Raise := { err := e, pos := 0 }

/-- STATUS.BUSY (10_state.md R24, R33). -/
def State.busy (s : State) : Bool := s.running.isSome

/-- STATUS.ERR equals `ERR_CODE != 0` at all times (10_state.md R24). -/
def State.err (s : State) : Bool := s.errCode != 0#8

/-- The STATUS word (10_state.md R24): ERR_CODE at 15:8, CMD_REJECTED at 3, ERR at 2, DONE at 1, BUSY at 0, the rest zero. -/
def statusWord (s : State) : Word :=
  0#16 ++ s.errCode ++ 0#4 ++ BitVec.ofBool s.rejected ++ BitVec.ofBool s.err ++ BitVec.ofBool s.done ++
    BitVec.ofBool s.busy

/-- The interrupt line: `IRQ = CTRL.IRQ_EN AND STATUS.DONE` at all times (60_exceptions.md R312). -/
def State.irq (s : State) : Bool := s.irqEn && s.done

/-- Whether the platform's line `n` is driven by this block now (60_exceptions.md R312: the line number is `IRQ_LINE`). -/
def State.irqOnLine (s : State) (n : Nat) : Bool := n == s.config.irqLine && s.irq

end Sys2Proof.Machine
end

