-- ==== Sys2Proof/Machine/Operands.lean ====
section
/-! DEFINITION. The buffers each command uses (20_memory.md R65), their ranges, and the common checks (60_exceptions.md R305). -/

namespace Sys2Proof.Machine

/-- The shape of a buffer (20_memory.md R65, R66). -/
inductive Shape where
  /-- container or bitstream bytes: no alignment requirement -/
  | bytes
  /-- one symbol per 32-bit word -/
  | text
  /-- 8- or 12-byte entries of 32-bit words -/
  | table
  deriving DecidableEq, Repr

/-- What a command uses (20_memory.md R65, 30_encoding.md R95). -/
structure Use where
  src : Shape
  dst : Option Shape
  dst2 : Option Shape
  /-- WINDOW_SIZE and BUFFER_SIZE are operands -/
  lz : Bool
  deriving DecidableEq, Repr

/-- The table of 20_memory.md R65. -/
def useOf : Instr → Use
  | .hufCompress => { src := .text, dst := some .bytes, dst2 := none, lz := false }
  | .hufDecompress => { src := .bytes, dst := some .text, dst2 := none, lz := false }
  | .lzCompressBits => { src := .text, dst := some .bytes, dst2 := none, lz := true }
  | .lzCompressText => { src := .text, dst := none, dst2 := some .text, lz := true }
  | .lzCompressBitsText => { src := .text, dst := some .bytes, dst2 := some .text, lz := true }
  | .lzDecompressBits => { src := .bytes, dst := some .text, dst2 := none, lz := true }
  | .lzDecompressText => { src := .text, dst := some .text, dst2 := none, lz := true }
  | .hufLengths => { src := .table, dst := some .table, dst2 := none, lz := false }
  | .hufCanon => { src := .table, dst := some .table, dst2 := none, lz := false }

/-- A range (20_memory.md R61): bytes `addr .. addr + len - 1`, with no wrap-around. -/
structure Range where
  addr : Nat
  len : Nat
  deriving DecidableEq, Repr

/-- `(SRC_ADDR, SRC_LEN)` (20_memory.md R68). -/
def srcRange (o : Operands) : Range := { addr := o.srcAddr.toNat, len := o.srcLen.toNat }

/-- `(DST_ADDR, DST_CAP)`, the whole capacity (60_exceptions.md R304). -/
def dstRange (o : Operands) : Range := { addr := o.dstAddr.toNat, len := o.dstCap.toNat }

/-- `(DST2_ADDR, DST2_CAP)` (60_exceptions.md R304). -/
def dst2Range (o : Operands) : Range := { addr := o.dst2Addr.toNat, len := o.dst2Cap.toNat }

/-- Does the range hold the byte at `a` (20_memory.md R61)? An empty range holds none. -/
def Range.has (r : Range) (a : Nat) : Bool := r.addr ≤ a && a < r.addr + r.len

/-- Valid in a memory of `n` bytes (20_memory.md R61): empty, or ending inside. -/
def Range.valid (r : Range) (n : Nat) : Bool := r.len == 0 || r.addr + r.len ≤ n

/-- The two ranges share a byte (20_memory.md R68). -/
def Range.overlaps (r q : Range) : Bool :=
  0 < r.len && 0 < q.len && r.addr < q.addr + q.len && q.addr < r.addr + r.len

/-- The used destination ranges, in the order destination 1, destination 2 (20_memory.md R65). -/
def dstRanges (u : Use) (o : Operands) : List Range :=
  (if u.dst.isSome then [dstRange o] else []) ++ (if u.dst2.isSome then [dst2Range o] else [])

/-- Every used range, in the order source, destination 1, destination 2 (60_exceptions.md R305). -/
def usedRanges (u : Use) (o : Operands) : List Range := srcRange o :: dstRanges u o

/-- Some range of the list holds the byte at `a`. -/
def inRanges (rs : List Range) (a : Nat) : Bool := rs.any fun r => r.has a

/-- Some two ranges of the list, at different places in it, share a byte (20_memory.md R68). -/
def anyOverlap : List Range → Bool
  | [] => false
  | r :: rs => (rs.any fun q => r.overlaps q) || anyOverlap rs

/-- The alignment rule for a source buffer (20_memory.md R66); it holds for empty ranges too (60_exceptions.md R303). -/
def srcAligned (sh : Shape) (r : Range) : Bool :=
  match sh with
  | .bytes => true
  | .text => r.addr % 4 == 0 && r.len % 4 == 0
  | .table => r.addr % 4 == 0 && r.len % 8 == 0

/-- The alignment rule for a used destination buffer (20_memory.md R66): capacities have none. -/
def dstAligned (sh : Option Shape) (r : Range) : Bool :=
  match sh with
  | none => true
  | some .bytes => true
  | some .text => r.addr % 4 == 0
  | some .table => r.addr % 4 == 0

/-- A windowSize or bufferSize outside `1 .. max` (60_exceptions.md R302). -/
def badParameter (v : Word) (max : Nat) : Bool := v.toNat == 0 || max < v.toNat

/-- Steps 2 to 5 of `common_checks()` (60_exceptions.md R305), for a legal command: the first error met, or none. Step 1, the
illegal command word, is a word the decoder rejects. They read no memory. -/
def commonChecks (u : Use) (c : Config) (o : Operands) : Option Err :=
  if u.lz && (badParameter o.windowSize c.wMax || badParameter o.bufferSize c.bMax) then some .badParameter
  else if !(srcAligned u.src (srcRange o) && dstAligned u.dst (dstRange o) && dstAligned u.dst2 (dst2Range o)) then
    some .alignmentError
  else if !((usedRanges u o).all fun r => r.valid c.memBytes) then some .addressRange
  else if anyOverlap (usedRanges u o) then some .bufferOverlap
  else none

end Sys2Proof.Machine
end

