-- ==== Sys2Proof/Machine/Ops.lean ====
section
/-! DEFINITION. The named operations over registers and memory: GO acceptance (10_state.md R34), completion, which is the block's only
trap (R35, 60_exceptions.md R308), the acknowledgement beside it (R309), resets, and register reads and writes. -/

namespace Sys2Proof.Machine

/-- The results of a successful command (10_state.md R35): the bytes for destinations 1 and 2, and the two statistics. -/
structure Results where
  dst : List Byte
  dst2 : List Byte
  orig : Nat
  comp : Nat
  deriving DecidableEq, Repr

/-- The bytes a draw leaves in a range whose contents become unspecified (60_exceptions.md R307; log 3). -/
def freeBytes (draw : Nat) (r : Range) : List Byte :=
  (List.range r.len).map fun k => Config.freeByte draw (r.addr + k)

/-- Every byte of a range becomes unspecified: the free bytes of the draw. -/
def spoilRange (draw : Nat) (m : Memory) (r : Range) : Memory := m.writeBytes r.addr (freeBytes draw r)

/-- Every byte of each range of the list becomes unspecified. -/
def spoilRanges (draw : Nat) (m : Memory) (rs : List Range) : Memory := rs.foldl (spoilRange draw) m

/-- GO acceptance (10_state.md R34), for the written word `w`. CMD_REJECTED and CTRL are unchanged. -/
def acceptGo (w : Word) (s : State) : State :=
  { s with
    cmd := w.extractLsb' 0 31
    running := some { cmd := w.extractLsb' 0 31, operands := s.operands }
    done := false, errCode := 0, errPos := 0, dstLen := 0, dst2Len := 0, statOrig := 0, statComp := 0, statCycles := 0 }

/-- What both outcomes of a completion do (10_state.md R35): STAT_CYCLES is drawn, BUSY falls, DONE rises, and what was latched
is discarded. The interrupt line follows DONE. -/
def finishCommand (s : State) : State :=
  { s with statCycles := Config.freeCycles s.draws, draws := s.draws + 1, running := none, done := true }

/-- Completion with `err(E, pos)`, TAKING THE TRAP (10_state.md R35, 60_exceptions.md R300, R307, R308): the cause and the
position are saved and the results are zero. Memory is the caller's concern (R307). -/
def completeErr (e : Raise) (s : State) : State :=
  finishCommand
    { s with errCode := errCodeOf e.err, errPos := BitVec.ofNat 32 e.pos, dstLen := 0, dst2Len := 0, statOrig := 0,
             statComp := 0 }

/-- Completion with `ok(results)` for a command that ran on the operands `o` (10_state.md R35, 20_memory.md R69): the result bytes
go to the start of each destination. ERR_CODE and ERR_POS are 0 after a success (R24, R25). -/
def completeOk (r : Results) (o : Operands) (s : State) : State :=
  finishCommand
    { s with mem := (s.mem.writeBytes o.dstAddr.toNat r.dst).writeBytes o.dst2Addr.toNat r.dst2
             errCode := 0, errPos := 0
             dstLen := BitVec.ofNat 32 r.dst.length, dst2Len := BitVec.ofNat 32 r.dst2.length
             statOrig := BitVec.ofNat 32 r.orig, statComp := BitVec.ofNat 32 r.comp }

/-- THE RETURN from a completion is the host's acknowledgement (60_exceptions.md R309): a STATUS write clears DONE where bit 1
of the value is 1 and CMD_REJECTED where bit 3 is 1, and nothing else (10_state.md R24). -/
def writeStatus (v : Word) (s : State) : State :=
  { s with done := s.done && !v.getLsbD 1, rejected := s.rejected && !v.getLsbD 3 }

/-- The running command's outcome, in one step (10_state.md R35): the common checks of 60_exceptions.md R305 (steps 2 to 5), whose
errors leave memory unchanged, then the command's own processing (step 6), after whose errors the used destination ranges are
unspecified (R307). -/
def runCommand (u : Use) (body : Operands → Memory → Except Raise Results) (s : State) :
    Host.Outcome State Fault Refusal :=
  match s.running with
  | none => .refused .noCommandRunning
  | some l =>
    match commonChecks u s.config l.operands with
    | some e => .next (completeErr (raise0 e) s)
    | none =>
      match body l.operands s.mem with
      | .error e => .next (completeErr e { s with mem := spoilRanges s.draws s.mem (dstRanges u l.operands) })
      | .ok r => .next (completeOk r l.operands s)

/-- An accepted command word that is no command completes with IllegalCommand, ERR_POS 0, reading and writing no memory
(30_encoding.md R93, R94; step 1 of 60_exceptions.md R305). -/
def completeIllegal (s : State) : State := completeErr (raise0 .illegalCommand) s

/-- Every register at its reset value and the state machine IDLE (10_state.md R39); the memory is not changed, nor what is not
the block's: the parameters, the host and its schedule, and the counter of draws. -/
def resetRegisters (s : State) : State :=
  { s with irqEn := false, cmd := 0, done := false, rejected := false, errCode := 0, errPos := 0,
           operands := Operands.reset, dstLen := 0, dst2Len := 0, statOrig := 0, statComp := 0, statCycles := 0,
           running := none }

/-- The destination ranges an abandoned command leaves unspecified (70_reset_and_hazards.md R341): those it uses, if its common
checks passed; none if its word was illegal. -/
def abandonedRanges (c : Config) (l : Latched) : List Range :=
  match decodeCommand l.cmd with
  | .error _ => []
  | .ok i =>
    match commonChecks (useOf i) c l.operands with
    | some _ => []
    | none => dstRanges (useOf i) l.operands

/-- Soft reset (70_reset_and_hazards.md R341): a running command is abandoned and never completes. -/
def softReset (s : State) : State :=
  match s.running with
  | none => resetRegisters s
  | some l =>
    resetRegisters
      { s with mem := spoilRanges s.draws s.mem (abandonedRanges s.config l), draws := s.draws + 1 }

/-- Power-on reset (70_reset_and_hazards.md R340): the memory is not changed (log 12). -/
def powerOnReset (s : State) : State := resetRegisters s

/-- The defined registers, in the order of the map of 10_state.md R20. -/
inductive Reg where
  | id
  | ctrl
  | cmd
  | status
  | errPos
  | srcAddr
  | srcLen
  | dstAddr
  | dstCap
  | dstLen
  | dst2Addr
  | dst2Cap
  | dst2Len
  | windowSize
  | bufferSize
  | statOrig
  | statComp
  | statCycles
  deriving DecidableEq, Repr

/-- The offset of a register (the map of 10_state.md R20). -/
def offsetOf : Reg → Nat
  | .id => 0x00
  | .ctrl => 0x04
  | .cmd => 0x08
  | .status => 0x0C
  | .errPos => 0x10
  | .srcAddr => 0x14
  | .srcLen => 0x18
  | .dstAddr => 0x1C
  | .dstCap => 0x20
  | .dstLen => 0x24
  | .dst2Addr => 0x28
  | .dst2Cap => 0x2C
  | .dst2Len => 0x30
  | .windowSize => 0x34
  | .bufferSize => 0x38
  | .statOrig => 0x3C
  | .statComp => 0x40
  | .statCycles => 0x44

/-- The register at an offset of the window; the offsets 0x48 to 0xFC are reserved (10_state.md R20, R31). -/
def regAt (offset : Nat) : Option Reg :=
  match offset with
  | 0x00 => some .id
  | 0x04 => some .ctrl
  | 0x08 => some .cmd
  | 0x0C => some .status
  | 0x10 => some .errPos
  | 0x14 => some .srcAddr
  | 0x18 => some .srcLen
  | 0x1C => some .dstAddr
  | 0x20 => some .dstCap
  | 0x24 => some .dstLen
  | 0x28 => some .dst2Addr
  | 0x2C => some .dst2Cap
  | 0x30 => some .dst2Len
  | 0x34 => some .windowSize
  | 0x38 => some .bufferSize
  | 0x3C => some .statOrig
  | 0x40 => some .statComp
  | 0x44 => some .statCycles
  | _ => none

/-- ID (10_state.md R21). -/
def idValue : Word := 0x485A0701#32

/-- What a register reads as (10_state.md R21 to R30). Reads have no side effect and are allowed at all times (R32). -/
def readReg (s : State) : Reg → Word
  | .id => idValue
  | .ctrl => 0#31 ++ BitVec.ofBool s.irqEn
  | .cmd => 0#1 ++ s.cmd
  | .status => statusWord s
  | .errPos => s.errPos
  | .srcAddr => s.operands.srcAddr
  | .srcLen => s.operands.srcLen
  | .dstAddr => s.operands.dstAddr
  | .dstCap => s.operands.dstCap
  | .dstLen => s.dstLen
  | .dst2Addr => s.operands.dst2Addr
  | .dst2Cap => s.operands.dst2Cap
  | .dst2Len => s.dst2Len
  | .windowSize => s.operands.windowSize
  | .bufferSize => s.operands.bufferSize
  | .statOrig => s.statOrig
  | .statComp => s.statComp
  | .statCycles => s.statCycles

/-- What an offset of the window reads as: reserved offsets read 0 (10_state.md R31). -/
def readOffset (s : State) (offset : Nat) : Word :=
  match regAt offset with
  | some r => readReg s r
  | none => 0#32

/-- A write of CTRL (10_state.md R22), allowed while BUSY: bit 1 performs the soft reset and discards the other bits. -/
def writeCtrl (v : Word) (s : State) : State :=
  if v.getLsbD 1 then softReset s else { s with irqEn := v.getLsbD 0 }

/-- A write of CMD (10_state.md R23, R32, R34). -/
def writeCmd (v : Word) (s : State) : State :=
  if s.busy then (if v.getLsbD 31 then { s with rejected := true } else s)
  else if v.getLsbD 31 then acceptGo v s
  else { s with cmd := v.extractLsb' 0 31 }

/-- A write of an operand register: ignored while BUSY (10_state.md R32). -/
def writeOperand (f : Operands → Operands) (s : State) : State :=
  if s.busy then s else { s with operands := f s.operands }

/-- A host write of a register (10_state.md R21 to R32). Writes of read-only registers are ignored. -/
def writeReg (r : Reg) (v : Word) (s : State) : State :=
  match r with
  | .id => s
  | .ctrl => writeCtrl v s
  | .cmd => writeCmd v s
  | .status => writeStatus v s
  | .errPos => s
  | .srcAddr => writeOperand (fun o => { o with srcAddr := v }) s
  | .srcLen => writeOperand (fun o => { o with srcLen := v }) s
  | .dstAddr => writeOperand (fun o => { o with dstAddr := v }) s
  | .dstCap => writeOperand (fun o => { o with dstCap := v }) s
  | .dstLen => s
  | .dst2Addr => writeOperand (fun o => { o with dst2Addr := v }) s
  | .dst2Cap => writeOperand (fun o => { o with dst2Cap := v }) s
  | .dst2Len => s
  | .windowSize => writeOperand (fun o => { o with windowSize := v }) s
  | .bufferSize => writeOperand (fun o => { o with bufferSize := v }) s
  | .statOrig => s
  | .statComp => s
  | .statCycles => s

/-- A host write at an offset of the window: reserved offsets ignore it (10_state.md R31). -/
def writeOffset (offset : Nat) (v : Word) (s : State) : State :=
  match regAt offset with
  | some r => writeReg r v s
  | none => s

end Sys2Proof.Machine
end

