-- ==== Sys2Proof/Machine/HuffmanTables.lean ====
section
/-! DEFINITION. The table commands: HUF_LENGTHS (41_huffman_tree.md R166) and HUF_CANON (42_huffman_canonical.md R186). -/

namespace Sys2Proof.Machine

/-- `s in keys(F)`. -/
def isKey (F : List (Nat × Nat)) (s : Nat) : Bool := F.any fun p => p.1 == s

/-- The entry loop of HUF_LENGTHS (41_huffman_tree.md R166): the map read so far is `F`, the next entry's index `k`. -/
def readFrequencies (k : Nat) (F : List (Nat × Nat)) : List (Nat × Nat) → Except Raise (List (Nat × Nat))
  | [] => .ok F
  | (s, c) :: rest =>
    if 0xFFFF < s then .error { err := .unrepresentableSymbol, pos := k }
    else if isKey F s then .error { err := .invalidInput, pos := k }
    else if c = 0 then .error { err := .invalidInput, pos := k }
    else readFrequencies (k + 1) (F ++ [(s, c)]) rest

/-- The bytes of a table of two-word entries (30_encoding.md R101). -/
def pairsBytes (L : List (Nat × Nat)) : List Byte := wordsBytes (L.flatMap fun p => [p.1, p.2])

/-- The processing of HUF_LENGTHS on the entries of its source and the capacity of its destination (41_huffman_tree.md R166): the
length table in canonical order. -/
def lengthTable (entries : List (Nat × Nat)) (cap : Nat) : Except Raise (List (Nat × Nat)) :=
  if entries = [] then .error (raise0 .invalidInput)
  else
    match readFrequencies 0 [] entries with
    | .error e => .error e
    | .ok F => if cap < 8 * entries.length then .error (raise0 .outputOverflow) else .ok (canonSort (treeLengths F))

/-- Step 6 of HUF_LENGTHS. Both statistics are 0 (60_exceptions.md R320). -/
def hufLengthsBody (o : Operands) (m : Memory) : Except Raise Results :=
  match lengthTable (m.readPairs o.srcAddr.toNat (o.srcLen.toNat / 8)) o.dstCap.toNat with
  | .error e => .error e
  | .ok L => .ok { dst := pairsBytes L, dst2 := [], orig := 0, comp := 0 }

/-- HUF_LENGTHS (41_huffman_tree.md R166). -/
def execHufLengths (s : State) : Host.Outcome State Fault Refusal := runCommand (useOf .hufLengths) hufLengthsBody s

/-- The entry loop of HUF_CANON (42_huffman_canonical.md R186): the map read so far is `F`, the next entry's index `k`. -/
def readLengths (k : Nat) (F : List (Nat × Nat)) : List (Nat × Nat) → Except Raise (List (Nat × Nat))
  | [] => .ok F
  | (s, l) :: rest =>
    if 0xFFFF < s then .error { err := .unrepresentableSymbol, pos := k }
    else if isKey F s then .error { err := .invalidInput, pos := k }
    else if l = 0 then .error { err := .invalidInput, pos := k }
    else if 31 < l then .error { err := .codeLengthOverflow, pos := k }
    else readLengths (k + 1) (F ++ [(s, l)]) rest

/-- The bytes of a code table (30_encoding.md R102). -/
def codesBytes (T : List CodeEntry) : List Byte := wordsBytes (T.flatMap fun e => [e.sym, e.len, e.code])

/-- The processing of HUF_CANON on the entries of its source and the capacity of its destination (42_huffman_canonical.md
R186). -/
def codeTable (entries : List (Nat × Nat)) (cap : Nat) : Except Raise (List CodeEntry) :=
  if entries = [] then .error (raise0 .invalidInput)
  else
    match readLengths 0 [] entries with
    | .error e => .error e
    | .ok len =>
      if !codesFit (canon len) then .error (raise0 .invalidInput)
      else if cap < 12 * entries.length then .error (raise0 .outputOverflow)
      else .ok (canon len)

/-- Step 6 of HUF_CANON. Both statistics are 0 (60_exceptions.md R320). -/
def hufCanonBody (o : Operands) (m : Memory) : Except Raise Results :=
  match codeTable (m.readPairs o.srcAddr.toNat (o.srcLen.toNat / 8)) o.dstCap.toNat with
  | .error e => .error e
  | .ok T => .ok { dst := codesBytes T, dst2 := [], orig := 0, comp := 0 }

/-- HUF_CANON (42_huffman_canonical.md R186). -/
def execHufCanon (s : State) : Host.Outcome State Fault Refusal := runCommand (useOf .hufCanon) hufCanonBody s

end Sys2Proof.Machine
end

