-- ==== Sys2Proof/Machine/Stats.lean ====
section
/-! DEFINITION. The byte sizes of texts in the statistics (60_exceptions.md R320). The ratio is the host's to compute (R321). -/

namespace Sys2Proof.Machine

/-- `u8(s)`: the UTF-8 length of a code point (60_exceptions.md R320). -/
def u8 (s : Nat) : Nat := if s < 0x80 then 1 else if s < 0x800 then 2 else if s < 0x10000 then 3 else 4

/-- `utf8size(t)` (60_exceptions.md R320). -/
def utf8size (t : List Nat) : Nat := (t.map u8).sum

end Sys2Proof.Machine
end

