-- ==== Sys2Proof/Machine/HuffmanCodec.lean ====
section
/-! DEFINITION. The container commands: HUF_COMPRESS and HUF_DECOMPRESS (43_huffman_codec.md). -/

namespace Sys2Proof.Machine

/-- The index of the first symbol above `bound`, counted from `k`. -/
def firstAbove (bound : Nat) (k : Nat) : List Nat → Option Nat
  | [] => none
  | s :: rest => if bound < s then some k else firstAbove bound (k + 1) rest

/-- The symbol frequency map of a text (43_huffman_codec.md R201): each symbol that occurs, with its number of occurrences. -/
def frequencies (t : List Nat) : List (Nat × Nat) := t.dedup.map fun s => (s, t.count s)

/-- `B`: the number of code bits of a text (43_huffman_codec.md R200, 30_encoding.md R106). -/
def codeBits (len : List (Nat × Nat)) (t : List Nat) : Nat := (t.map (lengthOf len)).sum

/-- `put(T[k].s, 16) ; put(T[k].len, 5)` for every entry (43_huffman_codec.md R204). -/
def putEntries (wbits : List Bool) : List CodeEntry → List Bool
  | [] => wbits
  | e :: rest => putEntries (put (put wbits e.sym 16) e.len 5) rest

/-- `put(code(t[k]), len[t[k]])` for every symbol of the text (43_huffman_codec.md R204). A symbol of the text always has an
entry. -/
def putCodes (T : List CodeEntry) (wbits : List Bool) : List Nat → List Bool
  | [] => wbits
  | s :: rest =>
    match entryOf T s with
    | some e => putCodes T (put wbits e.code e.len) rest
    | none => putCodes T wbits rest

/-- The container's bits before padding (43_huffman_codec.md R204, 30_encoding.md R103). -/
def containerBits (T : List CodeEntry) (B : Nat) (t : List Nat) : List Bool :=
  putCodes T (put (putEntries (put [] T.length 16) T) B 32) t

/-- The part of HUF_COMPRESS after the frequency map `F` and the tree's lengths `len` of a non-empty text
(43_huffman_codec.md R200, R205): the limits in the order checked, then the container. -/
def encodeContainer (t : List Nat) (cap : Nat) (F len : List (Nat × Nat)) : Except Raise (List Byte) :=
  if 65535 < F.length then .error (raise0 .formatLimit)
  else if len.any fun p => 31 < p.2 then .error (raise0 .codeLengthOverflow)
  else if 0xFFFFFFFF < codeBits len t then .error (raise0 .formatLimit)
  else if cap < ceilDiv (48 + 21 * F.length + codeBits len t) 8 then .error (raise0 .outputOverflow)
  else .ok (finish (containerBits (canon len) (codeBits len t) t))

/-- The processing of HUF_COMPRESS on a text and the capacity of its destination (43_huffman_codec.md R200): the container. The
whole text is checked before the map is built (R203); the empty text builds no tree (R202). -/
def hufCompress (t : List Nat) (cap : Nat) : Except Raise (List Byte) :=
  match firstAbove 0xFFFF 0 t with
  | some k => .error { err := .unrepresentableSymbol, pos := k }
  | none =>
    if t = [] then .ok []
    else encodeContainer t cap (frequencies t) (treeLengths (frequencies t))

/-- Step 6 of HUF_COMPRESS, with its statistics (60_exceptions.md R320). -/
def hufCompressBody (o : Operands) (m : Memory) : Except Raise Results :=
  match hufCompress (m.readWords o.srcAddr.toNat (o.srcLen.toNat / 4)) o.dstCap.toNat with
  | .error e => .error e
  | .ok bytes =>
    .ok { dst := bytes, dst2 := [], orig := utf8size (m.readWords o.srcAddr.toNat (o.srcLen.toNat / 4)),
          comp := bytes.length }

/-- HUF_COMPRESS (43_huffman_codec.md R200). -/
def execHufCompress (s : State) : Host.Outcome State Fault Refusal := runCommand (useOf .hufCompress) hufCompressBody s

/-- The entry loop of `read_table()` (43_huffman_codec.md R211): `n` entries still to read, the map read so far `len`. -/
def readEntries : Nat → List (Nat × Nat) → List Bool → Except Raise (List (Nat × Nat) × List Bool)
  | 0, len, r => .ok (len, r)
  | n + 1, len, r =>
    if avail r < 21 then .error (raise0 .malformedContainer)
    else
      match get r 16 with
      | (s, r1) =>
        match get r1 5 with
        | (l, r2) =>
          if l = 0 then .error (raise0 .malformedContainer)
          else if isKey len s then .error (raise0 .malformedContainer)
          else readEntries n (len ++ [(s, l)]) r2

/-- `read_table()` (43_huffman_codec.md R211): the code table, the bit count `B`, and the reader after them. -/
def readTable (r : List Bool) : Except Raise (List CodeEntry × Nat × List Bool) :=
  if avail r < 16 then .error (raise0 .malformedContainer)
  else
    match get r 16 with
    | (N, r1) =>
      if N = 0 then .error (raise0 .malformedContainer)
      else
        match readEntries N [] r1 with
        | .error e => .error e
        | .ok (len, r2) =>
          if avail r2 < 32 then .error (raise0 .malformedContainer)
          else
            match get r2 32 with
            | (B, r3) =>
              if avail r3 < B then .error (raise0 .malformedContainer)
              else if !codesFit (canon len) then .error (raise0 .malformedContainer)
              else .ok (canon len, B, r3)

/-- `maxlen` (43_huffman_codec.md R211). -/
def maxLength (T : List CodeEntry) : Nat := T.foldl (fun n e => max n e.len) 0

/-- The entry whose length and code are those accumulated (43_huffman_codec.md R212). -/
def matchCode (T : List CodeEntry) (alen acc : Nat) : Option CodeEntry := T.find? fun e => e.len == alen && e.code == acc

/-- The bit walk (43_huffman_codec.md R210, R212) over the bits given, with `acc`, `alen` accumulated and `out` decoded. -/
def walkBits (T : List CodeEntry) (cap : Nat) : List Bool → Nat → Nat → List Nat → Except Raise (List Nat)
  | [], _, alen, out => if alen ≠ 0 then .error (raise0 .malformedContainer) else .ok out
  | b :: bs, acc, alen, out =>
    match matchCode T (alen + 1) (2 * acc + b.toNat) with
    | some e =>
      if cap < 4 * (out.length + 1) then .error (raise0 .outputOverflow)
      else walkBits T cap bs 0 0 (out ++ [e.sym])
    | none =>
      if maxLength T ≤ alen + 1 then .error (raise0 .malformedContainer)
      else walkBits T cap bs (2 * acc + b.toNat) (alen + 1) out

/-- The processing of HUF_DECOMPRESS on a container and the capacity of its destination (43_huffman_codec.md R210): the text.
Padding bits and extra bytes are not read (R213, R214). -/
def hufDecompress (bytes : List Byte) (cap : Nat) : Except Raise (List Nat) :=
  if bytes = [] then .ok []
  else
    match readTable (readerOn bytes) with
    | .error e => .error e
    | .ok (T, B, r) => walkBits T cap (r.take B) 0 0 []

/-- Step 6 of HUF_DECOMPRESS, with its statistics (60_exceptions.md R320). The empty container counts 0 and 0 (43_huffman_codec.md
R210), as the general rule does. -/
def hufDecompressBody (o : Operands) (m : Memory) : Except Raise Results :=
  match hufDecompress (m.readBytes o.srcAddr.toNat o.srcLen.toNat) o.dstCap.toNat with
  | .error e => .error e
  | .ok out => .ok { dst := wordsBytes out, dst2 := [], orig := utf8size out, comp := o.srcLen.toNat }

/-- HUF_DECOMPRESS (43_huffman_codec.md R210). -/
def execHufDecompress (s : State) : Host.Outcome State Fault Refusal :=
  runCommand (useOf .hufDecompress) hufDecompressBody s

end Sys2Proof.Machine
end

