-- ==== Sys2Proof/Machine/Lz77Match.lean ====
section
/-! DEFINITION. The LZ77 match finder and triple generator (44_lz77_match.md), and the replay both decoders share (45_lz77_codec.md
R265). -/

namespace Sys2Proof.Machine

/-- The length of the common run of two sequences, at most `cap`. -/
def commonRun (cap : Nat) : List Nat → List Nat → Nat
  | x :: xs, y :: ys => if cap = 0 then 0 else if x = y then commonRun (cap - 1) xs ys + 1 else 0
  | _, _ => 0

/-- `ml(i, j)` (44_lz77_match.md R242): the run from `j` against the run from `i`, at most `b` symbols; it may extend past `i`. -/
def matchLength (t : List Nat) (b i j : Nat) : Nat := commonRun b (t.drop j) (t.drop i)

/-- One position of the window scan (44_lz77_match.md R243): strict improvement only. -/
def improve (t : List Nat) (b i : Nat) (best : Nat × Nat) (j : Nat) : Nat × Nat :=
  if best.2 < matchLength t b i j then (i - j, matchLength t b i j) else best

/-- `best(i)` (44_lz77_match.md R240, R243): the window `[max(0, i - w), i)` scanned left to right; (offset, length). -/
def bestMatch (t : List Nat) (w b i : Nat) : Nat × Nat :=
  (List.range' (i - w) (i - (i - w))).foldl (improve t b i) (0, 0)

/-- A triple (44_lz77_match.md R244): offset, length, the character or none, and the index of the character in the text. -/
structure Triple where
  off : Nat
  len : Nat
  chr : Option Nat
  cpos : Option Nat
  deriving DecidableEq, Repr

/-- The triple emitted at position `i` (44_lz77_match.md R244). -/
def tripleAt (t : List Nat) (w b i : Nat) : Triple :=
  match bestMatch t w b i with
  | (o, L) =>
    if 0 < L then
      if i + L < t.length then { off := o, len := L, chr := t[i + L]?, cpos := some (i + L) }
      else { off := o, len := L, chr := none, cpos := none }
    else { off := 0, len := 0, chr := t[i]?, cpos := some i }

/-- The scan from position `i` (44_lz77_match.md R245): every triple advances by its length and one. Each turn advances, so
`|t|` turns suffice. -/
def triplesFrom (t : List Nat) (w b : Nat) : Nat → Nat → List Triple
  | 0, _ => []
  | fuel + 1, i =>
    if i < t.length then tripleAt t w b i :: triplesFrom t w b fuel (i + (tripleAt t w b i).len + 1) else []

/-- `triples(t, w, b)` (44_lz77_match.md R245). -/
def triples (t : List Nat) (w b : Nat) : List Triple := triplesFrom t w b t.length 0

/-- `L` symbols copied one at a time from `o` before the write cursor (45_lz77_codec.md R265). -/
def copyBack (o : Nat) : Nat → List Nat → List Nat
  | 0, out => out
  | L + 1, out => copyBack o L (out ++ [out.getD (out.length - o) 0])

/-- `replay(out, o, L, c)` (45_lz77_codec.md R265). -/
def replay (out : List Nat) (o L : Nat) (c : Option Nat) : List Nat := copyBack o L out ++ c.toList

end Sys2Proof.Machine
end

