-- ==== Sys2Proof/Machine/Lz77Codec.lean ====
section
/-! DEFINITION. The LZ77 commands: LZ_COMPRESS in its three forms, LZ_DECOMPRESS_BITS and LZ_DECOMPRESS_TEXT (45_lz77_codec.md), with
the bitstream form of 30_encoding.md R110 to R114 and the text form of R120 to R123. -/

namespace Sys2Proof.Machine

/-- `OW = clog2(w)` (30_encoding.md R111). -/
def offsetWidth (w : Nat) : Nat := clog2 w

/-- `LW = clog2(b + 1)` (30_encoding.md R111). -/
def lengthWidth (b : Nat) : Nat := clog2 (b + 1)

/-- `H = 1 + OW + LW` (30_encoding.md R111). -/
def headerWidth (w b : Nat) : Nat := 1 + offsetWidth w + lengthWidth b

/-- The character field: 8 bits, or nothing (30_encoding.md R113). -/
def putChar (wbits : List Bool) : Option Nat → List Bool
  | some c => put wbits c 8
  | none => wbits

/-- `put_triple(o, L, c)` (45_lz77_codec.md R261). -/
def putTriple (w b : Nat) (wbits : List Bool) (t : Triple) : List Bool :=
  putChar
    (put (put (put wbits (if 0 < t.len then 1 else 0) 1) (t.off % 2 ^ offsetWidth w) (offsetWidth w)) t.len
      (lengthWidth b)) t.chr

/-- The decimal digits of `v` as symbols, `fuel` of them at most before the last. -/
def decDigits : Nat → Nat → List Nat
  | 0, v => [0x30 + v % 10]
  | fuel + 1, v => if v < 10 then [0x30 + v] else decDigits fuel (v / 10) ++ [0x30 + v % 10]

/-- `dec(v)`: decimal, no leading zero (30_encoding.md R120, R121). -/
def dec (v : Nat) : List Nat := decDigits v v

/-- `token(o, L, c)` (45_lz77_codec.md R263, 30_encoding.md R120). -/
def token (t : Triple) : List Nat :=
  [0x28] ++ dec t.off ++ [0x2C] ++ dec t.len ++ [0x2C] ++ t.chr.toList ++ [0x29]

/-- Is the symbol above 0xFF (45_lz77_codec.md R262)? -/
def wideChar : Option Nat → Bool
  | some c => 0xFF < c
  | none => false

/-- The bitstream part of one triple (45_lz77_codec.md R260, R262). -/
def emitBits (w b cap : Nat) (wbits : List Bool) (t : Triple) : Except Raise (List Bool) :=
  if wideChar t.chr then .error { err := .unrepresentableSymbol, pos := t.cpos.getD 0 }
  else if cap < nbytes (putTriple w b wbits t) then .error (raise0 .outputOverflow)
  else .ok (putTriple w b wbits t)

/-- The text after the token of triple `k` (45_lz77_codec.md R260): one space between tokens. -/
def addToken (k : Nat) (tx : List Nat) (t : Triple) : List Nat := (if 0 < k then tx ++ [0x20] else tx) ++ token t

/-- The text part of triple `k` (45_lz77_codec.md R260). -/
def emitText (cap2 k : Nat) (tx : List Nat) (t : Triple) : Except Raise (List Nat) :=
  if cap2 < 4 * (addToken k tx t).length then .error (raise0 .outputOverflow) else .ok (addToken k tx t)

/-- What LZ_COMPRESS emits (30_encoding.md R92). -/
structure Emit where
  bits : Bool
  text : Bool
  deriving DecidableEq, Repr

/-- The triple loop of LZ_COMPRESS (45_lz77_codec.md R260): triple by triple, the bitstream part, then the text part. -/
def emitTriples (e : Emit) (w b cap cap2 : Nat) :
    Nat → List Bool → List Nat → List Triple → Except Raise (List Bool × List Nat)
  | _, wbits, tx, [] => .ok (wbits, tx)
  | k, wbits, tx, t :: ts =>
    match (if e.bits then emitBits w b cap wbits t else .ok wbits) with
    | .error x => .error x
    | .ok wbits' =>
      match (if e.text then emitText cap2 k tx t else .ok tx) with
      | .error x => .error x
      | .ok tx' => emitTriples e w b cap cap2 (k + 1) wbits' tx' ts

/-- The processing of LZ_COMPRESS on a text (45_lz77_codec.md R260): the bitstream bytes and the triple text. -/
def lzCompress (e : Emit) (w b cap cap2 : Nat) (t : List Nat) : Except Raise (List Byte × List Nat) :=
  match emitTriples e w b cap cap2 0 [] [] (triples t w b) with
  | .error x => .error x
  | .ok (wbits, tx) => .ok (finish wbits, tx)

/-- Step 6 of LZ_COMPRESS, with its statistics (60_exceptions.md R320). A form that is not emitted is empty. -/
def lzCompressBody (e : Emit) (o : Operands) (m : Memory) : Except Raise Results :=
  match lzCompress e o.windowSize.toNat o.bufferSize.toNat o.dstCap.toNat o.dst2Cap.toNat
      (m.readWords o.srcAddr.toNat (o.srcLen.toNat / 4)) with
  | .error x => .error x
  | .ok (bytes, tx) =>
    .ok { dst := bytes, dst2 := wordsBytes tx, orig := utf8size (m.readWords o.srcAddr.toNat (o.srcLen.toNat / 4)),
          comp := if e.bits then bytes.length else utf8size tx }

/-- LZ_COMPRESS bits (45_lz77_codec.md R260). -/
def execLzCompressBits (s : State) : Host.Outcome State Fault Refusal :=
  runCommand (useOf .lzCompressBits) (lzCompressBody { bits := true, text := false }) s

/-- LZ_COMPRESS text (45_lz77_codec.md R260). -/
def execLzCompressText (s : State) : Host.Outcome State Fault Refusal :=
  runCommand (useOf .lzCompressText) (lzCompressBody { bits := false, text := true }) s

/-- LZ_COMPRESS bits,text (45_lz77_codec.md R260). -/
def execLzCompressBitsText (s : State) : Host.Outcome State Fault Refusal :=
  runCommand (useOf .lzCompressBitsText) (lzCompressBody { bits := true, text := true }) s

/-- `read_char()` (45_lz77_codec.md R273), with `H` the header width. -/
def readChar (H : Nat) (r : List Bool) : Option Nat × List Bool :=
  if avail r < 8 then (none, r)
  else
    match get r 8 with
    | (c, r') => if c = 0 ∧ avail r' < H then (none, r') else (some c, r')

/-- `decode_offset(f, so)` (45_lz77_codec.md R272). -/
def decodeOffset (w f so : Nat) : Nat := if f = 0 then 0 else if so ≠ 0 then so else 2 ^ offsetWidth w

/-- `check_triple(f, so, o, L, outlen, k)` (45_lz77_codec.md R274): the first error met, or none. -/
def checkTriple (w b f so o L outlen k : Nat) : Option Raise :=
  if f = 0 ∧ (so ≠ 0 ∨ L ≠ 0) then some { err := .malformedContainer, pos := k }
  else if f = 1 ∧ L = 0 then some { err := .malformedContainer, pos := k }
  else if f = 1 ∧ (w < o ∨ b < L) then some { err := .malformedContainer, pos := k }
  else if outlen < o then some { err := .offsetOutOfRange, pos := k }
  else none

/-- The fields of the next triple and the reader after it (45_lz77_codec.md R270): flag, stored offset, length, character. -/
def readTriple (w b : Nat) (r : List Bool) : Nat × Nat × Nat × Option Nat × List Bool :=
  match get r 1 with
  | (f, r1) =>
    match get r1 (offsetWidth w) with
    | (so, r2) =>
      match get r2 (lengthWidth b) with
      | (L, r3) =>
        match readChar (headerWidth w b) r3 with
        | (c, r4) => (f, so, L, c, r4)

/-- The end of the triple loop (45_lz77_codec.md R276). -/
def endOfBits (k : Nat) (r : List Bool) (out : List Nat) : Except Raise (List Nat) :=
  if 8 ≤ avail r then .error { err := .malformedContainer, pos := k } else .ok out

/-- The number of symbols a triple appends. -/
def tripleSize (L : Nat) (c : Option Nat) : Nat := L + (if c.isSome then 1 else 0)

/-- The triple loop of LZ_DECOMPRESS_BITS (45_lz77_codec.md R270, R271): each turn reads at least a header of two bits, so as many
turns as there are bits suffice. -/
def decodeTriples (w b cap : Nat) : Nat → Nat → List Bool → List Nat → Except Raise (List Nat)
  | 0, k, r, out => endOfBits k r out
  | fuel + 1, k, r, out =>
    if avail r < headerWidth w b then endOfBits k r out
    else
      match readTriple w b r with
      | (f, so, L, c, r') =>
        match checkTriple w b f so (decodeOffset w f so) L out.length k with
        | some e => .error e
        | none =>
          if cap < 4 * (out.length + tripleSize L c) then .error { err := .outputOverflow, pos := k }
          else decodeTriples w b cap fuel (k + 1) r' (replay out (decodeOffset w f so) L c)

/-- The processing of LZ_DECOMPRESS_BITS on a bitstream (45_lz77_codec.md R270): the text. -/
def lzDecompressBits (w b cap : Nat) (bytes : List Byte) : Except Raise (List Nat) :=
  decodeTriples w b cap (avail (readerOn bytes)) 0 (readerOn bytes) []

/-- Step 6 of LZ_DECOMPRESS_BITS, with its statistics (60_exceptions.md R320). -/
def lzDecompressBitsBody (o : Operands) (m : Memory) : Except Raise Results :=
  match lzDecompressBits o.windowSize.toNat o.bufferSize.toNat o.dstCap.toNat
      (m.readBytes o.srcAddr.toNat o.srcLen.toNat) with
  | .error e => .error e
  | .ok out => .ok { dst := wordsBytes out, dst2 := [], orig := utf8size out, comp := o.srcLen.toNat }

/-- LZ_DECOMPRESS_BITS (45_lz77_codec.md R270). -/
def execLzDecompressBits (s : State) : Host.Outcome State Fault Refusal :=
  runCommand (useOf .lzDecompressBits) lzDecompressBitsBody s

/-- A decimal digit's symbol (30_encoding.md R121). -/
def isDigit (s : Nat) : Bool := 0x30 ≤ s && s ≤ 0x39

/-- The value of a run of digits. -/
def digitsValue (ds : List Nat) : Nat := ds.foldl (fun v d => 10 * v + (d - 0x30)) 0

/-- `num` (30_encoding.md R122, R123): at least one digit, a value of at most 0xFFFFFFFF, and what follows. -/
def parseNum (s : List Nat) : Option (Nat × List Nat) :=
  if s.takeWhile isDigit = [] then none
  else if 0xFFFFFFFF < digitsValue (s.takeWhile isDigit) then none
  else some (digitsValue (s.takeWhile isDigit), s.dropWhile isDigit)

/-- The one symbol `x` (30_encoding.md R122), and what follows. -/
def expect (x : Nat) : List Nat → Option (List Nat)
  | [] => none
  | y :: rest => if y = x then some rest else none

/-- `tail` (30_encoding.md R122): decided on the two symbols after the second comma. -/
def parseTail : List Nat → Option (Option Nat × List Nat)
  | [] => none
  | [s1] => if s1 = 0x29 then some (none, []) else none
  | s1 :: s2 :: rest =>
    if s2 = 0x29 then some (some s1, rest) else if s1 = 0x29 then some (none, s2 :: rest) else none

/-- `parse_token` (45_lz77_codec.md R280, 30_encoding.md R122): offset, length, character, and what follows; none where the text is
malformed (R123). -/
def parseToken (s : List Nat) : Option (Nat × Nat × Option Nat × List Nat) :=
  match expect 0x28 s with
  | none => none
  | some s1 =>
    match parseNum s1 with
    | none => none
    | some (o, s2) =>
      match expect 0x2C s2 with
      | none => none
      | some s3 =>
        match parseNum s3 with
        | none => none
        | some (L, s4) =>
          match expect 0x2C s4 with
          | none => none
          | some s5 =>
            match parseTail s5 with
            | none => none
            | some (c, s6) => some (o, L, c, s6)

/-- The token loop of LZ_DECOMPRESS_TEXT (45_lz77_codec.md R280, R281): token `k` begins at `s`. A token has symbols, so as many
turns as there are symbols suffice. -/
def decodeTokens (cap : Nat) : Nat → Nat → List Nat → List Nat → Except Raise (List Nat)
  | 0, k, _, _ => .error { err := .malformedContainer, pos := k }
  | fuel + 1, k, s, out =>
    match parseToken s with
    | none => .error { err := .malformedContainer, pos := k }
    | some (o, L, c, rest) =>
      if out.length < o then .error { err := .offsetOutOfRange, pos := k }
      else if ¬(o = 0 ↔ L = 0) then .error { err := .malformedContainer, pos := k }
      else if cap < 4 * (out.length + tripleSize L c) then .error { err := .outputOverflow, pos := k }
      else
        match rest with
        | [] => .ok (replay out o L c)
        | x :: rest' =>
          if x ≠ 0x20 then .error { err := .malformedContainer, pos := k + 1 }
          else decodeTokens cap fuel (k + 1) rest' (replay out o L c)

/-- The processing of LZ_DECOMPRESS_TEXT on a triple text (45_lz77_codec.md R280): the text. WINDOW_SIZE and BUFFER_SIZE are only
range-checked (R282). -/
def lzDecompressText (cap : Nat) (s : List Nat) : Except Raise (List Nat) :=
  if s = [] then .ok [] else decodeTokens cap s.length 0 s []

/-- Step 6 of LZ_DECOMPRESS_TEXT, with its statistics (60_exceptions.md R320). -/
def lzDecompressTextBody (o : Operands) (m : Memory) : Except Raise Results :=
  match lzDecompressText o.dstCap.toNat (m.readWords o.srcAddr.toNat (o.srcLen.toNat / 4)) with
  | .error e => .error e
  | .ok out =>
    .ok { dst := wordsBytes out, dst2 := [], orig := utf8size out,
          comp := utf8size (m.readWords o.srcAddr.toNat (o.srcLen.toNat / 4)) }

/-- LZ_DECOMPRESS_TEXT (45_lz77_codec.md R280). -/
def execLzDecompressText (s : State) : Host.Outcome State Fault Refusal :=
  runCommand (useOf .lzDecompressText) lzDecompressTextBody s

end Sys2Proof.Machine
end

