-- ==== Sys2Proof/Machine/Dispatch.lean ====
section
/-! DEFINITION. One arm per command. -/

namespace Sys2Proof.Machine

def exec (i : Instr) (s : State) : Host.Outcome State Fault Refusal :=
  match i with
  | .hufCompress => Sys2Proof.Machine.execHufCompress s
  | .hufDecompress => Sys2Proof.Machine.execHufDecompress s
  | .lzCompressBits => Sys2Proof.Machine.execLzCompressBits s
  | .lzCompressText => Sys2Proof.Machine.execLzCompressText s
  | .lzCompressBitsText => Sys2Proof.Machine.execLzCompressBitsText s
  | .lzDecompressBits => Sys2Proof.Machine.execLzDecompressBits s
  | .lzDecompressText => Sys2Proof.Machine.execLzDecompressText s
  | .hufLengths => Sys2Proof.Machine.execHufLengths s
  | .hufCanon => Sys2Proof.Machine.execHufCanon s

end Sys2Proof.Machine
end

