-- ==== Sys2Proof/Machine/HostAccess.lean ====
section
/-! DEFINITION. A step of the host: one register access, one memory access, or power-on (60_exceptions.md R313; 30_encoding.md R130). -/

namespace Sys2Proof.Machine

/-- The offset in the window that a register access reaches, or why it is outside the interface (10_state.md R20). -/
def regOffset (c : Config) (addr width : Nat) : Except Refusal Nat :=
  if addr < c.base ∨ c.base + 256 ≤ addr then .error .outsideRegisterWindow
  else if width ≠ 4 then .error .registerAccessWidth
  else if (addr - c.base) % 4 ≠ 0 then .error .registerAccessMisaligned
  else .ok (addr - c.base)

/-- The destination ranges of the running command, which the host may neither read nor write (20_memory.md R73). An illegal
command uses none (30_encoding.md R93); log 13. -/
def busyDestinations (s : State) : List Range :=
  match s.running with
  | none => []
  | some l =>
    match decodeCommand l.cmd with
    | .error _ => []
    | .ok i => dstRanges (useOf i) l.operands

/-- The ranges of the running command, which the host may not write (20_memory.md R73). -/
def busyRanges (s : State) : List Range :=
  match s.running with
  | none => []
  | some l =>
    match decodeCommand l.cmd with
    | .error _ => []
    | .ok i => usedRanges (useOf i) l.operands

/-- Some byte of `addr .. addr + n - 1` is in one of the ranges. -/
def touches (rs : List Range) (addr n : Nat) : Bool := (List.range n).any fun k => inRanges rs (addr + k)

/-- A host access of `n` bytes from `addr` is inside the memory (20_memory.md R60, R61). -/
def insideMemory (c : Config) (addr n : Nat) : Bool := n == 0 || addr + n ≤ c.memBytes

/-- One host operation, already taken off the list (60_exceptions.md R313). A POLL whose condition fails stays the host's next
operation (30_encoding.md R130; log 15). -/
def hostOperation (op : HostOp) (s : State) : Host.Outcome State Fault Refusal :=
  match op with
  | .writeReg addr width v =>
    match regOffset s.config addr width with
    | .error r => .refused r
    | .ok off => .next (writeOffset off v s)
  | .readReg addr width =>
    match regOffset s.config addr width with
    | .error r => .refused r
    | .ok off => .next { s with hostWord := readOffset s off }
  | .poll addr mask v =>
    match regOffset s.config addr 4 with
    | .error r => .refused r
    | .ok off =>
      if readOffset s off &&& mask = v then .next { s with hostWord := readOffset s off }
      else .next { s with hostWord := readOffset s off, host := .poll addr mask v :: s.host }
  | .writeMem addr bytes =>
    if !insideMemory s.config addr bytes.length then .fault .hostAddressOutsideMemory
    else if touches (busyRanges s) addr bytes.length then .refused .hostWritesBusyBuffer
    else .next { s with mem := s.mem.writeBytes addr bytes }
  | .readMem addr n =>
    if !insideMemory s.config addr n then .fault .hostAddressOutsideMemory
    else if touches (busyDestinations s) addr n then .refused .hostReadsBusyDestination
    else .next { s with hostBytes := s.mem.readBytes addr n }
  | .powerOn => .next (powerOnReset s)

/-- The host's turn: its next operation, or nothing if it has none. -/
def hostStep (s : State) : Host.Outcome State Fault Refusal :=
  match s.host with
  | [] => .next s
  | op :: rest => hostOperation op { s with host := rest }

end Sys2Proof.Machine
end

