-- ==== Sys2Proof/Machine/Engine.lean ====
section
/-! DEFINITION. A step of the engine: the completion of the running command (10_state.md R33, R35). -/

namespace Sys2Proof.Machine

/-- The engine's turn: the running command completes (10_state.md R35); an illegal one with IllegalCommand (30_encoding.md R93).
While IDLE the engine does nothing (60_exceptions.md R319). -/
def engineStep (s : State) : Host.Outcome State Fault Refusal :=
  match s.running with
  | none => .next s
  | some l =>
    match decodeCommand l.cmd with
    | .error _ => .next (completeIllegal s)
    | .ok i => exec i s

/-- The agent that moves next, and the state with its turn taken off the schedule (60_exceptions.md R313; log 1). -/
def nextTurn (s : State) : Agent × State :=
  match s.schedule with
  | a :: rest => (a, { s with schedule := rest })
  | [] => (if s.busy then .engine else .host, s)

/-- The turn of an agent. -/
def turnOf (a : Agent) (s : State) : Host.Outcome State Fault Refusal :=
  match a with
  | .engine => engineStep s
  | .host => hostStep s

/-- The state in which the next step completes the command the word `w` starts: `w` written to CMD of the idle block
(10_state.md R23, R34), and the engine's turn next (log 6). -/
def placeCommand (w : Word) (s : State) : State :=
  { writeCmd w { s with running := none } with schedule := .engine :: s.schedule }

end Sys2Proof.Machine
end

