-- ==== Sys2Proof/Machine/Step.lean ====
section
/-! DEFINITION. One step of the machine (60_exceptions.md R313): one host operation or one completion. -/

namespace Sys2Proof.Machine

/-- One step: the next agent takes its turn. -/
def step (s : State) : Host.Outcome State Fault Refusal := turnOf (nextTurn s).1 (nextTurn s).2

/-- The state whose next step runs the command of a row of opcode_table.json. The block fetches no instruction (10_state.md R33):
a command is a word the host writes to CMD, so this is that write on the idle block, and the engine's turn next (log 6). -/
def State.withFetchWord (s : State) (nbits w : Nat) : State := placeCommand (BitVec.ofNat 32 (w % 2 ^ nbits)) s

end Sys2Proof.Machine
end

