-- ==== Sys2Proof/Machine/HostProgram.lean ====
section
/-! DEFINITION. The host program syntax of 30_encoding.md R130 to R132: operations and pseudo-operations as lists of host operations,
and the launch state of MEM and MEM32 lines. -/

namespace Sys2Proof.Machine

/-- `WR REG, value`: the MMIO write at `BASE + offset(REG)` (30_encoding.md R130). -/
def opWrite (c : Config) (r : Reg) (v : Word) : HostOp := .writeReg (c.base + offsetOf r) 4 v

/-- `RD REG` (30_encoding.md R130). -/
def opRead (c : Config) (r : Reg) : HostOp := .readReg (c.base + offsetOf r) 4

/-- `POLL REG, mask, value` (30_encoding.md R130). -/
def opPoll (c : Config) (r : Reg) (mask v : Word) : HostOp := .poll (c.base + offsetOf r) mask v

/-- `GO <mnemonic>` (30_encoding.md R131). -/
def opGo (c : Config) (i : Instr) : HostOp := opWrite c .cmd (encode i)

/-- `WAIT`: BUSY = 0 and DONE = 1 (30_encoding.md R132). -/
def opWait (c : Config) : HostOp := opPoll c .status 3#32 2#32

/-- `ACK`: clear DONE (30_encoding.md R132). -/
def opAck (c : Config) : HostOp := opWrite c .status 2#32

/-- `RUN <mnemonic>` (30_encoding.md R132). -/
def progRun (c : Config) (i : Instr) : List HostOp := [opGo c i, opWait c]

/-- `SETBUF SRC, a, n` (30_encoding.md R132). -/
def progSetSrc (c : Config) (a n : Word) : List HostOp := [opWrite c .srcAddr a, opWrite c .srcLen n]

/-- `SETBUF DST, a, n` (30_encoding.md R132). -/
def progSetDst (c : Config) (a n : Word) : List HostOp := [opWrite c .dstAddr a, opWrite c .dstCap n]

/-- `SETBUF DST2, a, n` (30_encoding.md R132). -/
def progSetDst2 (c : Config) (a n : Word) : List HostOp := [opWrite c .dst2Addr a, opWrite c .dst2Cap n]

/-- `SETLZ w, b` (30_encoding.md R132). -/
def progSetLz (c : Config) (w b : Word) : List HostOp := [opWrite c .windowSize w, opWrite c .bufferSize b]

/-- `MEM addr: b0 b1 ...`: bytes in memory before the program starts (30_encoding.md R130). What a line does that reaches an address
at or beyond MEM_BYTES the spec does not say: the bytes are placed without a check. DESIGN CHOICE (log 19), unsafe. -/
def placeBytes (addr : Nat) (bytes : List Byte) (s : State) : State := { s with mem := s.mem.writeBytes addr bytes }

/-- `MEM32 addr: w0 w1 ...`: words in memory before the program starts (30_encoding.md R130), beyond MEM_BYTES too (log 19). -/
def placeWords (addr : Nat) (words : List Nat) (s : State) : State := placeBytes addr (wordsBytes words) s

/-- The host's program, still to run. -/
def withProgram (p : List HostOp) (s : State) : State := { s with host := p }

end Sys2Proof.Machine
end

