-- ==== Sys2Proof/Safety.lean ====
section
/-! DEFINITION. The terms claims use: what a step answers, the invariants of the machine, and the declarative forms of the data formats
that the commands' results are compared with. -/

namespace Sys2Proof.Machine

/-- The next state an outcome answers, if it answers one. -/
def nextOf : Host.Outcome State Fault Refusal → Option State
  | .next s => some s
  | .fault _ => none
  | .refused _ => none

/-- `k` steps from `s`, if none of them stops: a safe run. -/
def runSteps : Nat → State → Option State
  | 0, s => some s
  | k + 1, s =>
    match nextOf (step s) with
    | some t => runSteps k t
    | none => none

/-- The processing of each command at step 6 of 60_exceptions.md R305. -/
def bodyOf : Instr → Operands → Memory → Except Raise Results
  | .hufCompress => hufCompressBody
  | .hufDecompress => hufDecompressBody
  | .lzCompressBits => lzCompressBody { bits := true, text := false }
  | .lzCompressText => lzCompressBody { bits := false, text := true }
  | .lzCompressBitsText => lzCompressBody { bits := true, text := true }
  | .lzDecompressBits => lzDecompressBitsBody
  | .lzDecompressText => lzDecompressTextBody
  | .hufLengths => hufLengthsBody
  | .hufCanon => hufCanonBody

/-! ### Invariants -/

/-- The memory is in canonical form. -/
def State.canonical (s : State) : Bool := s.mem.wf

/-- Nothing is listed at or beyond MEM_BYTES (20_memory.md R60). -/
def State.insideMemory (s : State) : Bool := s.mem.below s.config.memBytes

/-- While BUSY, what was latched equals the registers (10_state.md R34). -/
def State.latchedFrozen (s : State) : Bool :=
  match s.running with
  | none => true
  | some l => l == { cmd := s.cmd, operands := s.operands }

/-- While BUSY, DONE, ERR_CODE, ERR_POS, DST_LEN, DST2_LEN and STAT_* are 0 (10_state.md R32, R34). -/
def State.busyClear (s : State) : Bool :=
  !s.busy ||
    (!s.done && s.errCode == 0#8 && s.errPos == 0#32 && s.dstLen == 0#32 && s.dst2Len == 0#32 && s.statOrig == 0#32 &&
      s.statComp == 0#32 && s.statCycles == 0#32)

/-- ERR_CODE is one of 0 to 12 (60_exceptions.md R301). -/
def State.legalErrCode (s : State) : Bool := s.errCode.toNat ≤ 12

/-! ### What a command may change -/

/-- The command `i` is running on `l` and passes its common checks (60_exceptions.md R305, steps 1 to 5). -/
abbrev Ready (i : Instr) (s : State) (l : Latched) : Prop :=
  s.running = some l ∧ commonChecks (useOf i) s.config l.operands = none

/-- CTRL, CMD, CMD_REJECTED, the operand registers, the parameters, and the host's side are the same in both states. -/
def SameOutside (s t : State) : Prop :=
  t.config = s.config ∧ t.irqEn = s.irqEn ∧ t.cmd = s.cmd ∧ t.rejected = s.rejected ∧ t.operands = s.operands ∧
    t.host = s.host ∧ t.schedule = s.schedule ∧ t.hostWord = s.hostWord ∧ t.hostBytes = s.hostBytes

/-- IDLE with DONE set and no error: what a successful completion leaves (10_state.md R35). -/
def Succeeded (t : State) : Prop := t.running = none ∧ t.done = true ∧ t.errCode = 0#8 ∧ t.errPos = 0#32

/-- IDLE with DONE set, the error `e` at `pos`, and the results 0: what a completion in error leaves (10_state.md R35,
60_exceptions.md R307). -/
def FailedWith (e : Err) (pos : Nat) (t : State) : Prop :=
  t.running = none ∧ t.done = true ∧ t.errCode = errCodeOf e ∧ t.errPos = BitVec.ofNat 32 pos ∧ t.dstLen = 0#32 ∧
    t.dst2Len = 0#32 ∧ t.statOrig = 0#32 ∧ t.statComp = 0#32

/-- Every byte outside the `n` bytes from `a` up reads the same in both memories. -/
def SameMemoryOutside (m m' : Memory) (a n : Nat) : Prop := ∀ b, b < a ∨ a + n ≤ b → m'.read b = m.read b

/-! ### The common checks, declaratively -/

/-- The LZ77 commands, opcodes 0x03, 0x04 and 0x05 (60_exceptions.md R302). -/
def lzCommands : List Instr :=
  [.lzCompressBits, .lzCompressText, .lzCompressBitsText, .lzDecompressBits, .lzDecompressText]

/-- The commands that use destination 1 (20_memory.md R65). -/
def dstCommands : List Instr :=
  [.hufCompress, .hufDecompress, .lzCompressBits, .lzCompressBitsText, .lzDecompressBits, .lzDecompressText, .hufLengths,
    .hufCanon]

/-- The commands that use destination 2 (20_memory.md R65). -/
def dst2Commands : List Instr := [.lzCompressText, .lzCompressBitsText]

/-- WINDOW_SIZE or BUFFER_SIZE is outside its legal range for an LZ77 command (60_exceptions.md R302). -/
def BadParameters (i : Instr) (c : Config) (o : Operands) : Prop :=
  i ∈ lzCommands ∧
    (o.windowSize.toNat = 0 ∨ c.wMax < o.windowSize.toNat ∨ o.bufferSize.toNat = 0 ∨ c.bMax < o.bufferSize.toNat)

/-- A used buffer breaks the alignment rule (20_memory.md R65, R66; 60_exceptions.md R303). -/
def Misaligned (i : Instr) (o : Operands) : Prop :=
  (i ∈ ([.hufCompress, .lzCompressBits, .lzCompressText, .lzCompressBitsText, .lzDecompressText] : List Instr) ∧
    (o.srcAddr.toNat % 4 ≠ 0 ∨ o.srcLen.toNat % 4 ≠ 0)) ∨
  (i ∈ ([.hufLengths, .hufCanon] : List Instr) ∧ (o.srcAddr.toNat % 4 ≠ 0 ∨ o.srcLen.toNat % 8 ≠ 0)) ∨
  (i ∈ ([.hufDecompress, .lzDecompressBits, .lzDecompressText, .hufLengths, .hufCanon] : List Instr) ∧
    o.dstAddr.toNat % 4 ≠ 0) ∨
  (i ∈ dst2Commands ∧ o.dst2Addr.toNat % 4 ≠ 0)

/-- A used, non-empty range extends past MEM_BYTES (20_memory.md R61; 60_exceptions.md R304). -/
def PastMemory (i : Instr) (c : Config) (o : Operands) : Prop :=
  (0 < o.srcLen.toNat ∧ c.memBytes < o.srcAddr.toNat + o.srcLen.toNat) ∨
  (i ∈ dstCommands ∧ 0 < o.dstCap.toNat ∧ c.memBytes < o.dstAddr.toNat + o.dstCap.toNat) ∨
  (i ∈ dst2Commands ∧ 0 < o.dst2Cap.toNat ∧ c.memBytes < o.dst2Addr.toNat + o.dst2Cap.toNat)

/-- The address is a byte of the `n` bytes from `b` up (20_memory.md R61). -/
def InBytes (a b n : Nat) : Prop := b ≤ a ∧ a < b + n

/-- Two used ranges share a byte (20_memory.md R68; 60_exceptions.md R304). -/
def ShareAByte (i : Instr) (o : Operands) : Prop :=
  ∃ a,
    (i ∈ dstCommands ∧ InBytes a o.srcAddr.toNat o.srcLen.toNat ∧ InBytes a o.dstAddr.toNat o.dstCap.toNat) ∨
    (i ∈ dst2Commands ∧ InBytes a o.srcAddr.toNat o.srcLen.toNat ∧ InBytes a o.dst2Addr.toNat o.dst2Cap.toNat) ∨
    (i ∈ dstCommands ∧ i ∈ dst2Commands ∧ InBytes a o.dstAddr.toNat o.dstCap.toNat ∧
      InBytes a o.dst2Addr.toNat o.dst2Cap.toNat)

/-! ### Declarative forms of the formats -/

/-- A sequence of fields `(value, width)` as bits, each most significant first (00_scope.md R14). -/
def fieldBits (fs : List (Nat × Nat)) : List Bool := fs.flatMap fun f => bitsOf f.2 f.1

/-- The writer after `put(v, L)` of each field `(v, L)` in order (40_bitio.md R142). -/
def putFields (fs : List (Nat × Nat)) : List Bool := fs.foldl (fun w f => put w f.1 f.2) []

/-- The values `get(L)` returns for the widths in order, and the reader after them (40_bitio.md R147). -/
def getFields : List Nat → List Bool → List Nat × List Bool
  | [], r => ([], r)
  | L :: Ls, r =>
    match get r L with
    | (v, r') =>
      match getFields Ls r' with
      | (vs, r'') => (v :: vs, r'')

/-- The entries of a container's table: a 16-bit symbol and a 5-bit length each (30_encoding.md R103). -/
def tableBits (entries : List (Nat × Nat)) : List Bool := entries.flatMap fun p => bitsOf 16 p.1 ++ bitsOf 5 p.2

/-- The code bits of a text (30_encoding.md R106). -/
def textBits (T : List CodeEntry) (t : List Nat) : List Bool :=
  t.flatMap fun s => match entryOf T s with | some e => e.bits | none => []

/-- The fields of a Huffman container, padding aside (30_encoding.md R103), with its entries in the order given. -/
def containerFields (entries : List (Nat × Nat)) (t : List Nat) : List Bool :=
  bitsOf 16 entries.length ++ tableBits entries ++ bitsOf 32 (textBits (canon entries) t).length ++
    textBits (canon entries) t

/-- Zero bits to the next byte boundary (40_bitio.md R143). -/
def padding (w : List Bool) : List Bool := List.replicate (8 * nbytes w - w.length) false

/-- A map's keys are distinct. -/
abbrev DistinctKeys (F : List (Nat × Nat)) : Prop := (F.map Prod.fst).Nodup

/-- The Kraft sum of a length table: the sum of `2^(-len)` (41_huffman_tree.md R168). -/
def kraftSum (len : List (Nat × Nat)) : ℚ := (len.map fun p => (1 / 2 : ℚ) ^ p.2).sum

/-- The bits of one triple (30_encoding.md R110, R112, R113). -/
def tripleBits (w b : Nat) (t : Triple) : List Bool :=
  bitsOf 1 (if 0 < t.len then 1 else 0) ++ bitsOf (clog2 w) (t.off % 2 ^ clog2 w) ++ bitsOf (clog2 (b + 1)) t.len ++
    (match t.chr with | some c => bitsOf 8 c | none => [])

/-- The LZ77 bitstream of a triple sequence, padding aside (30_encoding.md R114). -/
def streamBits (w b : Nat) (ts : List Triple) : List Bool := ts.flatMap (tripleBits w b)

/-- The text form of a triple sequence: the tokens joined by single spaces (30_encoding.md R120). -/
def tripleText (ts : List Triple) : List Nat := [0x20].intercalate (ts.map token)

/-- The replay of a triple sequence (45_lz77_codec.md R265). -/
def replayAll (ts : List Triple) : List Nat := ts.foldl (fun out t => replay out t.off t.len t.chr) []

/-- A triple sequence that a bitstream can carry (45_lz77_codec.md R274, 30_encoding.md R113), after the output `out`: offset and
length are zero together, within `w` and `b` and the output so far; a character is at most 0xFF, and only the last triple has
none. -/
def StreamFits (w b : Nat) : List Nat → List Triple → Prop
  | _, [] => True
  | out, t :: ts =>
    (t.off = 0 ↔ t.len = 0) ∧ t.off ≤ w ∧ t.len ≤ b ∧ t.off ≤ out.length ∧ (∀ c, t.chr = some c → c ≤ 0xFF) ∧
      (t.chr = none → ts = []) ∧ StreamFits w b (replay out t.off t.len t.chr) ts

/-- A triple sequence that the text form can carry (45_lz77_codec.md R281, R282, 30_encoding.md R122), after the output `out`. -/
def TokensFit : List Nat → List Triple → Prop
  | _, [] => True
  | out, t :: ts =>
    (t.off = 0 ↔ t.len = 0) ∧ t.off ≤ 0xFFFFFFFF ∧ t.len ≤ 0xFFFFFFFF ∧ t.off ≤ out.length ∧
      TokensFit (replay out t.off t.len t.chr) ts

/-- The number a run of digit symbols denotes, the first symbol the most significant digit (30_encoding.md R121, R122). -/
def decValue (ds : List Nat) : Nat := Nat.ofDigits 10 ((ds.map fun d => d - 0x30).reverse)

/-- One or more digit symbols (30_encoding.md R121, R122). -/
def Digits (ds : List Nat) : Prop := ds ≠ [] ∧ ∀ d ∈ ds, 0x30 ≤ d ∧ d ≤ 0x39

/-- The text begins with a digit. -/
def DigitNext (r : List Nat) : Prop := ∃ d, r.head? = some d ∧ 0x30 ≤ d ∧ d ≤ 0x39

/-- The symbols are a `num` of value `v` (30_encoding.md R122): leading zeros are accepted. -/
def IsNum (ds : List Nat) (v : Nat) : Prop := Digits ds ∧ decValue ds = v ∧ v ≤ 0xFFFFFFFF

/-- The symbols are a `token` of the triple (30_encoding.md R122). -/
def IsToken (tok : List Nat) (t : Triple) : Prop :=
  ∃ o l, IsNum o t.off ∧ IsNum l t.len ∧ tok = [0x28] ++ o ++ [0x2C] ++ l ++ [0x2C] ++ t.chr.toList ++ [0x29]

/-- The text is tokens of the triples, joined by single spaces (30_encoding.md R122). -/
def TextOf (s : List Nat) (ts : List Triple) : Prop :=
  ∃ toks, List.Forall₂ IsToken toks ts ∧ s = [0x20].intercalate toks

/-- The text is tokens of the triples, each with a space after it: what stands before the token of index `|ts|`. -/
def TextBefore (s : List Nat) (ts : List Triple) : Prop :=
  ∃ toks, List.Forall₂ IsToken toks ts ∧ s = toks.flatMap fun tok => tok ++ [0x20]

/-- The text does not begin with a `num` and a comma (30_encoding.md R123): it has no digit first, or its digits denote more than
0xFFFFFFFF, or no comma follows them. -/
def BadNum (r : List Nat) : Prop :=
  ¬DigitNext r ∨
    ∃ ds r', Digits ds ∧ r = ds ++ r' ∧ ¬DigitNext r' ∧ (0xFFFFFFFF < decValue ds ∨ r'.head? ≠ some 0x2C)

/-- The text does not begin with a token (30_encoding.md R123): no opening parenthesis, a bad offset, a bad length, or a bad tail. -/
def BadToken (r : List Nat) : Prop :=
  r.head? ≠ some 0x28 ∨
  (∃ r', r = [0x28] ++ r' ∧ BadNum r') ∨
  (∃ o v r', IsNum o v ∧ r = [0x28] ++ o ++ [0x2C] ++ r' ∧ BadNum r') ∨
  (∃ o v l u r', IsNum o v ∧ IsNum l u ∧ r = [0x28] ++ o ++ [0x2C] ++ l ++ [0x2C] ++ r' ∧ r'[0]? ≠ some 0x29 ∧
    r'[1]? ≠ some 0x29)

/-- The last triple of a text's sequence has character U+0000 (45_lz77_codec.md R291). -/
def endsWithNul (ts : List Triple) : Bool :=
  match ts.getLast? with
  | some t => t.chr == some 0
  | none => false

end Sys2Proof.Machine
end

