-- ==== Sys2Proof/Certificates/Slice0/Obligations.lean ====
section
/-! DEFINITION. The statements for the provers. A name of the spec's rule stands in each docstring. -/

open Sys2Proof Sys2Proof.Machine

/-! ### Encoding -/

/-- 30_encoding.md R131: the nine command words, `GO` as a register write, and what each word decodes to. -/
def Obligations.CommandWordsOfTheSpec : Prop :=
  encode .hufCompress = 0x80000001#32 ∧ encode .hufDecompress = 0x80000002#32 ∧
  encode .lzCompressBits = 0x80000103#32 ∧ encode .lzCompressText = 0x80000203#32 ∧
  encode .lzCompressBitsText = 0x80000303#32 ∧ encode .lzDecompressBits = 0x80000004#32 ∧
  encode .lzDecompressText = 0x80000005#32 ∧ encode .hufLengths = 0x80000006#32 ∧ encode .hufCanon = 0x80000007#32 ∧
  decodeWord 0x80000303#32 = .ok .lzCompressBitsText ∧ decodeWord 0x80000007#32 = .ok .hufCanon ∧
  ∀ (c : Config) (i : Instr),
    opGo c i =
      .writeReg (c.base + 0x08) 4 (0x80000000#32 ||| ((flagsOf i).zeroExtend 32 <<< 8) ||| (opcodeOf i).zeroExtend 32)

/-- 30_encoding.md R90 to R92, R94: the decoder reads a command from exactly its word, as a word, as bytes, and as a row of the
table. -/
def Obligations.DecodeMeansEncode : Prop :=
  ∀ (w : Word) (i : Instr),
    (decodeWord w = .ok i ↔ w = encode i) ∧ (decode (wordBytes w) = .ok i ↔ w = encode i) ∧
      (decodeTableWord 32 w.toNat = some i ↔ w = encode i)

/-- 30_encoding.md R93, R94: an illegal GO word is accepted and completes with IllegalCommand, reading and writing no memory;
every other GO word runs its command. -/
def Obligations.IllegalWordCompletesIllegalCommand : Prop :=
  ∀ (s : State) (w : Word), s.running = none → w.getLsbD 31 = true →
    (writeReg .cmd w s).busy = true ∧
    (¬(w.extractLsb' 10 21 = 0#21 ∧ 1 ≤ (w.extractLsb' 0 8).toNat ∧ (w.extractLsb' 0 8).toNat ≤ 7 ∧
        (w.extractLsb' 8 2 ≠ 0#2 ↔ w.extractLsb' 0 8 = 3#8)) →
      ∃ t, engineStep (writeReg .cmd w s) = .next t ∧ FailedWith .illegalCommand 0 t ∧ t.mem = s.mem ∧
        SameOutside (writeReg .cmd w s) t ∧
        ∀ m, engineStep { writeReg .cmd w s with mem := m } = .next { t with mem := m }) ∧
    (w.extractLsb' 10 21 = 0#21 ∧ 1 ≤ (w.extractLsb' 0 8).toNat ∧ (w.extractLsb' 0 8).toNat ≤ 7 ∧
        (w.extractLsb' 8 2 ≠ 0#2 ↔ w.extractLsb' 0 8 = 3#8) →
      ∃ i, w = encode i ∧ engineStep (writeReg .cmd w s) = exec i (writeReg .cmd w s))

/-! ### Registers and the command state machine -/

/-- 10_state.md R39: the reset value of every register, after each reset; reset does not change memory. -/
def Obligations.ResetValuesOfEveryRegister : Prop :=
  (∀ (s t : State) (c : Config), t = softReset s ∨ t = powerOnReset s ∨ t = State.resetOn c →
    (∀ r, readReg t r = if r = .id then 0x485A0701#32 else 0#32) ∧ t.irq = false ∧ t.running = none) ∧
  (∀ s : State, (powerOnReset s).mem = s.mem ∧ (s.running = none → (softReset s).mem = s.mem))

/-- 70_reset_and_hazards.md R341: a CTRL write with bit 1 set abandons the running command, resets every register, and changes
memory only in the destination ranges of a command that passed its common checks. -/
def Obligations.SoftResetAbandonsTheCommand : Prop :=
  ∀ (s : State) (v : Word), v.getLsbD 1 = true →
    (writeReg .ctrl v s).running = none ∧
    (∀ r, readReg (writeReg .ctrl v s) r = if r = .id then 0x485A0701#32 else 0#32) ∧
    (writeReg .ctrl v s).irq = false ∧
    ∀ a, (writeReg .ctrl v s).mem.read a = s.mem.read a ∨
      ∃ l i, decodeCommand l.cmd = .ok i ∧ Ready i s l ∧ inRanges (dstRanges (useOf i) l.operands) a = true

/-- 10_state.md R23, R34: an accepted GO stores CMD[30:0], latches the operands, raises BUSY and clears the results; a CMD write
with GO = 0 only stores; bit 31 reads 0; the command then runs on what was latched. -/
def Obligations.GoAcceptance : Prop :=
  (∀ (s : State) (v : Word), s.running = none →
    readReg (writeReg .cmd v s) .cmd = v &&& 0x7FFFFFFF#32 ∧
    (v.getLsbD 31 = false → writeReg .cmd v s = { s with cmd := v.extractLsb' 0 31 }) ∧
    (v.getLsbD 31 = true →
      writeReg .cmd v s =
        { s with
          cmd := v.extractLsb' 0 31, running := some { cmd := v.extractLsb' 0 31, operands := s.operands },
          done := false, errCode := 0#8, errPos := 0#32, dstLen := 0#32, dst2Len := 0#32, statOrig := 0#32,
          statComp := 0#32, statCycles := 0#32 })) ∧
  (∀ (i : Instr) (s : State) (o : Operands), s.running ≠ none →
    ∃ t, exec i s = .next t ∧ exec i { s with operands := o } = .next { t with operands := o })

/-- 10_state.md R24: the bits of STATUS, the write-1-to-clear bits, and what raises and clears each. -/
def Obligations.StatusRegister : Prop :=
  (∀ (s : State) (k : Nat), k < 32 →
    (readReg s .status).getLsbD k =
      if k = 0 then s.running.isSome else if k = 1 then s.done else if k = 2 then decide (s.errCode ≠ 0#8)
      else if k = 3 then s.rejected else if 8 ≤ k ∧ k < 16 then s.errCode.getLsbD (k - 8) else false) ∧
  (∀ (s : State) (v : Word),
    writeReg .status v s =
      { s with done := s.done && !v.getLsbD 1, rejected := s.rejected && !v.getLsbD 3 }) ∧
  (∀ (s : State) (v : Word), v.getLsbD 31 = true →
    (s.running = none →
      (writeReg .cmd v s).running.isSome = true ∧ (writeReg .cmd v s).done = false ∧
        (writeReg .cmd v s).errCode = 0#8 ∧ (writeReg .cmd v s).rejected = s.rejected) ∧
    (s.running ≠ none → (writeReg .cmd v s).rejected = true ∧ (writeReg .cmd v s).running = s.running)) ∧
  (∀ (i : Instr) (s t : State), exec i s = .next t → t.running = none ∧ t.done = true)

/-- 10_state.md R32: what a host write does while BUSY, and that every read is allowed and the results read 0. The premise
`busyClear` is the invariant `StepKeepsBusyResultsClear` states. -/
def Obligations.WritesWhileBusyAreIgnored : Prop :=
  ∀ (s : State) (v : Word), s.busy = true →
    (∀ r ∈ ([.srcAddr, .srcLen, .dstAddr, .dstCap, .dst2Addr, .dst2Cap, .windowSize, .bufferSize] : List Reg),
      writeReg r v s = s) ∧
    writeReg .cmd v s = (if v.getLsbD 31 then { s with rejected := true } else s) ∧
    (v.getLsbD 1 = false → writeReg .ctrl v s = { s with irqEn := v.getLsbD 0 }) ∧
    (v.getLsbD 1 = true → (writeReg .ctrl v s).busy = false) ∧
    writeReg .status v s = { s with done := s.done && !v.getLsbD 1, rejected := s.rejected && !v.getLsbD 3 } ∧
    (∀ r, hostOperation (opRead s.config r) s = .next { s with hostWord := readReg s r }) ∧
    (s.busyClear = true →
      (∀ r ∈ ([.dstLen, .dst2Len, .errPos, .statOrig, .statComp, .statCycles] : List Reg), readReg s r = 0#32) ∧
        (readReg s .status).extractLsb' 8 8 = 0#8)

/-- 10_state.md R26 to R29: while IDLE an operand register reads back what was written, and nothing else changes. -/
def Obligations.OperandRegistersReadBack : Prop :=
  ∀ (s : State) (v : Word) (r : Reg), s.running = none →
    r ∈ ([.srcAddr, .srcLen, .dstAddr, .dstCap, .dst2Addr, .dst2Cap, .windowSize, .bufferSize] : List Reg) →
    readReg (writeReg r v s) r = v ∧ (∀ r', r' ≠ r → readReg (writeReg r v s) r' = readReg s r') ∧
      (writeReg r v s).mem = s.mem ∧ (writeReg r v s).running = none

/-- 10_state.md R31: reserved offsets and reserved bits read 0 and ignore writes; CMD stores its reserved bits, which make a
GO fail. -/
def Obligations.ReservedReadsZero : Prop :=
  (∀ (s : State) (v : Word) (off : Nat), 0x48 ≤ off → readOffset s off = 0#32 ∧ writeOffset off v s = s) ∧
  (∀ s : State, readReg s .ctrl &&& 0xFFFFFFFE#32 = 0#32 ∧ readReg s .status &&& 0xFFFF00F0#32 = 0#32) ∧
  (∀ (s : State) (v w : Word), v &&& 3#32 = w &&& 3#32 → writeReg .ctrl v s = writeReg .ctrl w s) ∧
  (∀ (s : State) (v w : Word), v &&& 10#32 = w &&& 10#32 → writeReg .status v s = writeReg .status w s) ∧
  (∀ (s : State) (v : Word), s.running = none →
    (readReg (writeReg .cmd v s) .cmd).extractLsb' 10 21 = v.extractLsb' 10 21) ∧
  (∀ v : Word, v.getLsbD 31 = true → v.extractLsb' 10 21 ≠ 0#21 → decodeWord v = .error .reservedBits)

/-- 10_state.md R20: the register map, the 32-bit aligned accesses that reach it, the registers the host cannot write, the
refusal of every other access in the window, and the byte order. -/
def Obligations.RegisterWindow : Prop :=
  ([.id, .ctrl, .cmd, .status, .errPos, .srcAddr, .srcLen, .dstAddr, .dstCap, .dstLen, .dst2Addr, .dst2Cap, .dst2Len,
      .windowSize, .bufferSize, .statOrig, .statComp, .statCycles] : List Reg).map offsetOf =
    [0x00, 0x04, 0x08, 0x0C, 0x10, 0x14, 0x18, 0x1C, 0x20, 0x24, 0x28, 0x2C, 0x30, 0x34, 0x38, 0x3C, 0x40, 0x44] ∧
  (∀ (s : State) (r : Reg) (v : Word),
    hostOperation (.readReg (s.config.base + offsetOf r) 4) s = .next { s with hostWord := readReg s r } ∧
      hostOperation (.writeReg (s.config.base + offsetOf r) 4 v) s = .next (writeReg r v s)) ∧
  (∀ (s : State) (v : Word),
    ∀ r ∈ ([.id, .errPos, .dstLen, .dst2Len, .statOrig, .statComp, .statCycles] : List Reg), writeReg r v s = s) ∧
  (∀ (s : State) (off : Nat), 0x48 ≤ off → off ≤ 0xFC → off % 4 = 0 →
    hostOperation (.readReg (s.config.base + off) 4) s = .next { s with hostWord := 0#32 }) ∧
  (∀ (s : State) (addr width : Nat) (v : Word), s.config.base ≤ addr → addr < s.config.base + 256 →
    width ≠ 4 ∨ (addr - s.config.base) % 4 ≠ 0 →
    ∃ e ∈ ([.registerAccessWidth, .registerAccessMisaligned] : List Refusal),
      hostOperation (.readReg addr width) s = .refused e ∧ hostOperation (.writeReg addr width v) s = .refused e) ∧
  (∀ (w : Word) (k : Nat), k < 4 → (wordBytes w)[k]? = some (w.extractLsb' (8 * k) 8))

/-- 60_exceptions.md R312: the interrupt line, what raises it, and each way it is cleared. -/
def Obligations.InterruptLine : Prop :=
  (∀ s : State, s.irq = (s.irqEn && s.done)) ∧
  (∀ (s : State) (n : Nat), s.irqOnLine n = true ↔ n = s.config.irqLine ∧ s.irq = true) ∧
  (∀ (i : Instr) (s t : State), exec i s = .next t → t.irq = s.irqEn) ∧
  (∀ s t : State, step s = .next t → s.done = false → t.done = true → s.busy = true ∧ t.busy = false) ∧
  (∀ (s : State) (v : Word),
    (v.getLsbD 1 = true → (writeReg .status v s).irq = false ∧ (writeReg .ctrl v s).irq = false) ∧
    (v.getLsbD 0 = false → v.getLsbD 1 = false →
      (writeReg .ctrl v s).irq = false ∧ (writeReg .ctrl v s).done = s.done) ∧
    (s.running = none → v.getLsbD 31 = true → (writeReg .cmd v s).irq = false)) ∧
  (∀ s : State, (powerOnReset s).irq = false)

/-- 10_state.md R33: IDLE goes BUSY only by a host turn that writes a GO to CMD; BUSY goes IDLE only by an engine turn, a
completion, which sets DONE, or by a host turn that writes CTRL with SOFT_RESET set or powers the block on, which leaves every
register at its reset value (70_reset_and_hazards.md R340, R341); reset enters IDLE. That a step is one agent's turn, the one the
schedule names, is the model's choice (log 1). -/
def Obligations.CommandStateMachine : Prop :=
  (∀ s t : State, step s = .next t →
    (s.busy = false → t.busy = true →
      s.schedule.head? ≠ some .engine ∧
        ∃ v rest, s.host = .writeReg (s.config.base + 0x08) 4 v :: rest ∧ v.getLsbD 31 = true) ∧
    (s.busy = true → t.busy = false →
      (s.schedule.head? ≠ some .host ∧ (∃ sch, engineStep { s with schedule := sch } = .next t) ∧ t.done = true) ∨
      (s.schedule.head? = some .host ∧
        (∃ rest, s.host = .powerOn :: rest ∨
          ∃ v, s.host = .writeReg (s.config.base + 0x04) 4 v :: rest ∧ v.getLsbD 1 = true) ∧
        ∀ r, readReg t r = if r = .id then 0x485A0701#32 else 0#32))) ∧
  (∀ s : State, (softReset s).busy = false ∧ (powerOnReset s).busy = false)

/-! ### Completion, for every command -/

/-- 10_state.md R35, 60_exceptions.md R308: every running command completes in one step, with success or an error of R301, and
changes no register outside its results. -/
def Obligations.EveryCommandCompletes : Prop :=
  ∀ (i : Instr) (s : State), s.running ≠ none →
    ∃ t, exec i s = .next t ∧ SameOutside s t ∧
      (Succeeded t ∨ ∃ e pos, e ≠ .illegalCommand ∧ FailedWith e pos t)

/-- 60_exceptions.md R307: the state after an error and after a success, with its frame on memory. -/
def Obligations.StateAfterACommand : Prop :=
  ∀ (i : Instr) (s t : State) (l : Latched), s.running = some l → exec i s = .next t →
    (∃ n, t.statCycles = Config.freeCycles n) ∧
    (t.errCode ≠ 0#8 →
      t.dstLen = 0#32 ∧ t.dst2Len = 0#32 ∧ t.statOrig = 0#32 ∧ t.statComp = 0#32 ∧
        ∀ a, inRanges (dstRanges (useOf i) l.operands) a = false → t.mem.read a = s.mem.read a) ∧
    (commonChecks (useOf i) s.config l.operands ≠ none → t.errCode ≠ 0#8 ∧ t.mem = s.mem) ∧
    (t.errCode = 0#8 →
      ∀ a, ¬InBytes a l.operands.dstAddr.toNat t.dstLen.toNat → ¬InBytes a l.operands.dst2Addr.toNat t.dst2Len.toNat →
        t.mem.read a = s.mem.read a)

/-- 20_memory.md R67: a success never reports more bytes than the capacity, and no outcome writes a byte outside a used
destination's capacity. -/
def Obligations.OutputStaysInCapacity : Prop :=
  ∀ (i : Instr) (s t : State) (l : Latched), s.running = some l → exec i s = .next t →
    t.dstLen.toNat ≤ l.operands.dstCap.toNat ∧ t.dst2Len.toNat ≤ l.operands.dst2Cap.toNat ∧
      ∀ a, ¬(i ∈ dstCommands ∧ InBytes a l.operands.dstAddr.toNat l.operands.dstCap.toNat) →
        ¬(i ∈ dst2Commands ∧ InBytes a l.operands.dst2Addr.toNat l.operands.dst2Cap.toNat) →
        t.mem.read a = s.mem.read a

/-- 10_state.md R35, 20_memory.md R69: the result is a function of the latched operands and the source bytes alone. STAT_CYCLES is
among the registers compared: that the two runs, which make the same draw, read the same value there is the model's choice
(log 2), since 70_reset_and_hazards.md R361 leaves it unspecified. -/
def Obligations.ResultDependsOnSourceOnly : Prop :=
  ∀ (i : Instr) (s : State) (l : Latched) (m : Memory), s.running = some l →
    (∀ a, InBytes a l.operands.srcAddr.toNat l.operands.srcLen.toNat → m.read a = s.mem.read a) →
    ∃ t u, exec i s = .next t ∧ exec i { s with mem := m } = .next u ∧ (∀ r, readReg u r = readReg t r) ∧
      (t.errCode = 0#8 →
        u.mem.readBytes l.operands.dstAddr.toNat t.dstLen.toNat =
            t.mem.readBytes l.operands.dstAddr.toNat t.dstLen.toNat ∧
          u.mem.readBytes l.operands.dst2Addr.toNat t.dst2Len.toNat =
            t.mem.readBytes l.operands.dst2Addr.toNat t.dst2Len.toNat)

/-- 60_exceptions.md R302 to R304, in the order of R305 steps 2 to 5: BadParameter, AlignmentError, AddressRange and
BufferOverlap, each when its rule says and no earlier step has ended the command, with memory unchanged; with none of them the command is past its checks; and a command other than the LZ77
ones ignores WINDOW_SIZE and BUFFER_SIZE. -/
def Obligations.CommonChecksInOrder : Prop :=
  (∀ (i : Instr) (s : State) (l : Latched), s.running = some l →
    (BadParameters i s.config l.operands →
      ∃ t, exec i s = .next t ∧ FailedWith .badParameter 0 t ∧ t.mem = s.mem) ∧
    (¬BadParameters i s.config l.operands → Misaligned i l.operands →
      ∃ t, exec i s = .next t ∧ FailedWith .alignmentError 0 t ∧ t.mem = s.mem) ∧
    (¬BadParameters i s.config l.operands → ¬Misaligned i l.operands → PastMemory i s.config l.operands →
      ∃ t, exec i s = .next t ∧ FailedWith .addressRange 0 t ∧ t.mem = s.mem) ∧
    (¬BadParameters i s.config l.operands → ¬Misaligned i l.operands → ¬PastMemory i s.config l.operands →
      ShareAByte i l.operands → ∃ t, exec i s = .next t ∧ FailedWith .bufferOverlap 0 t ∧ t.mem = s.mem) ∧
    (¬BadParameters i s.config l.operands → ¬Misaligned i l.operands → ¬PastMemory i s.config l.operands →
      ¬ShareAByte i l.operands → Ready i s l)) ∧
  (∀ (i : Instr) (s : State) (l : Latched) (w b : Word), i ∉ lzCommands →
    exec i { s with running := some { l with operands := { l.operands with windowSize := w, bufferSize := b } } } =
      exec i { s with running := some l })

/-- 60_exceptions.md R320: STAT_ORIG and STAT_COMP after each command. -/
def Obligations.StatisticsOfEveryCommand : Prop :=
  ∀ (i : Instr) (s t : State) (l : Latched), s.running = some l → exec i s = .next t →
    (t.errCode ≠ 0#8 → t.statOrig = 0#32 ∧ t.statComp = 0#32) ∧
    (t.errCode = 0#8 →
      match i with
      | .hufCompress =>
        t.statOrig.toNat = utf8size (s.mem.readWords l.operands.srcAddr.toNat (l.operands.srcLen.toNat / 4)) ∧
          t.statComp = t.dstLen
      | .hufDecompress =>
        t.statOrig.toNat = utf8size (t.mem.readWords l.operands.dstAddr.toNat (t.dstLen.toNat / 4)) ∧
          t.statComp = l.operands.srcLen
      | .lzCompressBits =>
        t.statOrig.toNat = utf8size (s.mem.readWords l.operands.srcAddr.toNat (l.operands.srcLen.toNat / 4)) ∧
          t.statComp = t.dstLen
      | .lzCompressText =>
        t.statOrig.toNat = utf8size (s.mem.readWords l.operands.srcAddr.toNat (l.operands.srcLen.toNat / 4)) ∧
          t.statComp.toNat = utf8size (t.mem.readWords l.operands.dst2Addr.toNat (t.dst2Len.toNat / 4))
      | .lzCompressBitsText =>
        t.statOrig.toNat = utf8size (s.mem.readWords l.operands.srcAddr.toNat (l.operands.srcLen.toNat / 4)) ∧
          t.statComp = t.dstLen
      | .lzDecompressBits =>
        t.statOrig.toNat = utf8size (t.mem.readWords l.operands.dstAddr.toNat (t.dstLen.toNat / 4)) ∧
          t.statComp = l.operands.srcLen
      | .lzDecompressText =>
        t.statOrig.toNat = utf8size (t.mem.readWords l.operands.dstAddr.toNat (t.dstLen.toNat / 4)) ∧
          t.statComp.toNat = utf8size (s.mem.readWords l.operands.srcAddr.toNat (l.operands.srcLen.toNat / 4))
      | .hufLengths => t.statOrig = 0#32 ∧ t.statComp = 0#32
      | .hufCanon => t.statOrig = 0#32 ∧ t.statComp = 0#32)

/-! ### The result of each command -/

/-- 43_huffman_codec.md R200, R202 to R205, R216: HUF_COMPRESS on a text it can encode writes the container of 30_encoding.md R103,
of exactly its size; on the empty text it writes nothing; and a text beyond a limit of the format ends it, before any
capacity is looked at, with FormatLimit for 65536 distinct symbols, else CodeLengthOverflow for a code longer than 31 bits
(42_huffman_canonical.md R183), else FormatLimit for more than `2^32 - 1` code bits. -/
def Obligations.HufCompressResult : Prop :=
  ∀ (s : State) (l : Latched) (t : List Nat) (E : List (Nat × Nat)), Ready .hufCompress s l →
    t = s.mem.readWords l.operands.srcAddr.toNat (l.operands.srcLen.toNat / 4) →
    E = canonSort (treeLengths (frequencies t)) →
    (t = [] →
      ∃ u, exec .hufCompress s = .next u ∧ Succeeded u ∧ SameOutside s u ∧ u.dstLen = 0#32 ∧ u.dst2Len = 0#32 ∧
        u.mem = s.mem ∧ u.statOrig = 0#32 ∧ u.statComp = 0#32) ∧
    (t ≠ [] → (∀ c ∈ t, c ≤ 0xFFFF) → t.dedup.length ≤ 65535 → (∀ p ∈ E, p.2 ≤ 31) →
      (textBits (canon E) t).length ≤ 0xFFFFFFFF → nbytes (containerFields E t) ≤ l.operands.dstCap.toNat →
      ∃ u, exec .hufCompress s = .next u ∧ Succeeded u ∧ SameOutside s u ∧
        u.dstLen.toNat = nbytes (containerFields E t) ∧
        u.dstLen.toNat = ceilDiv (48 + 21 * t.dedup.length + (textBits (canon E) t).length) 8 ∧ u.dst2Len = 0#32 ∧
        readerOn (u.mem.readBytes l.operands.dstAddr.toNat (nbytes (containerFields E t))) =
          containerFields E t ++ padding (containerFields E t) ∧
        SameMemoryOutside s.mem u.mem l.operands.dstAddr.toNat (nbytes (containerFields E t)) ∧
        u.statOrig.toNat = utf8size t ∧ u.statComp = u.dstLen) ∧
    (t ≠ [] → (∀ c ∈ t, c ≤ 0xFFFF) →
      (65535 < t.dedup.length → ∃ u, exec .hufCompress s = .next u ∧ FailedWith .formatLimit 0 u) ∧
      (t.dedup.length ≤ 65535 → (∃ p ∈ E, 31 < p.2) →
        ∃ u, exec .hufCompress s = .next u ∧ FailedWith .codeLengthOverflow 0 u) ∧
      (t.dedup.length ≤ 65535 → (∀ p ∈ E, p.2 ≤ 31) → 0xFFFFFFFF < (textBits (canon E) t).length →
        ∃ u, exec .hufCompress s = .next u ∧ FailedWith .formatLimit 0 u))

/-- 43_huffman_codec.md R210 to R214, 30_encoding.md R105: HUF_DECOMPRESS decodes every well-formed container to its text, in
whatever order its entries stand and whatever bits follow its code bits; the zero-byte container is the empty text. -/
def Obligations.HufDecompressResult : Prop :=
  ∀ (s : State) (l : Latched), Ready .hufDecompress s l →
    (l.operands.srcLen = 0#32 →
      ∃ u, exec .hufDecompress s = .next u ∧ Succeeded u ∧ SameOutside s u ∧ u.dstLen = 0#32 ∧ u.dst2Len = 0#32 ∧
        u.mem = s.mem ∧ u.statOrig = 0#32 ∧ u.statComp = 0#32) ∧
    (∀ (entries : List (Nat × Nat)) (out : List Nat) (extra : List Bool),
      entries ≠ [] → entries.length ≤ 65535 → DistinctKeys entries →
      (∀ p ∈ entries, p.1 ≤ 0xFFFF ∧ 1 ≤ p.2 ∧ p.2 ≤ 31) → codesFit (canon entries) = true →
      (∀ c ∈ out, c ∈ entries.map Prod.fst) → (textBits (canon entries) out).length ≤ 0xFFFFFFFF →
      4 * out.length ≤ l.operands.dstCap.toNat →
      readerOn (s.mem.readBytes l.operands.srcAddr.toNat l.operands.srcLen.toNat) =
        containerFields entries out ++ extra →
      ∃ u, exec .hufDecompress s = .next u ∧ Succeeded u ∧ SameOutside s u ∧ u.dstLen.toNat = 4 * out.length ∧
        u.dst2Len = 0#32 ∧ u.mem.readWords l.operands.dstAddr.toNat out.length = out ∧
        SameMemoryOutside s.mem u.mem l.operands.dstAddr.toNat (4 * out.length) ∧ u.statOrig.toNat = utf8size out ∧
        u.statComp = l.operands.srcLen)

/-- 45_lz77_codec.md R260 to R263: each form of LZ_COMPRESS writes the bitstream of 30_encoding.md R114 to destination 1 and the
triple text of R120 to destination 2, as its FLAGS say. -/
def Obligations.LzCompressResult : Prop :=
  ∀ (i : Instr) (e : Emit) (s : State) (l : Latched) (t : List Nat) (ts : List Triple) (nb nt : Nat),
    (i, e) ∈ ([(.lzCompressBits, { bits := true, text := false }), (.lzCompressText, { bits := false, text := true }),
      (.lzCompressBitsText, { bits := true, text := true })] : List (Instr × Emit)) →
    Ready i s l → t = s.mem.readWords l.operands.srcAddr.toNat (l.operands.srcLen.toNat / 4) →
    ts = triples t l.operands.windowSize.toNat l.operands.bufferSize.toNat →
    nb = (if e.bits then nbytes (streamBits l.operands.windowSize.toNat l.operands.bufferSize.toNat ts) else 0) →
    nt = (if e.text then (tripleText ts).length else 0) →
    (e.bits = true → ∀ x ∈ ts, ∀ c, x.chr = some c → c ≤ 0xFF) → nb ≤ l.operands.dstCap.toNat →
    4 * nt ≤ l.operands.dst2Cap.toNat →
    ∃ u, exec i s = .next u ∧ Succeeded u ∧ SameOutside s u ∧ u.dstLen.toNat = nb ∧ u.dst2Len.toNat = 4 * nt ∧
      (e.bits = true →
        readerOn (u.mem.readBytes l.operands.dstAddr.toNat nb) =
          streamBits l.operands.windowSize.toNat l.operands.bufferSize.toNat ts ++
            padding (streamBits l.operands.windowSize.toNat l.operands.bufferSize.toNat ts)) ∧
      (e.text = true → u.mem.readWords l.operands.dst2Addr.toNat nt = tripleText ts) ∧
      (∀ a, ¬InBytes a l.operands.dstAddr.toNat nb → ¬InBytes a l.operands.dst2Addr.toNat (4 * nt) →
        u.mem.read a = s.mem.read a) ∧
      u.statOrig.toNat = utf8size t ∧ u.statComp.toNat = (if e.bits then nb else utf8size (tripleText ts))

/-- 45_lz77_codec.md R270 to R276: LZ_DECOMPRESS_BITS replays every bitstream that fits the wire contract. Fewer than 8 bits left
over that are no header are ignored whatever they hold (R276), and so is zero padding long enough for a header (R275); a final
character U+0000 is dropped where fewer than `H` bits follow it (R273), and kept where a header fits (log 18). The zero-byte stream
is the empty text. -/
def Obligations.LzDecompressBitsResult : Prop :=
  ∀ (s : State) (l : Latched) (w b : Nat) (ts : List Triple) (extra : List Bool) (out : List Nat),
    Ready .lzDecompressBits s l → w = l.operands.windowSize.toNat → b = l.operands.bufferSize.toNat →
    StreamFits w b [] ts →
    readerOn (s.mem.readBytes l.operands.srcAddr.toNat l.operands.srcLen.toNat) = streamBits w b ts ++ extra →
    extra.length < 8 → extra.length < 1 + clog2 w + clog2 (b + 1) ∨ (∀ y ∈ extra, y = false) →
    out = (if endsWithNul ts = true ∧ extra.length < 1 + clog2 w + clog2 (b + 1) then (replayAll ts).dropLast
      else replayAll ts) →
    4 * out.length ≤ l.operands.dstCap.toNat →
    ∃ u, exec .lzDecompressBits s = .next u ∧ Succeeded u ∧ SameOutside s u ∧ u.dstLen.toNat = 4 * out.length ∧
      u.dst2Len = 0#32 ∧ u.mem.readWords l.operands.dstAddr.toNat out.length = out ∧
      SameMemoryOutside s.mem u.mem l.operands.dstAddr.toNat (4 * out.length) ∧ u.statOrig.toNat = utf8size out ∧
      u.statComp = l.operands.srcLen

/-- 45_lz77_codec.md R280 to R282: LZ_DECOMPRESS_TEXT parses and replays every text of the grammar of 30_encoding.md R122, leading
zeros included, whose triples can be replayed, whatever WINDOW_SIZE and BUFFER_SIZE are; the empty text is the empty text. -/
def Obligations.LzDecompressTextResult : Prop :=
  ∀ (s : State) (l : Latched) (x : List Nat) (ts : List Triple), Ready .lzDecompressText s l → TokensFit [] ts →
    x = s.mem.readWords l.operands.srcAddr.toNat (l.operands.srcLen.toNat / 4) → TextOf x ts →
    4 * (replayAll ts).length ≤ l.operands.dstCap.toNat →
    ∃ u, exec .lzDecompressText s = .next u ∧ Succeeded u ∧ SameOutside s u ∧
      u.dstLen.toNat = 4 * (replayAll ts).length ∧ u.dst2Len = 0#32 ∧
      u.mem.readWords l.operands.dstAddr.toNat (replayAll ts).length = replayAll ts ∧
      SameMemoryOutside s.mem u.mem l.operands.dstAddr.toNat (4 * (replayAll ts).length) ∧
      u.statOrig.toNat = utf8size (replayAll ts) ∧ u.statComp.toNat = utf8size x

/-- 41_huffman_tree.md R166: HUF_LENGTHS on a frequency map writes its length table in canonical order. -/
def Obligations.HufLengthsResult : Prop :=
  ∀ (s : State) (l : Latched) (F : List (Nat × Nat)), Ready .hufLengths s l →
    F = s.mem.readPairs l.operands.srcAddr.toNat (l.operands.srcLen.toNat / 8) → F ≠ [] → DistinctKeys F →
    (∀ p ∈ F, p.1 ≤ 0xFFFF ∧ 1 ≤ p.2) → 8 * F.length ≤ l.operands.dstCap.toNat →
    ∃ u, exec .hufLengths s = .next u ∧ Succeeded u ∧ SameOutside s u ∧ u.dstLen.toNat = 8 * F.length ∧
      u.dst2Len = 0#32 ∧ u.mem.readPairs l.operands.dstAddr.toNat F.length = canonSort (treeLengths F) ∧
      SameMemoryOutside s.mem u.mem l.operands.dstAddr.toNat (8 * F.length) ∧ u.statOrig = 0#32 ∧ u.statComp = 0#32

/-- 42_huffman_canonical.md R186: HUF_CANON on a length table whose codes fit writes its code table in canonical order. -/
def Obligations.HufCanonResult : Prop :=
  ∀ (s : State) (l : Latched) (F : List (Nat × Nat)), Ready .hufCanon s l →
    F = s.mem.readPairs l.operands.srcAddr.toNat (l.operands.srcLen.toNat / 8) → F ≠ [] → DistinctKeys F →
    (∀ p ∈ F, p.1 ≤ 0xFFFF ∧ 1 ≤ p.2 ∧ p.2 ≤ 31) → kraftSum F ≤ 1 → 12 * F.length ≤ l.operands.dstCap.toNat →
    ∃ u, exec .hufCanon s = .next u ∧ Succeeded u ∧ SameOutside s u ∧ u.dstLen.toNat = 12 * F.length ∧
      u.dst2Len = 0#32 ∧
      u.mem.readWords l.operands.dstAddr.toNat (3 * F.length) =
        ((canon F).flatMap fun e => [e.sym, e.len, e.code]) ∧
      SameMemoryOutside s.mem u.mem l.operands.dstAddr.toNat (12 * F.length) ∧ u.statOrig = 0#32 ∧
      u.statComp = 0#32

/-- 41_huffman_tree.md R166, 42_huffman_canonical.md R183, R186: the first bad entry of a table ends HUF_LENGTHS or HUF_CANON with
its error and its index, an empty table with InvalidInput, and a table of good entries whose codes do not fit ends HUF_CANON with
InvalidInput at 0 (R181). -/
def Obligations.TableEntryErrors : Prop :=
  ∀ (i : Instr) (s : State) (l : Latched) (F : List (Nat × Nat)), i ∈ ([.hufLengths, .hufCanon] : List Instr) →
    Ready i s l → F = s.mem.readPairs l.operands.srcAddr.toNat (l.operands.srcLen.toNat / 8) →
    (F = [] → ∃ u, exec i s = .next u ∧ FailedWith .invalidInput 0 u) ∧
    (∀ (good : List (Nat × Nat)) (x n : Nat) (rest : List (Nat × Nat)), F = good ++ (x, n) :: rest →
      DistinctKeys good → (∀ p ∈ good, p.1 ≤ 0xFFFF ∧ 1 ≤ p.2 ∧ (i = .hufCanon → p.2 ≤ 31)) →
      (0xFFFF < x → ∃ u, exec i s = .next u ∧ FailedWith .unrepresentableSymbol good.length u) ∧
      (x ≤ 0xFFFF → x ∈ good.map Prod.fst ∨ n = 0 → ∃ u, exec i s = .next u ∧ FailedWith .invalidInput good.length u) ∧
      (x ≤ 0xFFFF → x ∉ good.map Prod.fst → 31 < n → i = .hufCanon →
        ∃ u, exec i s = .next u ∧ FailedWith .codeLengthOverflow good.length u)) ∧
    (i = .hufCanon → DistinctKeys F → (∀ p ∈ F, p.1 ≤ 0xFFFF ∧ 1 ≤ p.2 ∧ p.2 ≤ 31) → 1 < kraftSum F →
      ∃ u, exec i s = .next u ∧ FailedWith .invalidInput 0 u)

/-- 43_huffman_codec.md R203, 45_lz77_codec.md R262: the first symbol a format cannot carry ends HUF_COMPRESS, or LZ_COMPRESS with
the bitstream form, with UnrepresentableSymbol at its index in the text: for a triple's character, the symbols before the triple
and its length (44_lz77_match.md R244). -/
def Obligations.UnrepresentableSymbolErrors : Prop :=
  (∀ (s : State) (l : Latched) (good : List Nat) (c : Nat) (rest : List Nat), Ready .hufCompress s l →
    s.mem.readWords l.operands.srcAddr.toNat (l.operands.srcLen.toNat / 4) = good ++ c :: rest →
    (∀ x ∈ good, x ≤ 0xFFFF) → 0xFFFF < c →
    ∃ u, exec .hufCompress s = .next u ∧ FailedWith .unrepresentableSymbol good.length u) ∧
  (∀ (i : Instr) (s : State) (l : Latched) (t : List Nat) (good : List Triple) (x : Triple) (rest : List Triple) (c pos : Nat),
    i ∈ ([.lzCompressBits, .lzCompressBitsText] : List Instr) → Ready i s l →
    t = s.mem.readWords l.operands.srcAddr.toNat (l.operands.srcLen.toNat / 4) →
    triples t l.operands.windowSize.toNat l.operands.bufferSize.toNat = good ++ x :: rest →
    (∀ y ∈ good, ∀ d, y.chr = some d → d ≤ 0xFF) → x.chr = some c → 0xFF < c →
    pos = (replayAll good).length + x.len →
    nbytes (streamBits l.operands.windowSize.toNat l.operands.bufferSize.toNat good) ≤ l.operands.dstCap.toNat →
    (i = .lzCompressBitsText → 4 * (tripleText good).length ≤ l.operands.dst2Cap.toNat) →
    t[pos]? = some c ∧ ∃ u, exec i s = .next u ∧ FailedWith .unrepresentableSymbol pos u)

/-- 43_huffman_codec.md R211, R212: each defect of a container ends HUF_DECOMPRESS with MalformedContainer: too few bits for a
field, no entries, an entry of length 0, a symbol twice, codes that do not fit, or bits that are no code. -/
def Obligations.HufContainerErrors : Prop :=
  ∀ (s : State) (l : Latched) (bits : List Bool), Ready .hufDecompress s l → l.operands.srcLen ≠ 0#32 →
    bits = readerOn (s.mem.readBytes l.operands.srcAddr.toNat l.operands.srcLen.toNat) →
    (bits.length < 16 → ∃ u, exec .hufDecompress s = .next u ∧ FailedWith .malformedContainer 0 u) ∧
    (∀ (n : Nat) (good : List (Nat × Nat)) (rest : List Bool), n ≤ 65535 →
      bits = bitsOf 16 n ++ tableBits good ++ rest → good.length ≤ n → DistinctKeys good →
      (∀ p ∈ good, p.1 ≤ 0xFFFF ∧ 1 ≤ p.2 ∧ p.2 ≤ 31) →
      (n = 0 → ∃ u, exec .hufDecompress s = .next u ∧ FailedWith .malformedContainer 0 u) ∧
      (good.length < n → rest.length < 21 →
        ∃ u, exec .hufDecompress s = .next u ∧ FailedWith .malformedContainer 0 u) ∧
      (∀ (x m : Nat) (rest' : List Bool), good.length < n → rest = bitsOf 16 x ++ bitsOf 5 m ++ rest' → x ≤ 0xFFFF →
        m ≤ 31 → m = 0 ∨ x ∈ good.map Prod.fst →
        ∃ u, exec .hufDecompress s = .next u ∧ FailedWith .malformedContainer 0 u) ∧
      (good.length = n → rest.length < 32 →
        ∃ u, exec .hufDecompress s = .next u ∧ FailedWith .malformedContainer 0 u) ∧
      (∀ (B : Nat) (code : List Bool), good.length = n → rest = bitsOf 32 B ++ code → B ≤ 0xFFFFFFFF →
        code.length < B ∨ 1 < kraftSum good →
        ∃ u, exec .hufDecompress s = .next u ∧ FailedWith .malformedContainer 0 u) ∧
      (∀ (out : List Nat) (part extra : List Bool), good.length = n →
        rest = bitsOf 32 ((textBits (canon good) out).length + part.length) ++ textBits (canon good) out ++ part ++ extra →
        (textBits (canon good) out).length + part.length ≤ 0xFFFFFFFF → (∀ c ∈ out, c ∈ good.map Prod.fst) →
        4 * out.length ≤ l.operands.dstCap.toNat → part ≠ [] → (∀ e ∈ canon good, ¬e.bits <+: part) →
        ∃ u, exec .hufDecompress s = .next u ∧ FailedWith .malformedContainer 0 u))

/-- 45_lz77_codec.md R270, R272 to R274, R276, R281, 30_encoding.md R123, 60_exceptions.md R306. After the triples `ts`, a triple whose fields break the
checks ends LZ_DECOMPRESS_BITS at its index: MalformedContainer first, then OffsetOutOfRange, then OutputOverflow, its character
counted if it has one; and 8 or more bits that are no header end it with MalformedContainer. After the tokens of `ts`, a text
that is no token ends LZ_DECOMPRESS_TEXT with MalformedContainer at the token's index, and a token that cannot be replayed with
OffsetOutOfRange first, then MalformedContainer; anything but a space after the tokens is MalformedContainer at the next
index. -/
def Obligations.LzStreamErrors : Prop :=
  (∀ (s : State) (l : Latched) (ts : List Triple) (w b : Nat) (tail : List Bool), Ready .lzDecompressBits s l →
    w = l.operands.windowSize.toNat → b = l.operands.bufferSize.toNat → StreamFits w b [] ts →
    (∀ x ∈ ts, x.chr ≠ none) → 4 * (replayAll ts).length ≤ l.operands.dstCap.toNat →
    readerOn (s.mem.readBytes l.operands.srcAddr.toNat l.operands.srcLen.toNat) = streamBits w b ts ++ tail →
    (∀ (f so o L : Nat) (rest : List Bool), f ≤ 1 → so < 2 ^ clog2 w → L < 2 ^ clog2 (b + 1) →
      tail = bitsOf 1 f ++ bitsOf (clog2 w) so ++ bitsOf (clog2 (b + 1)) L ++ rest →
      o = (if f = 0 then 0 else if so ≠ 0 then so else 2 ^ clog2 w) →
      ((f = 0 ∧ (so ≠ 0 ∨ L ≠ 0)) ∨ (f = 1 ∧ L = 0) ∨ (f = 1 ∧ (w < o ∨ b < L)) →
        ∃ u, exec .lzDecompressBits s = .next u ∧ FailedWith .malformedContainer ts.length u) ∧
      ((f = 0 → so = 0 ∧ L = 0) → (f = 1 → 1 ≤ L ∧ o ≤ w ∧ L ≤ b) →
        ((replayAll ts).length < o →
          ∃ u, exec .lzDecompressBits s = .next u ∧ FailedWith .offsetOutOfRange ts.length u) ∧
        (o ≤ (replayAll ts).length →
          l.operands.dstCap.toNat < 4 * ((replayAll ts).length + L) ∨
            (8 ≤ rest.length ∧
              (rest.take 8 ≠ List.replicate 8 false ∨ 8 + (1 + clog2 w + clog2 (b + 1)) ≤ rest.length) ∧
              l.operands.dstCap.toNat < 4 * ((replayAll ts).length + L + 1)) →
          ∃ u, exec .lzDecompressBits s = .next u ∧ FailedWith .outputOverflow ts.length u))) ∧
    (8 ≤ tail.length → tail.length < 1 + clog2 w + clog2 (b + 1) →
      ∃ u, exec .lzDecompressBits s = .next u ∧ FailedWith .malformedContainer ts.length u)) ∧
  (∀ (s : State) (l : Latched) (x before rest : List Nat) (ts : List Triple), Ready .lzDecompressText s l →
    TokensFit [] ts → 4 * (replayAll ts).length ≤ l.operands.dstCap.toNat →
    x = s.mem.readWords l.operands.srcAddr.toNat (l.operands.srcLen.toNat / 4) → x ≠ [] → x = before ++ rest →
    (TextBefore before ts → BadToken rest →
      ∃ u, exec .lzDecompressText s = .next u ∧ FailedWith .malformedContainer ts.length u) ∧
    (∀ (tok tail : List Nat) (t : Triple), TextBefore before ts → IsToken tok t → rest = tok ++ tail →
      (t.chr = none → tail.head? ≠ some 0x29) →
      ((replayAll ts).length < t.off →
        ∃ u, exec .lzDecompressText s = .next u ∧ FailedWith .offsetOutOfRange ts.length u) ∧
      (t.off ≤ (replayAll ts).length → ¬(t.off = 0 ↔ t.len = 0) →
        ∃ u, exec .lzDecompressText s = .next u ∧ FailedWith .malformedContainer ts.length u)) ∧
    (∀ (c : Nat) (tail : List Nat), ts ≠ [] → TextOf before ts → rest = c :: tail → c ≠ 0x20 →
      ((∀ y, ts.getLast? = some y → y.chr = none → c ≠ 0x29) →
        ∃ u, exec .lzDecompressText s = .next u ∧ FailedWith .malformedContainer ts.length u)))

/-- 20_memory.md R67, 60_exceptions.md R306: an output that needs more bytes than its capacity ends each command with
OutputOverflow, at the triple or token that exceeds it for the LZ77 decoders. -/
def Obligations.OutputOverflowErrors : Prop :=
  (∀ (s : State) (l : Latched) (t : List Nat) (E : List (Nat × Nat)), Ready .hufCompress s l →
    t = s.mem.readWords l.operands.srcAddr.toNat (l.operands.srcLen.toNat / 4) →
    E = canonSort (treeLengths (frequencies t)) → t ≠ [] → (∀ c ∈ t, c ≤ 0xFFFF) → t.dedup.length ≤ 65535 →
    (∀ p ∈ E, p.2 ≤ 31) → (textBits (canon E) t).length ≤ 0xFFFFFFFF →
    l.operands.dstCap.toNat < nbytes (containerFields E t) →
    ∃ u, exec .hufCompress s = .next u ∧ FailedWith .outputOverflow 0 u) ∧
  (∀ (s : State) (l : Latched) (entries : List (Nat × Nat)) (out : List Nat) (extra : List Bool),
    Ready .hufDecompress s l → entries ≠ [] → entries.length ≤ 65535 → DistinctKeys entries →
    (∀ p ∈ entries, p.1 ≤ 0xFFFF ∧ 1 ≤ p.2 ∧ p.2 ≤ 31) → codesFit (canon entries) = true →
    (∀ c ∈ out, c ∈ entries.map Prod.fst) → (textBits (canon entries) out).length ≤ 0xFFFFFFFF →
    l.operands.dstCap.toNat < 4 * out.length →
    readerOn (s.mem.readBytes l.operands.srcAddr.toNat l.operands.srcLen.toNat) = containerFields entries out ++ extra →
    ∃ u, exec .hufDecompress s = .next u ∧ FailedWith .outputOverflow 0 u) ∧
  (∀ (i : Instr) (size : Nat) (s : State) (l : Latched) (F : List (Nat × Nat)),
    (i, size) ∈ ([(.hufLengths, 8), (.hufCanon, 12)] : List (Instr × Nat)) → Ready i s l →
    F = s.mem.readPairs l.operands.srcAddr.toNat (l.operands.srcLen.toNat / 8) → F ≠ [] → DistinctKeys F →
    (∀ p ∈ F, p.1 ≤ 0xFFFF ∧ 1 ≤ p.2) → (i = .hufCanon → (∀ p ∈ F, p.2 ≤ 31) ∧ kraftSum F ≤ 1) →
    l.operands.dstCap.toNat < size * F.length →
    ∃ u, exec i s = .next u ∧ FailedWith .outputOverflow 0 u) ∧
  (∀ (i : Instr) (e : Emit) (s : State) (l : Latched) (ts : List Triple),
    (i, e) ∈ ([(.lzCompressBits, { bits := true, text := false }), (.lzCompressText, { bits := false, text := true }),
      (.lzCompressBitsText, { bits := true, text := true })] : List (Instr × Emit)) → Ready i s l →
    ts = triples (s.mem.readWords l.operands.srcAddr.toNat (l.operands.srcLen.toNat / 4)) l.operands.windowSize.toNat
      l.operands.bufferSize.toNat →
    (e.bits = true → ∀ x ∈ ts, ∀ c, x.chr = some c → c ≤ 0xFF) →
    (e.bits = true ∧
        l.operands.dstCap.toNat <
          nbytes (streamBits l.operands.windowSize.toNat l.operands.bufferSize.toNat ts)) ∨
      (e.text = true ∧ l.operands.dst2Cap.toNat < 4 * (tripleText ts).length) →
    ∃ u, exec i s = .next u ∧ FailedWith .outputOverflow 0 u) ∧
  (∀ (s : State) (l : Latched) (ts : List Triple) (k : Nat), Ready .lzDecompressBits s l →
    StreamFits l.operands.windowSize.toNat l.operands.bufferSize.toNat [] ts → endsWithNul ts = false →
    readerOn (s.mem.readBytes l.operands.srcAddr.toNat l.operands.srcLen.toNat) =
      streamBits l.operands.windowSize.toNat l.operands.bufferSize.toNat ts ++
        padding (streamBits l.operands.windowSize.toNat l.operands.bufferSize.toNat ts) →
    4 * (replayAll (ts.take k)).length ≤ l.operands.dstCap.toNat →
    l.operands.dstCap.toNat < 4 * (replayAll (ts.take (k + 1))).length →
    ∃ u, exec .lzDecompressBits s = .next u ∧ FailedWith .outputOverflow k u) ∧
  (∀ (s : State) (l : Latched) (ts : List Triple) (k : Nat), Ready .lzDecompressText s l → TokensFit [] ts →
    TextOf (s.mem.readWords l.operands.srcAddr.toNat (l.operands.srcLen.toNat / 4)) ts →
    4 * (replayAll (ts.take k)).length ≤ l.operands.dstCap.toNat →
    l.operands.dstCap.toNat < 4 * (replayAll (ts.take (k + 1))).length →
    ∃ u, exec .lzDecompressText s = .next u ∧ FailedWith .outputOverflow k u)

/-! ### The tree builder and the canonical codes -/

/-- 41_huffman_tree.md R160: the loop leaves one root, whose leaves are exactly the input symbols; every length is at least 1. -/
def Obligations.TreeLeavesAreTheSymbols : Prop :=
  ∀ F : List (Nat × Nat), F ≠ [] →
    (∃ T, mergeLoop (F.length - 1) F.length (leavesOf F) = [T] ∧
      ((T.depths 0).map Prod.fst).Perm (F.map Prod.fst)) ∧
    ((treeLengths F).map Prod.fst).Perm (F.map Prod.fst) ∧ ∀ p ∈ treeLengths F, 1 ≤ p.2

/-- 41_huffman_tree.md R161 to R165. The leaves are the entries of the map in ascending order of symbol, the `j`-th with sequence
number `j`. One turn of the loop takes the two least nodes by `(freq, seq)`, the first the left child, and puts their sum in
their place with the next sequence number. The turns follow one another from the leaves, and before each the sequence numbers
are distinct and below the next one, as that needs. The lengths are the depths of the leaves of the one node left, and 1 for a
single symbol. -/
def Obligations.MergeTakesTheTwoLeast : Prop :=
  (∀ F : List (Nat × Nat), DistinctKeys F →
    ∃ G : List (Nat × Nat), G.Perm F ∧ G.Pairwise (fun p p' => p.1 < p'.1) ∧
      ∀ j, (leavesOf F)[j]? = (G[j]?).map fun p => HufTree.leaf p.1 p.2 j) ∧
  (∀ (next : Nat) (q : List HufTree), 2 ≤ q.length → (q.map HufTree.seq).Nodup →
    ∃ a c rest, q.Perm (a :: c :: rest) ∧ (∀ x ∈ c :: rest, a.before x = true) ∧ (∀ x ∈ rest, c.before x = true) ∧
      mergeOnce next q = HufTree.node (a.freq + c.freq) next a c :: rest) ∧
  (∀ (next : Nat) (q : List HufTree), (q.map HufTree.seq).Nodup → (∀ x ∈ q, x.seq < next) →
    ((mergeOnce next q).map HufTree.seq).Nodup ∧ ∀ x ∈ mergeOnce next q, x.seq < next + 1) ∧
  (∀ (k next : Nat) (q : List HufTree),
    mergeLoop 0 next q = q ∧ mergeLoop (k + 1) next q = mergeOnce (next + k) (mergeLoop k next q)) ∧
  (∀ (F : List (Nat × Nat)) (k : Nat),
    ((mergeLoop k F.length (leavesOf F)).map HufTree.seq).Nodup ∧
      (∀ x ∈ mergeLoop k F.length (leavesOf F), x.seq < F.length + k) ∧
      (k < F.length → (mergeLoop k F.length (leavesOf F)).length = F.length - k)) ∧
  (∀ F : List (Nat × Nat), 2 ≤ F.length →
    ∃ T, mergeLoop (F.length - 1) F.length (leavesOf F) = [T] ∧ treeLengths F = T.depths 0) ∧
  ∀ x n : Nat, treeLengths [(x, n)] = [(x, 1)]

/-- 41_huffman_tree.md R168: the lengths satisfy Kraft's equality for two or more symbols; for one the sum is
1/2; and in "AAAABBBCCD" the two most frequent symbols have the two shortest codes. -/
def Obligations.KraftEquality : Prop :=
  (∀ F : List (Nat × Nat),
    (2 ≤ F.length → kraftSum (treeLengths F) = 1) ∧ (F.length = 1 → kraftSum (treeLengths F) = 1 / 2)) ∧
  treeLengths [(0x41, 4), (0x42, 3), (0x43, 2), (0x44, 1)] = [(0x41, 1), (0x42, 2), (0x44, 3), (0x43, 3)]

/-- 41_huffman_tree.md R167: the lengths depend on the map alone, not on the order its entries are listed in. -/
def Obligations.TreeDependsOnTheMapOnly : Prop :=
  ∀ F G : List (Nat × Nat), F.Perm G → DistinctKeys F → treeLengths F = treeLengths G

/-- 42_huffman_canonical.md R180: the code table is the length table in canonical order, the first code is 0, and each next code is
the previous one plus one, shifted left by the difference in length; a code of at most 31 bits that fits is below `2^31`. -/
def Obligations.CanonRecurrence : Prop :=
  ∀ len : List (Nat × Nat),
    (canonSort len).Perm len ∧ (canonSort len).Pairwise canonLe ∧
    ((canon len).map fun e => (e.sym, e.len)) = canonSort len ∧
    (∀ e, (canon len)[0]? = some e → e.code = 0) ∧
    (∀ (k : Nat) (e e' : CodeEntry), (canon len)[k]? = some e → (canon len)[k + 1]? = some e' →
      e.len ≤ e'.len ∧ e'.code = (e.code + 1) * 2 ^ (e'.len - e.len)) ∧
    ∀ e ∈ canon len, e.len ≤ 31 → e.code < 2 ^ e.len → e.code < 2 ^ 31

/-- 42_huffman_canonical.md R181: the codes fit exactly when the Kraft sum is at most 1, a tree's table always fits, and after a code
that does not fit no later one does. -/
def Obligations.CodesFitExactlyByKraft : Prop :=
  (∀ len : List (Nat × Nat), codesFit (canon len) = true ↔ kraftSum len ≤ 1) ∧
  (∀ F : List (Nat × Nat), codesFit (canon (treeLengths F)) = true) ∧
  (∀ (len : List (Nat × Nat)) (k : Nat) (e e' : CodeEntry), (canon len)[k]? = some e → (canon len)[k + 1]? = some e' →
    2 ^ e.len ≤ e.code → 2 ^ e'.len ≤ e'.code)

/-- 42_huffman_canonical.md R182: in a code table that fits no code is a prefix of another. -/
def Obligations.CanonicalCodesArePrefixFree : Prop :=
  ∀ len : List (Nat × Nat), codesFit (canon len) = true →
    (canon len).Pairwise fun e e' => ¬e.bits <+: e'.bits ∧ ¬e'.bits <+: e.bits

/-! ### The bit writer and reader -/

/-- 40_bitio.md R148: the writer-reader law. -/
def Obligations.WriterReaderLaw : Prop :=
  ∀ fs : List (Nat × Nat), (∀ f ∈ fs, f.1 < 2 ^ f.2) →
    ∃ rest, getFields (fs.map Prod.snd) (readerOn (finish (putFields fs))) = (fs.map Prod.fst, rest) ∧
      avail rest ≤ 7 ∧ ∀ b ∈ rest, b = false

/-- 40_bitio.md R141, R143: bit `t` of a container is bit `7 - t mod 8` of byte `t div 8`, and the padding is zero. -/
def Obligations.PackingOfBits : Prop :=
  ∀ w : List Bool, (finish w).length = ceilDiv w.length 8 ∧
    ∀ t, t < 8 * (finish w).length →
      ∃ y, (finish w)[t / 8]? = some y ∧ y.getLsbD (7 - t % 8) = w.getD t false

/-- 00_scope.md R10: `clog2` is the least exponent. -/
def Obligations.Clog2IsTheLeastExponent : Prop :=
  ∀ x : Nat, 1 ≤ x → x ≤ 2 ^ clog2 x ∧ ∀ k, x ≤ 2 ^ k → clog2 x ≤ k

/-! ### The Huffman container -/

/-- 30_encoding.md R103, R104: the container's fields in order, their ranges, and its padding; and 43_huffman_codec.md R201: the
frequency map its lengths come from holds exactly the symbols of the text, each once, with its number of occurrences. -/
def Obligations.ContainerLayout : Prop :=
  (∀ (t : List Nat) (x n : Nat), (x, n) ∈ frequencies t ↔ x ∈ t ∧ n = t.count x) ∧
  (∀ t : List Nat, DistinctKeys (frequencies t) ∧ ∀ p ∈ frequencies t, 1 ≤ p.2) ∧
  ∀ (t : List Nat) (cap : Nat) (bytes : List Byte) (E : List (Nat × Nat)), hufCompress t cap = .ok bytes →
    E = canonSort (treeLengths (frequencies t)) →
    (t = [] → bytes = []) ∧
    (t ≠ [] →
      1 ≤ E.length ∧ E.length ≤ 65535 ∧ (∀ p ∈ E, p.1 ≤ 0xFFFF ∧ 1 ≤ p.2 ∧ p.2 ≤ 31) ∧
      (textBits (canon E) t).length ≤ 0xFFFFFFFF ∧
      readerOn bytes = containerFields E t ++ padding (containerFields E t))

/-- 43_huffman_codec.md R215: the round trip. -/
def Obligations.HuffmanRoundTrip : Prop :=
  ∀ (t : List Nat) (cap cap' : Nat) (bytes : List Byte), hufCompress t cap = .ok bytes → 4 * t.length ≤ cap' →
    hufDecompress bytes cap' = .ok t

/-! ### LZ77 -/

/-- 44_lz77_match.md R242, R243: the match length is the longest run, and the best match is the longest, the most distant of
the longest. -/
def Obligations.BestMatchIsLongestMostDistant : Prop :=
  (∀ (t : List Nat) (b i j : Nat), j < i →
    matchLength t b i j ≤ min b (t.length - i) ∧ (∀ q, q < matchLength t b i j → t[j + q]? = t[i + q]?) ∧
      (matchLength t b i j < min b (t.length - i) →
        t[j + matchLength t b i j]? ≠ t[i + matchLength t b i j]?)) ∧
  (∀ (t : List Nat) (w b i o L : Nat), bestMatch t w b i = (o, L) →
    (∀ j, i - w ≤ j → j < i → matchLength t b i j ≤ L) ∧
    (L = 0 → o = 0) ∧
    (0 < L → 1 ≤ o ∧ o ≤ min i w ∧ matchLength t b i (i - o) = L ∧
      ∀ j, i - w ≤ j → j < i - o → matchLength t b i j < L))

/-- 44_lz77_match.md R246: the triple invariants; and R244: a triple's character is the symbol of the text after its copy, `cpos` is
that symbol's index, and a triple without one reaches the end of the text. -/
def Obligations.TripleInvariants : Prop :=
  ∀ (t : List Nat) (w b k : Nat) (x : Triple), (triples t w b)[k]? = some x →
    (x.len = 0 ↔ x.off = 0) ∧ x.len ≤ b ∧ x.off ≤ w ∧ x.off ≤ (replayAll ((triples t w b).take k)).length ∧
      (x.chr = none →
        k + 1 = (triples t w b).length ∧ x.cpos = none ∧
          (replayAll ((triples t w b).take k)).length + x.len = t.length) ∧
      ∀ c, x.chr = some c →
        t[(replayAll ((triples t w b).take k)).length + x.len]? = some c ∧
          x.cpos = some ((replayAll ((triples t w b).take k)).length + x.len)

/-- 44_lz77_match.md R245, 45_lz77_codec.md R265: replaying the triples of a text gives the text back. -/
def Obligations.ReplayOfTriples : Prop := ∀ (t : List Nat) (w b : Nat), replayAll (triples t w b) = t

/-- 30_encoding.md R120: decimal, at least one digit, no leading zero. -/
def Obligations.DecimalRendering : Prop :=
  ∀ v : Nat, digitsValue (dec v) = v ∧ (∀ d ∈ dec v, 0x30 ≤ d ∧ d ≤ 0x39) ∧ dec v ≠ [] ∧
    (v ≠ 0 → (dec v).head? ≠ some 0x30) ∧ dec 0 = [0x30]

/-- 45_lz77_codec.md R290: the round trip of the text form. -/
def Obligations.TextFormRoundTrip : Prop :=
  ∀ (e : Emit) (t : List Nat) (w b cap cap2 cap' : Nat) (bytes : List Byte) (tx : List Nat), 1 ≤ w → 1 ≤ b →
    t.length ≤ 0xFFFFFFFF → e.text = true → lzCompress e w b cap cap2 t = .ok (bytes, tx) → 4 * t.length ≤ cap' →
    lzDecompressText cap' tx = .ok t

/-- 45_lz77_codec.md R270, R273, R291: the round trip of the bitstream form: the text comes back, less a final U+0000 of the last
triple where no further header fits after it (log 18). -/
def Obligations.BitstreamRoundTrip : Prop :=
  ∀ (e : Emit) (t : List Nat) (w b cap cap2 cap' : Nat) (bytes : List Byte) (tx : List Nat), 1 ≤ w → 1 ≤ b →
    (∀ c ∈ t, c ≤ 0xFF) → e.bits = true → lzCompress e w b cap cap2 t = .ok (bytes, tx) → 4 * t.length ≤ cap' →
    lzDecompressBits w b cap' bytes =
      .ok (if endsWithNul (triples t w b) = true ∧
              8 * bytes.length - (streamBits w b (triples t w b)).length < headerWidth w b
            then t.dropLast else t)

/-! ### Steps, invariants and the host -/

/-- 60_exceptions.md R313: a step is one turn of one agent; the engine's turn runs the decoded command. -/
def Obligations.StepRunsTheDecodedCommand : Prop :=
  (∀ (s : State) (l : Latched) (i : Instr), s.running = some l → decodeCommand l.cmd = .ok i →
    (s.schedule = [] → step s = exec i s) ∧
    (∀ rest, s.schedule = .engine :: rest → step s = exec i { s with schedule := rest })) ∧
  (∀ (s : State) (l : Latched) (e : DecodeError), s.running = some l → decodeCommand l.cmd = .error e →
    (s.schedule = [] → step s = .next (completeIllegal s)) ∧
    (∀ rest, s.schedule = .engine :: rest → step s = .next (completeIllegal { s with schedule := rest }))) ∧
  (∀ (s : State) (op : HostOp) (ops : List HostOp), s.host = op :: ops →
    (s.schedule = [] → s.running = none → step s = hostOperation op { s with host := ops }) ∧
    (∀ rest, s.schedule = .host :: rest → step s = hostOperation op { s with host := ops, schedule := rest })) ∧
  (∀ (s : State) (rest : List Agent), s.schedule = .engine :: rest → s.running = none →
    step s = .next { s with schedule := rest }) ∧
  (∀ (s : State) (rest : List Agent), s.schedule = .host :: rest → s.host = [] →
    step s = .next { s with schedule := rest }) ∧
  (∀ s : State, s.host = [] → s.running = none → ∃ sch, step s = .next { s with schedule := sch })

/-- The command placed by `withFetchWord` is the one the next step runs, on the operand registers and memory as they stand. -/
def Obligations.PlacedCommandRunsNext : Prop :=
  ∀ (s : State) (i : Instr), ∃ t,
    t.running = some { cmd := (encode i).extractLsb' 0 31, operands := s.operands } ∧ t.operands = s.operands ∧
      t.mem = s.mem ∧ t.config = s.config ∧ t.schedule = s.schedule ∧
      step (s.withFetchWord 32 (encode i).toNat) = exec i t

/-- 20_memory.md R73: the host's duties while BUSY; and with no legal command running, while IDLE or while an illegal command word
runs, the host reads and writes all of the memory. That the duties hold also for a command whose checks will fail, and none
hold for an illegal word, is the model's reading (log 13). -/
def Obligations.HostDutiesWhileBusy : Prop :=
  (∀ (s : State) (l : Latched) (i : Instr) (a n : Nat) (bytes : List Byte), s.running = some l →
    decodeCommand l.cmd = .ok i → bytes.length = n → a + n ≤ s.config.memBytes →
    ((∃ b, InBytes b a n ∧ inRanges (usedRanges (useOf i) l.operands) b = true) →
      hostOperation (.writeMem a bytes) s = .refused .hostWritesBusyBuffer) ∧
    ((∃ b, InBytes b a n ∧ inRanges (dstRanges (useOf i) l.operands) b = true) →
      hostOperation (.readMem a n) s = .refused .hostReadsBusyDestination) ∧
    ((∀ b, InBytes b a n → inRanges (dstRanges (useOf i) l.operands) b = false) →
      hostOperation (.readMem a n) s = .next { s with hostBytes := s.mem.readBytes a n }) ∧
    ((∀ b, InBytes b a n → inRanges (usedRanges (useOf i) l.operands) b = false) →
      ∃ t, hostOperation (.writeMem a bytes) s = .next t ∧ t.mem.readBytes a n = bytes ∧
        SameMemoryOutside s.mem t.mem a n ∧ t = { s with mem := t.mem })) ∧
  (∀ (s : State) (a n : Nat) (bytes : List Byte),
    (s.running = none ∨ ∃ l e, s.running = some l ∧ decodeCommand l.cmd = .error e) → bytes.length = n →
    a + n ≤ s.config.memBytes →
    hostOperation (.readMem a n) s = .next { s with hostBytes := s.mem.readBytes a n } ∧
      ∃ t, hostOperation (.writeMem a bytes) s = .next t ∧ t.mem.readBytes a n = bytes ∧
        SameMemoryOutside s.mem t.mem a n ∧ t = { s with mem := t.mem })

/-- 20_memory.md R72 item 1: while a command runs, its source and destination bytes stay as they were. -/
def Obligations.BusyBuffersStayAsTheyWere : Prop :=
  ∀ (s t : State) (l : Latched) (i : Instr), s.running = some l → decodeCommand l.cmd = .ok i → step s = .next t →
    t.running = some l → ∀ a, inRanges (usedRanges (useOf i) l.operands) a = true → t.mem.read a = s.mem.read a

/-- Reset meets every invariant, on every platform whose parameters are legal. -/
def Obligations.ResetMeetsTheInvariants : Prop :=
  Config.default.wf = true ∧
  ∀ c : Config, (State.resetOn c).canonical = true ∧ (State.resetOn c).insideMemory = true ∧
    (State.resetOn c).latchedFrozen = true ∧ (State.resetOn c).busyClear = true ∧
    (State.resetOn c).legalErrCode = true

/-- The memory keeps its canonical form. -/
def Obligations.StepKeepsCanonicalMemory : Prop :=
  ∀ s t : State, s.canonical = true → step s = .next t → t.canonical = true

/-- 20_memory.md R60, R61: nothing is ever written at or beyond MEM_BYTES, and MEM_BYTES and the other parameters never
change. -/
def Obligations.StepKeepsInsideMemory : Prop :=
  ∀ s t : State, step s = .next t → t.config = s.config ∧ (s.insideMemory = true → t.insideMemory = true)

/-- 10_state.md R34: while BUSY, `latched` equals the operand registers and CMD. -/
def Obligations.StepKeepsLatchedFrozen : Prop :=
  ∀ s t : State, s.latchedFrozen = true → step s = .next t → t.latchedFrozen = true

/-- 10_state.md R32: while BUSY the results and ERR_CODE read 0, and DONE is 0. -/
def Obligations.StepKeepsBusyResultsClear : Prop :=
  ∀ s t : State, s.busyClear = true → step s = .next t → t.busyClear = true

/-- 60_exceptions.md R301: the number of each error, and codes 13 to 255 are never written. -/
def Obligations.StepKeepsLegalErrorCode : Prop :=
  ([.invalidInput, .codeLengthOverflow, .malformedContainer, .offsetOutOfRange, .unrepresentableSymbol, .illegalCommand,
      .badParameter, .alignmentError, .addressRange, .bufferOverlap, .formatLimit, .outputOverflow] : List Err).map errCodeOf =
    [1#8, 2#8, 3#8, 4#8, 5#8, 6#8, 7#8, 8#8, 9#8, 10#8, 11#8, 12#8] ∧
  ∀ s t : State, s.legalErrCode = true → step s = .next t → t.legalErrCode = true

/-- 70_reset_and_hazards.md R361: a command completes after finitely many steps. With nothing from the host, at most one more than
the turns on the schedule. -/
def Obligations.CommandCompletesEventually : Prop :=
  ∀ s : State, s.busy = true → s.host = [] →
    ∃ k t, 1 ≤ k ∧ k ≤ s.schedule.length + 1 ∧ runSteps k s = some t ∧ t.busy = false ∧ t.done = true
end

