-- ==== Sys2Proof/Laws/Bits.lean ====
section
/-! SUPPORT. The laws of bit strings and of packing: a field's digits and value are inverse, and a reader on a packed sequence sees the
sequence and its padding. -/

namespace Sys2Proof.Machine

@[simp] theorem length_bitsOf (L v : Nat) : (bitsOf L v).length = L := by
  induction L with
  | zero => rfl
  | succ L ih => simp [bitsOf, ih]

@[simp] theorem bitsOf_zero_width (v : Nat) : bitsOf 0 v = [] := rfl

/-- The digits of a value depend on its low bits only. -/
theorem bitsOf_mod (L v : Nat) : bitsOf L (v % 2 ^ L) = bitsOf L v := by
  have h : ∀ M, M ≤ L → bitsOf M (v % 2 ^ L) = bitsOf M v := by
    intro M
    induction M with
    | zero => intro _; rfl
    | succ M ih =>
      intro hM
      simp only [bitsOf]
      rw [ih (by omega), Nat.testBit_mod_two_pow]
      simp [show M < L by omega]
  exact h L le_rfl

theorem ofBits_nil : ofBits [] = 0 := rfl

theorem foldl_ofBits (bs : List Bool) (a : Nat) :
    bs.foldl (fun v b => 2 * v + b.toNat) a = a * 2 ^ bs.length + ofBits bs := by
  induction bs generalizing a with
  | nil => simp [ofBits]
  | cons b bs ih =>
    simp only [List.foldl_cons, ofBits]
    rw [ih, ih (2 * 0 + b.toNat)]
    simp only [List.length_cons, pow_succ]
    ring

theorem ofBits_cons (b : Bool) (bs : List Bool) : ofBits (b :: bs) = b.toNat * 2 ^ bs.length + ofBits bs := by
  have := foldl_ofBits bs (2 * 0 + b.toNat)
  simpa [ofBits] using this

theorem ofBits_append (as bs : List Bool) : ofBits (as ++ bs) = ofBits as * 2 ^ bs.length + ofBits bs := by
  unfold ofBits
  rw [List.foldl_append, foldl_ofBits bs]
  rfl

theorem ofBits_lt (bs : List Bool) : ofBits bs < 2 ^ bs.length := by
  induction bs with
  | nil => simp [ofBits]
  | cons b bs ih =>
    rw [ofBits_cons, List.length_cons, pow_succ]
    have : b.toNat ≤ 1 := by cases b <;> simp
    nlinarith [Nat.mul_le_mul_right (2 ^ bs.length) this]

/-- The value of the digits of a value that fits. -/
theorem ofBits_bitsOf (L v : Nat) (h : v < 2 ^ L) : ofBits (bitsOf L v) = v := by
  have hm : ∀ L, ofBits (bitsOf L v) = v % 2 ^ L := by
    intro L
    induction L with
    | zero => simp [bitsOf, ofBits, Nat.mod_one]
    | succ L ih =>
      simp only [bitsOf]
      rw [ofBits_cons, length_bitsOf, ih, Nat.mod_pow_succ, Nat.testBit_eq_decide_div_mod_eq]
      rcases Nat.mod_two_eq_zero_or_one (v / 2 ^ L) with h0 | h0 <;> simp [h0, Nat.add_comm]
  rw [hm, Nat.mod_eq_of_lt h]

/-- The digits of the value of a bit string are the bit string. -/
theorem bitsOf_ofBits (bs : List Bool) : bitsOf bs.length (ofBits bs) = bs := by
  induction bs with
  | nil => rfl
  | cons b bs ih =>
    simp only [List.length_cons, bitsOf]
    congr 1
    · rw [ofBits_cons, Nat.testBit_eq_decide_div_mod_eq, Nat.mul_comm, Nat.mul_add_div (Nat.two_pow_pos _),
        Nat.div_eq_of_lt (ofBits_lt bs)]
      cases b <;> simp
    · rw [← bitsOf_mod, ofBits_cons, Nat.mul_comm, Nat.mul_add_mod, Nat.mod_eq_of_lt (ofBits_lt bs), ih]

@[simp] theorem readerOn_nil : readerOn [] = [] := rfl

@[simp] theorem readerOn_cons (b : Byte) (bs : List Byte) : readerOn (b :: bs) = bitsOf 8 b.toNat ++ readerOn bs := rfl

theorem readerOn_append (as bs : List Byte) : readerOn (as ++ bs) = readerOn as ++ readerOn bs := by
  simp [readerOn]

@[simp] theorem length_readerOn (bs : List Byte) : (readerOn bs).length = 8 * bs.length := by
  induction bs with
  | nil => rfl
  | cons b bs ih => simp [ih]; omega

theorem length_packBytes (n : Nat) (bs : List Bool) : (packBytes n bs).length = n := by
  induction n generalizing bs with
  | zero => rfl
  | succ n ih => simp [packBytes, ih]

/-- `finish()` gives `nbytes()` bytes (40_bitio.md R143, R144). -/
theorem length_finish (w : List Bool) : (finish w).length = nbytes w := length_packBytes _ _

theorem bitsOf_packByte (bs : List Bool) (h : bs.length ≤ 8) :
    bitsOf 8 (packByte bs).toNat = bs ++ List.replicate (8 - bs.length) false := by
  have hl : (bs ++ List.replicate (8 - bs.length) false).length = 8 := by simp; omega
  have hb := bitsOf_ofBits (bs ++ List.replicate (8 - bs.length) false)
  have hlt := ofBits_lt (bs ++ List.replicate (8 - bs.length) false)
  rw [hl] at hb hlt
  unfold packByte
  rw [BitVec.toNat_ofNat, Nat.mod_eq_of_lt hlt, hb]

theorem readerOn_packBytes (n : Nat) (w : List Bool) (h : w.length ≤ 8 * n) :
    readerOn (packBytes n w) = w ++ List.replicate (8 * n - w.length) false := by
  induction n generalizing w with
  | zero =>
    have : w = [] := List.eq_nil_of_length_eq_zero (by omega)
    simp [this, packBytes]
  | succ n ih =>
    simp only [packBytes, readerOn_cons]
    rw [bitsOf_packByte _ (by simp), ih (w.drop 8) (by simp; omega)]
    by_cases h8 : 8 ≤ w.length
    · have h1 : 8 - (w.take 8).length = 0 := by simp; omega
      have h2 : 8 * n - (w.drop 8).length = 8 * (n + 1) - w.length := by simp; omega
      rw [h1, h2, List.replicate_zero, List.append_nil, ← List.append_assoc, List.take_append_drop]
    · have h1 : w.take 8 = w := List.take_of_length_le (by omega)
      have h2 : w.drop 8 = [] := List.drop_eq_nil_of_le (by omega)
      rw [h1, h2, List.nil_append, List.append_assoc, ← List.replicate_add]
      congr 2
      simp; omega

/-- A reader on a finished writer sees what was written, then zero padding of at most seven bits. -/
theorem readerOn_finish (w : List Bool) :
    readerOn (finish w) = w ++ List.replicate (8 * nbytes w - w.length) false ∧ 8 * nbytes w - w.length ≤ 7 ∧
      w.length ≤ 8 * nbytes w := by
  have h : w.length ≤ 8 * nbytes w ∧ 8 * nbytes w - w.length ≤ 7 := by unfold nbytes ceilDiv; omega
  exact ⟨readerOn_packBytes _ _ h.1, h.2, h.1⟩

/-- Reading a field that was written: its value, and the bits after it. -/
theorem get_bitsOf_append (L v : Nat) (r : List Bool) (h : v < 2 ^ L) : get (bitsOf L v ++ r) L = (v, r) := by
  unfold get
  rw [List.take_left' (length_bitsOf L v), List.drop_left' (length_bitsOf L v), ofBits_bitsOf L v h]

end Sys2Proof.Machine
end

