-- ==== Sys2Proof/Laws/Memory.lean ====
section
/-! SUPPORT. The laws of memory: a read after a write, and the canonical form kept by every operation. -/

namespace Sys2Proof.Machine

@[simp] theorem Memory.read_nil (a : Nat) : Memory.read [] a = fillByte := rfl

theorem Memory.read_cons (x : Nat) (u : Byte) (m : Memory) (a : Nat) :
    Memory.read ((x, u) :: m) a = if x = a then u else m.read a := rfl

/-- An address that is not listed reads as `fillByte`. -/
theorem Memory.read_of_not_listed (m : Memory) (a : Nat) (h : ∀ c ∈ m, c.1 ≠ a) : m.read a = fillByte := by
  induction m with
  | nil => rfl
  | cons c m ih =>
    obtain ⟨x, u⟩ := c
    have hx : x ≠ a := h (x, u) (by simp)
    rw [Memory.read_cons, if_neg hx]
    exact ih fun c hc => h c (by simp [hc])

theorem Memory.mem_erase (m : Memory) (a : Nat) (c : Host.Cell) : c ∈ m.erase a ↔ c ∈ m ∧ c.1 ≠ a := by
  simp [Memory.erase]

theorem Memory.read_erase (m : Memory) (a b : Nat) : (m.erase a).read b = if b = a then fillByte else m.read b := by
  by_cases hb : b = a
  · subst hb
    rw [if_pos rfl]
    exact Memory.read_of_not_listed _ _ fun c hc => ((Memory.mem_erase m b c).1 hc).2
  · rw [if_neg hb]
    induction m with
    | nil => rfl
    | cons c m ih =>
      obtain ⟨x, u⟩ := c
      by_cases hx : x = a
      · subst hx
        have : Memory.erase ((x, u) :: m) x = Memory.erase m x := by simp [Memory.erase]
        rw [this, ih, Memory.read_cons, if_neg (fun h => hb h.symm)]
      · have : Memory.erase ((x, u) :: m) a = (x, u) :: Memory.erase m a := by simp [Memory.erase, hx]
        rw [this, Memory.read_cons, Memory.read_cons, ih]

theorem Memory.read_place (a : Nat) (v : Byte) (m : Memory) (b : Nat) (h : ∀ c ∈ m, c.1 ≠ a) :
    (Memory.place a v m).read b = if b = a then v else m.read b := by
  induction m with
  | nil => simp [Memory.place, Memory.read_cons, eq_comm]
  | cons c m ih =>
    obtain ⟨x, u⟩ := c
    have hx : x ≠ a := h (x, u) (by simp)
    have hm : ∀ c ∈ m, c.1 ≠ a := fun c hc => h c (by simp [hc])
    unfold Memory.place
    split
    · simp [Memory.read_cons, eq_comm]
    · rw [Memory.read_cons, ih hm, Memory.read_cons]
      by_cases hb : b = a
      · subst hb; simp [hx]
      · simp [hb]

/-- A byte read after a one-byte write. -/
theorem Memory.read_write (m : Memory) (a : Nat) (v : Byte) (b : Nat) :
    (m.write a v).read b = if b = a then v else m.read b := by
  unfold Memory.write
  split
  · rename_i hv; subst hv; exact Memory.read_erase m a b
  · rw [Memory.read_place _ _ _ _ fun c hc => ((Memory.mem_erase m a c).1 hc).2, Memory.read_erase]
    split <;> rfl

/-- A byte read after a write of a byte sequence: the written byte inside the range, the old one outside. -/
theorem Memory.read_writeBytes (bs : List Byte) (m : Memory) (a b : Nat) :
    (m.writeBytes a bs).read b = if a ≤ b ∧ b < a + bs.length then bs.getD (b - a) fillByte else m.read b := by
  induction bs generalizing m a with
  | nil => rw [if_neg (by simp)]; rfl
  | cons v bs ih =>
    show ((m.write a v).writeBytes (a + 1) bs).read b = _
    rw [ih, Memory.read_write]
    by_cases h1 : b = a
    · subst h1; simp
    · by_cases h2 : a + 1 ≤ b ∧ b < a + 1 + bs.length
      · rw [if_pos h2, if_pos (by simp; omega)]
        obtain ⟨k, hk⟩ : ∃ k, b - a = k + 1 := ⟨b - a - 1, by omega⟩
        have hk' : b - (a + 1) = k := by omega
        rw [hk, hk', List.getD_cons_succ]
      · rw [if_neg h2, if_neg h1, if_neg (by simp; omega)]

theorem Memory.read_writeBytes_outside (bs : List Byte) (m : Memory) (a b : Nat) (h : b < a ∨ a + bs.length ≤ b) :
    (m.writeBytes a bs).read b = m.read b := by
  rw [Memory.read_writeBytes, if_neg (by omega)]

@[simp] theorem Memory.writeBytes_nil (m : Memory) (a : Nat) : m.writeBytes a [] = m := rfl

@[simp] theorem Memory.length_readBytes (m : Memory) (a n : Nat) : (m.readBytes a n).length = n := by
  induction n generalizing a with
  | zero => rfl
  | succ n ih => simp [Memory.readBytes, ih]

theorem Memory.readBytes_congr (m m' : Memory) (a n : Nat) (h : ∀ b, a ≤ b → b < a + n → m.read b = m'.read b) :
    m.readBytes a n = m'.readBytes a n := by
  induction n generalizing a with
  | zero => rfl
  | succ n ih =>
    simp only [Memory.readBytes]
    rw [h a (by omega) (by omega), ih (a + 1) fun b h1 h2 => h b (by omega) (by omega)]

/-- What was written is read back. -/
theorem Memory.readBytes_writeBytes (bs : List Byte) (m : Memory) (a : Nat) :
    (m.writeBytes a bs).readBytes a bs.length = bs := by
  induction bs generalizing m a with
  | nil => rfl
  | cons v bs ih =>
    show Memory.read (Memory.writeBytes (m.write a v) (a + 1) bs) a ::
      Memory.readBytes (Memory.writeBytes (m.write a v) (a + 1) bs) (a + 1) bs.length = v :: bs
    rw [ih, Memory.read_writeBytes_outside _ _ _ _ (by omega), Memory.read_write]
    simp

theorem Memory.readWord_congr (m m' : Memory) (a : Nat) (h : ∀ b, a ≤ b → b < a + 4 → m.read b = m'.read b) :
    m.readWord a = m'.readWord a := by
  simp only [Memory.readWord]
  rw [h a (by omega) (by omega), h (a + 1) (by omega) (by omega), h (a + 2) (by omega) (by omega),
    h (a + 3) (by omega) (by omega)]

theorem Memory.readWords_congr (m m' : Memory) (a n : Nat) (h : ∀ b, a ≤ b → b < a + 4 * n → m.read b = m'.read b) :
    m.readWords a n = m'.readWords a n := by
  induction n generalizing a with
  | zero => rfl
  | succ n ih =>
    simp only [Memory.readWords]
    rw [Memory.readWord_congr m m' a fun b h1 h2 => h b (by omega) (by omega),
      ih (a + 4) fun b h1 h2 => h b (by omega) (by omega)]

theorem Memory.readPairs_congr (m m' : Memory) (a n : Nat) (h : ∀ b, a ≤ b → b < a + 8 * n → m.read b = m'.read b) :
    m.readPairs a n = m'.readPairs a n := by
  induction n generalizing a with
  | zero => rfl
  | succ n ih =>
    simp only [Memory.readPairs]
    rw [Memory.readWord_congr m m' a fun b h1 h2 => h b (by omega) (by omega),
      Memory.readWord_congr m m' (a + 4) fun b h1 h2 => h b (by omega) (by omega),
      ih (a + 8) fun b h1 h2 => h b (by omega) (by omega)]

@[simp] theorem Memory.length_readWords (m : Memory) (a n : Nat) : (m.readWords a n).length = n := by
  induction n generalizing a with
  | zero => rfl
  | succ n ih => simp [Memory.readWords, ih]

@[simp] theorem Memory.length_readPairs (m : Memory) (a n : Nat) : (m.readPairs a n).length = n := by
  induction n generalizing a with
  | zero => rfl
  | succ n ih => simp [Memory.readPairs, ih]

theorem Memory.readWords_lt (m : Memory) (a n v : Nat) (h : v ∈ m.readWords a n) : v < 4294967296 := by
  induction n generalizing a with
  | zero => simp [Memory.readWords] at h
  | succ n ih =>
    simp only [Memory.readWords, List.mem_cons] at h
    rcases h with rfl | h
    · exact (m.readWord a).isLt
    · exact ih _ h

/-- The addresses of a memory are strictly rising. -/
theorem Memory.rising_iff (m : Memory) : m.rising = true ↔ (m.map Prod.fst).Pairwise (· < ·) := by
  induction m with
  | nil => simp [Memory.rising]
  | cons c m ih =>
    cases m with
    | nil => simp [Memory.rising]
    | cons d m =>
      simp only [Memory.rising, Bool.and_eq_true, decide_eq_true_eq, ih, List.map_cons]
      constructor
      · rintro ⟨h, hp⟩
        refine List.Pairwise.cons ?_ hp
        intro x hx
        rcases List.mem_cons.1 hx with rfl | hx
        · exact h
        · exact lt_trans h ((List.pairwise_cons.1 hp).1 x hx)
      · intro hp
        exact ⟨(List.pairwise_cons.1 hp).1 _ (by simp), (List.pairwise_cons.1 hp).2⟩

theorem Memory.mem_place (a : Nat) (v : Byte) (m : Memory) (c : Host.Cell) :
    c ∈ Memory.place a v m ↔ c = (a, v) ∨ c ∈ m := by
  induction m with
  | nil => simp [Memory.place]
  | cons d m ih =>
    obtain ⟨x, u⟩ := d
    unfold Memory.place
    split
    · simp
    · simp only [List.mem_cons, ih]
      tauto

theorem Memory.pairwise_place (a : Nat) (v : Byte) (m : Memory) (h : ∀ c ∈ m, c.1 ≠ a)
    (hm : (m.map Prod.fst).Pairwise (· < ·)) : ((Memory.place a v m).map Prod.fst).Pairwise (· < ·) := by
  induction m with
  | nil => simp [Memory.place]
  | cons d m ih =>
    obtain ⟨x, u⟩ := d
    have hx : x ≠ a := h (x, u) (by simp)
    rw [List.map_cons, List.pairwise_cons] at hm
    unfold Memory.place
    split
    · rename_i hlt
      simp only [List.map_cons, List.pairwise_cons, List.mem_cons]
      refine ⟨?_, hm⟩
      rintro y (rfl | hy)
      · exact hlt
      · exact lt_trans hlt (hm.1 y hy)
    · rename_i hlt
      rw [List.map_cons, List.pairwise_cons]
      refine ⟨?_, ih (fun c hc => h c (by simp [hc])) hm.2⟩
      intro y hy
      obtain ⟨c, hc, rfl⟩ := List.mem_map.1 hy
      rcases (Memory.mem_place a v m c).1 hc with rfl | hc
      · simp only; omega
      · exact hm.1 _ (List.mem_map_of_mem hc)

theorem Memory.wf_iff (m : Memory) :
    m.wf = true ↔ (m.map Prod.fst).Pairwise (· < ·) ∧ ∀ c ∈ m, c.2 ≠ fillByte := by
  simp [Memory.wf, Memory.rising_iff]

/-- A write keeps the canonical form. -/
theorem Memory.wf_write (m : Memory) (a : Nat) (v : Byte) (h : m.wf = true) : (m.write a v).wf = true := by
  rw [Memory.wf_iff] at h
  have he : (m.erase a).wf = true := by
    rw [Memory.wf_iff]
    refine ⟨?_, fun c hc => h.2 c ((Memory.mem_erase m a c).1 hc).1⟩
    exact h.1.sublist (List.Sublist.map _ List.filter_sublist)
  unfold Memory.write
  split
  · exact he
  · rename_i hv
    rw [Memory.wf_iff] at he ⊢
    refine ⟨Memory.pairwise_place _ _ _ (fun c hc => ((Memory.mem_erase m a c).1 hc).2) he.1, ?_⟩
    intro c hc
    rcases (Memory.mem_place _ _ _ c).1 hc with rfl | hc
    · exact hv
    · exact he.2 c hc

/-- A write of a byte sequence keeps the canonical form. -/
theorem Memory.wf_writeBytes (bs : List Byte) (m : Memory) (a : Nat) (h : m.wf = true) :
    (m.writeBytes a bs).wf = true := by
  induction bs generalizing m a with
  | nil => exact h
  | cons v bs ih => exact ih _ _ (Memory.wf_write m a v h)

theorem Memory.below_iff (m : Memory) (n : Nat) : m.below n = true ↔ ∀ c ∈ m, c.1 < n := by
  simp [Memory.below]

/-- A write below `n` keeps every listed address below `n`. -/
theorem Memory.below_write (m : Memory) (a : Nat) (v : Byte) (n : Nat) (h : m.below n = true) (ha : a < n) :
    (m.write a v).below n = true := by
  rw [Memory.below_iff] at h ⊢
  intro c hc
  unfold Memory.write at hc
  split at hc
  · exact h c ((Memory.mem_erase m a c).1 hc).1
  · rcases (Memory.mem_place _ _ _ c).1 hc with rfl | hc
    · exact ha
    · exact h c ((Memory.mem_erase m a c).1 hc).1

/-- A write of a byte sequence that ends at or below `n`, or is empty, keeps every listed address below `n`. -/
theorem Memory.below_writeBytes (bs : List Byte) (m : Memory) (a n : Nat) (h : m.below n = true)
    (ha : bs = [] ∨ a + bs.length ≤ n) : (m.writeBytes a bs).below n = true := by
  induction bs generalizing m a with
  | nil => exact h
  | cons v bs ih =>
    have ha' : a + (bs.length + 1) ≤ n := by simpa using ha
    exact ih _ _ (Memory.below_write m a v n h (by omega)) (.inr (by omega))

end Sys2Proof.Machine
end

