-- ==== Sys2Proof/Laws/Bytes.lean ====
section
/-! SUPPORT. Words and bytes are inverse, and words written to memory are read back. -/

namespace Sys2Proof.Machine

@[simp] theorem length_wordBytes (w : Word) : (wordBytes w).length = 4 := rfl

theorem bytesWord_wordBytes (w : Word) :
    bytesWord (w.extractLsb' 0 8) (w.extractLsb' 8 8) (w.extractLsb' 16 8) (w.extractLsb' 24 8) = w := by
  unfold bytesWord
  ext i hi
  simp only [BitVec.getElem_append, BitVec.getElem_extractLsb']
  simp only [← BitVec.getLsbD_eq_getElem]
  split
  · simp
  · split
    · congr 1; omega
    · split <;> congr 1 <;> omega

@[simp] theorem wordsBytes_nil : wordsBytes [] = [] := rfl

@[simp] theorem wordsBytes_cons (v : Nat) (vs : List Nat) :
    wordsBytes (v :: vs) = wordBytes (BitVec.ofNat 32 v) ++ wordsBytes vs := rfl

@[simp] theorem length_wordsBytes (vs : List Nat) : (wordsBytes vs).length = 4 * vs.length := by
  induction vs with
  | nil => rfl
  | cons v vs ih => simp [ih]; omega

theorem Memory.writeBytes_append (as bs : List Byte) (m : Memory) (a : Nat) :
    m.writeBytes a (as ++ bs) = (m.writeBytes a as).writeBytes (a + as.length) bs := by
  induction as generalizing m a with
  | nil => rfl
  | cons v as ih =>
    show Memory.writeBytes (m.write a v) (a + 1) (as ++ bs) = _
    rw [ih]
    show _ = Memory.writeBytes (Memory.writeBytes (m.write a v) (a + 1) as) (a + (as.length + 1)) bs
    congr 1; omega

/-- A word written is read back. -/
theorem Memory.readWord_writeBytes_wordBytes (m : Memory) (a : Nat) (w : Word) :
    (m.writeBytes a (wordBytes w)).readWord a = w := by
  have h := Memory.readBytes_writeBytes (wordBytes w) m a
  rw [length_wordBytes] at h
  simp only [Memory.readBytes, wordBytes, List.cons.injEq, and_true] at h
  obtain ⟨h0, h1, h2, h3⟩ := h
  unfold Memory.readWord
  simp only [wordBytes]
  rw [h0, h1, show a + 2 = a + 1 + 1 from rfl, h2, show a + 3 = a + 1 + 1 + 1 from rfl, h3]
  exact bytesWord_wordBytes w

/-- Words written are read back. -/
theorem Memory.readWords_writeBytes_wordsBytes (vs : List Nat) (m : Memory) (a : Nat)
    (h : ∀ v ∈ vs, v < 4294967296) : (m.writeBytes a (wordsBytes vs)).readWords a vs.length = vs := by
  induction vs generalizing m a with
  | nil => rfl
  | cons v vs ih =>
    have hv : v < 4294967296 := h v (by simp)
    simp only [wordsBytes_cons, Memory.writeBytes_append, length_wordBytes, List.length_cons, Memory.readWords]
    rw [ih _ _ fun x hx => h x (by simp [hx])]
    rw [Memory.readWord_congr _ (m.writeBytes a (wordBytes (BitVec.ofNat 32 v))) a fun b h1 h2 =>
        Memory.read_writeBytes_outside _ _ _ _ (.inl h2),
      Memory.readWord_writeBytes_wordBytes, BitVec.toNat_ofNat, Nat.mod_eq_of_lt (by simpa using hv)]

end Sys2Proof.Machine
end

