-- ==== Sys2Proof/Laws/State.lean ====
section
/-! SUPPORT. One lemma per field per named update of State, so that no later proof unfolds a record update. -/

namespace Sys2Proof.Machine

/-! Fields after `finishCommand`. -/

@[simp] theorem finishCommand_config (s : State) : (finishCommand s).config = s.config := rfl
@[simp] theorem finishCommand_irqEn (s : State) : (finishCommand s).irqEn = s.irqEn := rfl
@[simp] theorem finishCommand_cmd (s : State) : (finishCommand s).cmd = s.cmd := rfl
@[simp] theorem finishCommand_done (s : State) : (finishCommand s).done = true := rfl
@[simp] theorem finishCommand_rejected (s : State) : (finishCommand s).rejected = s.rejected := rfl
@[simp] theorem finishCommand_errCode (s : State) : (finishCommand s).errCode = s.errCode := rfl
@[simp] theorem finishCommand_errPos (s : State) : (finishCommand s).errPos = s.errPos := rfl
@[simp] theorem finishCommand_operands (s : State) : (finishCommand s).operands = s.operands := rfl
@[simp] theorem finishCommand_dstLen (s : State) : (finishCommand s).dstLen = s.dstLen := rfl
@[simp] theorem finishCommand_dst2Len (s : State) : (finishCommand s).dst2Len = s.dst2Len := rfl
@[simp] theorem finishCommand_statOrig (s : State) : (finishCommand s).statOrig = s.statOrig := rfl
@[simp] theorem finishCommand_statComp (s : State) : (finishCommand s).statComp = s.statComp := rfl
@[simp] theorem finishCommand_statCycles (s : State) : (finishCommand s).statCycles = Config.freeCycles s.draws := rfl
@[simp] theorem finishCommand_running (s : State) : (finishCommand s).running = none := rfl
@[simp] theorem finishCommand_mem (s : State) : (finishCommand s).mem = s.mem := rfl
@[simp] theorem finishCommand_host (s : State) : (finishCommand s).host = s.host := rfl
@[simp] theorem finishCommand_schedule (s : State) : (finishCommand s).schedule = s.schedule := rfl
@[simp] theorem finishCommand_hostWord (s : State) : (finishCommand s).hostWord = s.hostWord := rfl
@[simp] theorem finishCommand_hostBytes (s : State) : (finishCommand s).hostBytes = s.hostBytes := rfl
@[simp] theorem finishCommand_draws (s : State) : (finishCommand s).draws = s.draws + 1 := rfl

/-! Fields after `completeErr`. -/

@[simp] theorem completeErr_config (e : Raise) (s : State) : (completeErr e s).config = s.config := rfl
@[simp] theorem completeErr_irqEn (e : Raise) (s : State) : (completeErr e s).irqEn = s.irqEn := rfl
@[simp] theorem completeErr_cmd (e : Raise) (s : State) : (completeErr e s).cmd = s.cmd := rfl
@[simp] theorem completeErr_done (e : Raise) (s : State) : (completeErr e s).done = true := rfl
@[simp] theorem completeErr_rejected (e : Raise) (s : State) : (completeErr e s).rejected = s.rejected := rfl
@[simp] theorem completeErr_errCode (e : Raise) (s : State) : (completeErr e s).errCode = errCodeOf e.err := rfl
@[simp] theorem completeErr_errPos (e : Raise) (s : State) : (completeErr e s).errPos = BitVec.ofNat 32 e.pos := rfl
@[simp] theorem completeErr_operands (e : Raise) (s : State) : (completeErr e s).operands = s.operands := rfl
@[simp] theorem completeErr_dstLen (e : Raise) (s : State) : (completeErr e s).dstLen = 0 := rfl
@[simp] theorem completeErr_dst2Len (e : Raise) (s : State) : (completeErr e s).dst2Len = 0 := rfl
@[simp] theorem completeErr_statOrig (e : Raise) (s : State) : (completeErr e s).statOrig = 0 := rfl
@[simp] theorem completeErr_statComp (e : Raise) (s : State) : (completeErr e s).statComp = 0 := rfl
@[simp] theorem completeErr_statCycles (e : Raise) (s : State) : (completeErr e s).statCycles = Config.freeCycles s.draws := rfl
@[simp] theorem completeErr_running (e : Raise) (s : State) : (completeErr e s).running = none := rfl
@[simp] theorem completeErr_mem (e : Raise) (s : State) : (completeErr e s).mem = s.mem := rfl
@[simp] theorem completeErr_host (e : Raise) (s : State) : (completeErr e s).host = s.host := rfl
@[simp] theorem completeErr_schedule (e : Raise) (s : State) : (completeErr e s).schedule = s.schedule := rfl
@[simp] theorem completeErr_hostWord (e : Raise) (s : State) : (completeErr e s).hostWord = s.hostWord := rfl
@[simp] theorem completeErr_hostBytes (e : Raise) (s : State) : (completeErr e s).hostBytes = s.hostBytes := rfl
@[simp] theorem completeErr_draws (e : Raise) (s : State) : (completeErr e s).draws = s.draws + 1 := rfl

/-! Fields after `completeOk`. -/

@[simp] theorem completeOk_config (r : Results) (o : Operands) (s : State) : (completeOk r o s).config = s.config := rfl
@[simp] theorem completeOk_irqEn (r : Results) (o : Operands) (s : State) : (completeOk r o s).irqEn = s.irqEn := rfl
@[simp] theorem completeOk_cmd (r : Results) (o : Operands) (s : State) : (completeOk r o s).cmd = s.cmd := rfl
@[simp] theorem completeOk_done (r : Results) (o : Operands) (s : State) : (completeOk r o s).done = true := rfl
@[simp] theorem completeOk_rejected (r : Results) (o : Operands) (s : State) : (completeOk r o s).rejected = s.rejected := rfl
@[simp] theorem completeOk_errCode (r : Results) (o : Operands) (s : State) : (completeOk r o s).errCode = 0 := rfl
@[simp] theorem completeOk_errPos (r : Results) (o : Operands) (s : State) : (completeOk r o s).errPos = 0 := rfl
@[simp] theorem completeOk_operands (r : Results) (o : Operands) (s : State) : (completeOk r o s).operands = s.operands := rfl
@[simp] theorem completeOk_dstLen (r : Results) (o : Operands) (s : State) : (completeOk r o s).dstLen = BitVec.ofNat 32 r.dst.length := rfl
@[simp] theorem completeOk_dst2Len (r : Results) (o : Operands) (s : State) : (completeOk r o s).dst2Len = BitVec.ofNat 32 r.dst2.length := rfl
@[simp] theorem completeOk_statOrig (r : Results) (o : Operands) (s : State) : (completeOk r o s).statOrig = BitVec.ofNat 32 r.orig := rfl
@[simp] theorem completeOk_statComp (r : Results) (o : Operands) (s : State) : (completeOk r o s).statComp = BitVec.ofNat 32 r.comp := rfl
@[simp] theorem completeOk_statCycles (r : Results) (o : Operands) (s : State) : (completeOk r o s).statCycles = Config.freeCycles s.draws := rfl
@[simp] theorem completeOk_running (r : Results) (o : Operands) (s : State) : (completeOk r o s).running = none := rfl
@[simp] theorem completeOk_mem (r : Results) (o : Operands) (s : State) : (completeOk r o s).mem = (s.mem.writeBytes o.dstAddr.toNat r.dst).writeBytes o.dst2Addr.toNat r.dst2 := rfl
@[simp] theorem completeOk_host (r : Results) (o : Operands) (s : State) : (completeOk r o s).host = s.host := rfl
@[simp] theorem completeOk_schedule (r : Results) (o : Operands) (s : State) : (completeOk r o s).schedule = s.schedule := rfl
@[simp] theorem completeOk_hostWord (r : Results) (o : Operands) (s : State) : (completeOk r o s).hostWord = s.hostWord := rfl
@[simp] theorem completeOk_hostBytes (r : Results) (o : Operands) (s : State) : (completeOk r o s).hostBytes = s.hostBytes := rfl
@[simp] theorem completeOk_draws (r : Results) (o : Operands) (s : State) : (completeOk r o s).draws = s.draws + 1 := rfl

/-! Fields after `acceptGo`. -/

@[simp] theorem acceptGo_config (w : Word) (s : State) : (acceptGo w s).config = s.config := rfl
@[simp] theorem acceptGo_irqEn (w : Word) (s : State) : (acceptGo w s).irqEn = s.irqEn := rfl
@[simp] theorem acceptGo_cmd (w : Word) (s : State) : (acceptGo w s).cmd = w.extractLsb' 0 31 := rfl
@[simp] theorem acceptGo_done (w : Word) (s : State) : (acceptGo w s).done = false := rfl
@[simp] theorem acceptGo_rejected (w : Word) (s : State) : (acceptGo w s).rejected = s.rejected := rfl
@[simp] theorem acceptGo_errCode (w : Word) (s : State) : (acceptGo w s).errCode = 0 := rfl
@[simp] theorem acceptGo_errPos (w : Word) (s : State) : (acceptGo w s).errPos = 0 := rfl
@[simp] theorem acceptGo_operands (w : Word) (s : State) : (acceptGo w s).operands = s.operands := rfl
@[simp] theorem acceptGo_dstLen (w : Word) (s : State) : (acceptGo w s).dstLen = 0 := rfl
@[simp] theorem acceptGo_dst2Len (w : Word) (s : State) : (acceptGo w s).dst2Len = 0 := rfl
@[simp] theorem acceptGo_statOrig (w : Word) (s : State) : (acceptGo w s).statOrig = 0 := rfl
@[simp] theorem acceptGo_statComp (w : Word) (s : State) : (acceptGo w s).statComp = 0 := rfl
@[simp] theorem acceptGo_statCycles (w : Word) (s : State) : (acceptGo w s).statCycles = 0 := rfl
@[simp] theorem acceptGo_running (w : Word) (s : State) : (acceptGo w s).running = some { cmd := w.extractLsb' 0 31, operands := s.operands } := rfl
@[simp] theorem acceptGo_mem (w : Word) (s : State) : (acceptGo w s).mem = s.mem := rfl
@[simp] theorem acceptGo_host (w : Word) (s : State) : (acceptGo w s).host = s.host := rfl
@[simp] theorem acceptGo_schedule (w : Word) (s : State) : (acceptGo w s).schedule = s.schedule := rfl
@[simp] theorem acceptGo_hostWord (w : Word) (s : State) : (acceptGo w s).hostWord = s.hostWord := rfl
@[simp] theorem acceptGo_hostBytes (w : Word) (s : State) : (acceptGo w s).hostBytes = s.hostBytes := rfl
@[simp] theorem acceptGo_draws (w : Word) (s : State) : (acceptGo w s).draws = s.draws := rfl

/-! Fields after `writeStatus`. -/

@[simp] theorem writeStatus_config (v : Word) (s : State) : (writeStatus v s).config = s.config := rfl
@[simp] theorem writeStatus_irqEn (v : Word) (s : State) : (writeStatus v s).irqEn = s.irqEn := rfl
@[simp] theorem writeStatus_cmd (v : Word) (s : State) : (writeStatus v s).cmd = s.cmd := rfl
@[simp] theorem writeStatus_done (v : Word) (s : State) : (writeStatus v s).done = (s.done && !v.getLsbD 1) := rfl
@[simp] theorem writeStatus_rejected (v : Word) (s : State) : (writeStatus v s).rejected = (s.rejected && !v.getLsbD 3) := rfl
@[simp] theorem writeStatus_errCode (v : Word) (s : State) : (writeStatus v s).errCode = s.errCode := rfl
@[simp] theorem writeStatus_errPos (v : Word) (s : State) : (writeStatus v s).errPos = s.errPos := rfl
@[simp] theorem writeStatus_operands (v : Word) (s : State) : (writeStatus v s).operands = s.operands := rfl
@[simp] theorem writeStatus_dstLen (v : Word) (s : State) : (writeStatus v s).dstLen = s.dstLen := rfl
@[simp] theorem writeStatus_dst2Len (v : Word) (s : State) : (writeStatus v s).dst2Len = s.dst2Len := rfl
@[simp] theorem writeStatus_statOrig (v : Word) (s : State) : (writeStatus v s).statOrig = s.statOrig := rfl
@[simp] theorem writeStatus_statComp (v : Word) (s : State) : (writeStatus v s).statComp = s.statComp := rfl
@[simp] theorem writeStatus_statCycles (v : Word) (s : State) : (writeStatus v s).statCycles = s.statCycles := rfl
@[simp] theorem writeStatus_running (v : Word) (s : State) : (writeStatus v s).running = s.running := rfl
@[simp] theorem writeStatus_mem (v : Word) (s : State) : (writeStatus v s).mem = s.mem := rfl
@[simp] theorem writeStatus_host (v : Word) (s : State) : (writeStatus v s).host = s.host := rfl
@[simp] theorem writeStatus_schedule (v : Word) (s : State) : (writeStatus v s).schedule = s.schedule := rfl
@[simp] theorem writeStatus_hostWord (v : Word) (s : State) : (writeStatus v s).hostWord = s.hostWord := rfl
@[simp] theorem writeStatus_hostBytes (v : Word) (s : State) : (writeStatus v s).hostBytes = s.hostBytes := rfl
@[simp] theorem writeStatus_draws (v : Word) (s : State) : (writeStatus v s).draws = s.draws := rfl

/-! Fields after `resetRegisters`. -/

@[simp] theorem resetRegisters_config (s : State) : (resetRegisters s).config = s.config := rfl
@[simp] theorem resetRegisters_irqEn (s : State) : (resetRegisters s).irqEn = false := rfl
@[simp] theorem resetRegisters_cmd (s : State) : (resetRegisters s).cmd = 0 := rfl
@[simp] theorem resetRegisters_done (s : State) : (resetRegisters s).done = false := rfl
@[simp] theorem resetRegisters_rejected (s : State) : (resetRegisters s).rejected = false := rfl
@[simp] theorem resetRegisters_errCode (s : State) : (resetRegisters s).errCode = 0 := rfl
@[simp] theorem resetRegisters_errPos (s : State) : (resetRegisters s).errPos = 0 := rfl
@[simp] theorem resetRegisters_operands (s : State) : (resetRegisters s).operands = Operands.reset := rfl
@[simp] theorem resetRegisters_dstLen (s : State) : (resetRegisters s).dstLen = 0 := rfl
@[simp] theorem resetRegisters_dst2Len (s : State) : (resetRegisters s).dst2Len = 0 := rfl
@[simp] theorem resetRegisters_statOrig (s : State) : (resetRegisters s).statOrig = 0 := rfl
@[simp] theorem resetRegisters_statComp (s : State) : (resetRegisters s).statComp = 0 := rfl
@[simp] theorem resetRegisters_statCycles (s : State) : (resetRegisters s).statCycles = 0 := rfl
@[simp] theorem resetRegisters_running (s : State) : (resetRegisters s).running = none := rfl
@[simp] theorem resetRegisters_mem (s : State) : (resetRegisters s).mem = s.mem := rfl
@[simp] theorem resetRegisters_host (s : State) : (resetRegisters s).host = s.host := rfl
@[simp] theorem resetRegisters_schedule (s : State) : (resetRegisters s).schedule = s.schedule := rfl
@[simp] theorem resetRegisters_hostWord (s : State) : (resetRegisters s).hostWord = s.hostWord := rfl
@[simp] theorem resetRegisters_hostBytes (s : State) : (resetRegisters s).hostBytes = s.hostBytes := rfl
@[simp] theorem resetRegisters_draws (s : State) : (resetRegisters s).draws = s.draws := rfl

end Sys2Proof.Machine
end

