-- ==== Sys2Proof/Laws/Ops.lean ====
section
/-! SUPPORT. What each shared operation can do, said once: the running of a command, the spoiling of ranges, register writes, host
operations, and a step. -/

namespace Sys2Proof.Machine

/-! ### Running a command -/

/-- Every meaning is the shared operation on the command's buffers and its own processing. -/
theorem exec_eq_runCommand (i : Instr) (s : State) : exec i s = runCommand (useOf i) (bodyOf i) s := by
  cases i <;> rfl

/-- What running a command can do. -/
theorem runCommand_cases (u : Use) (body : Operands → Memory → Except Raise Results) (s : State) :
    (s.running = none ∧ runCommand u body s = .refused .noCommandRunning) ∨
    (∃ l e, s.running = some l ∧ commonChecks u s.config l.operands = some e ∧
      runCommand u body s = .next (completeErr (raise0 e) s)) ∨
    (∃ l e, s.running = some l ∧ commonChecks u s.config l.operands = none ∧ body l.operands s.mem = .error e ∧
      runCommand u body s =
        .next (completeErr e { s with mem := spoilRanges s.draws s.mem (dstRanges u l.operands) })) ∨
    (∃ l r, s.running = some l ∧ commonChecks u s.config l.operands = none ∧ body l.operands s.mem = .ok r ∧
      runCommand u body s = .next (completeOk r l.operands s)) := by
  unfold runCommand
  cases hl : s.running with
  | none => exact .inl ⟨rfl, rfl⟩
  | some l =>
    refine .inr ?_
    cases hc : commonChecks u s.config l.operands with
    | some e => exact .inl ⟨l, e, rfl, hc, by simp [hc]⟩
    | none =>
      refine .inr ?_
      cases hb : body l.operands s.mem with
      | error e => exact .inl ⟨l, e, rfl, hc, hb, by simp [hc, hb]⟩
      | ok r => exact .inr ⟨l, r, rfl, hc, hb, by simp [hc, hb]⟩

theorem runCommand_of_ok {u : Use} {body : Operands → Memory → Except Raise Results} {s : State} {l : Latched}
    {r : Results} (hl : s.running = some l) (hc : commonChecks u s.config l.operands = none)
    (hb : body l.operands s.mem = .ok r) : runCommand u body s = .next (completeOk r l.operands s) := by
  simp [runCommand, hl, hc, hb]

theorem runCommand_of_error {u : Use} {body : Operands → Memory → Except Raise Results} {s : State} {l : Latched}
    {e : Raise} (hl : s.running = some l) (hc : commonChecks u s.config l.operands = none)
    (hb : body l.operands s.mem = .error e) :
    runCommand u body s =
      .next (completeErr e { s with mem := spoilRanges s.draws s.mem (dstRanges u l.operands) }) := by
  simp [runCommand, hl, hc, hb]

theorem runCommand_of_check {u : Use} {body : Operands → Memory → Except Raise Results} {s : State} {l : Latched}
    {e : Err} (hl : s.running = some l) (hc : commonChecks u s.config l.operands = some e) :
    runCommand u body s = .next (completeErr (raise0 e) s) := by
  simp [runCommand, hl, hc]

/-! ### Spoiled ranges -/

@[simp] theorem length_freeBytes (n : Nat) (r : Range) : (freeBytes n r).length = r.len := by simp [freeBytes]

theorem Range.has_iff (r : Range) (a : Nat) : r.has a = true ↔ r.addr ≤ a ∧ a < r.addr + r.len := by
  simp [Range.has]

/-- A byte outside every spoiled range reads as before. -/
theorem read_spoilRanges (n : Nat) (m : Memory) (rs : List Range) (a : Nat) (h : inRanges rs a = false) :
    (spoilRanges n m rs).read a = m.read a := by
  induction rs generalizing m with
  | nil => rfl
  | cons r rs ih =>
    simp only [inRanges, List.any_cons, Bool.or_eq_false_iff] at h
    show (spoilRanges n (spoilRange n m r) rs).read a = _
    rw [ih _ h.2]
    have hr : ¬(r.addr ≤ a ∧ a < r.addr + r.len) := fun hh => by
      rw [← Range.has_iff, h.1] at hh; exact absurd hh (by simp)
    exact Memory.read_writeBytes_outside _ _ _ _ (by rw [length_freeBytes]; omega)

/-- Spoiling keeps the canonical form. -/
theorem wf_spoilRanges (n : Nat) (m : Memory) (rs : List Range) (h : m.wf = true) :
    (spoilRanges n m rs).wf = true := by
  induction rs generalizing m with
  | nil => exact h
  | cons r rs ih => exact ih _ (Memory.wf_writeBytes _ _ _ h)

/-- Spoiling valid ranges of a memory of `k` bytes lists nothing at or beyond `k`. -/
theorem below_spoilRanges (n k : Nat) (m : Memory) (rs : List Range) (h : m.below k = true)
    (hv : ∀ r ∈ rs, r.valid k = true) : (spoilRanges n m rs).below k = true := by
  induction rs generalizing m with
  | nil => exact h
  | cons r rs ih =>
    refine ih _ (Memory.below_writeBytes _ _ _ _ h ?_) fun q hq => hv q (by simp [hq])
    have hr := hv r (by simp)
    simp only [Range.valid, Bool.or_eq_true, beq_iff_eq, decide_eq_true_eq] at hr
    rw [length_freeBytes]
    rcases hr with hr | hr
    · exact .inl (List.eq_nil_of_length_eq_zero (by simp [hr]))
    · exact .inr hr

/-! ### Registers -/

@[simp] theorem regAt_offsetOf (r : Reg) : regAt (offsetOf r) = some r := by cases r <;> rfl

/-- A register is at its own offset only. -/
theorem regAt_eq_some (off : Nat) (r : Reg) (h : regAt off = some r) : off = offsetOf r := by
  unfold regAt at h
  split at h <;> first | (cases h; rfl) | (exact absurd h (by simp))

/-- What a write of an operand register can do. -/
theorem writeOperand_cases (f : Operands → Operands) (s : State) :
    writeOperand f s = s ∨ (s.busy = false ∧ ∃ o, writeOperand f s = { s with operands := o }) := by
  unfold writeOperand
  cases hb : s.busy
  · exact .inr ⟨rfl, _, rfl⟩
  · exact .inl rfl

/-- What a write of a register can do. -/
theorem writeReg_cases (r : Reg) (v : Word) (s : State) :
    writeReg r v s = s ∨ writeReg r v s = softReset s ∨ writeReg r v s = { s with irqEn := v.getLsbD 0 } ∨
    (s.busy = true ∧ writeReg r v s = { s with rejected := true }) ∨
    (s.busy = false ∧ v.getLsbD 31 = true ∧ writeReg r v s = acceptGo v s) ∨
    (s.busy = false ∧ writeReg r v s = { s with cmd := v.extractLsb' 0 31 }) ∨
    writeReg r v s = writeStatus v s ∨
    (s.busy = false ∧ ∃ o, writeReg r v s = { s with operands := o }) := by
  cases r
  case ctrl => simp only [writeReg, writeCtrl]; split <;> simp
  case cmd =>
    unfold writeReg writeCmd
    cases hb : s.busy <;> cases hv : v.getLsbD 31 <;> simp
  case status => simp [writeReg]
  all_goals first
    | exact .inl rfl
    | (unfold writeReg
       rcases writeOperand_cases _ s with h | h
       · exact .inl h
       · exact .inr (.inr (.inr (.inr (.inr (.inr (.inr h)))))))

/-! ### Host operations -/

/-- Where no byte of an access is in a range. -/
theorem touches_eq_false_iff (rs : List Range) (a n : Nat) :
    touches rs a n = false ↔ ∀ b, a ≤ b → b < a + n → inRanges rs b = false := by
  simp only [touches, List.any_eq_false, List.mem_range, Bool.not_eq_true]
  constructor
  · intro h b h1 h2
    have := h (b - a) (by omega)
    rwa [show a + (b - a) = b by omega] at this
  · intro h k hk
    exact h _ (by omega) (by omega)

/-- What a host operation can do when it is carried out. -/
theorem hostOperation_next {op : HostOp} {s t : State} (h : hostOperation op s = .next t) :
    (∃ off v, t = writeOffset off v s) ∨ (∃ w, t = { s with hostWord := w }) ∨
    (∃ w, t = { s with hostWord := w, host := op :: s.host }) ∨
    (∃ a bs, t = { s with mem := s.mem.writeBytes a bs } ∧ insideMemory s.config a bs.length = true ∧
      touches (busyRanges s) a bs.length = false) ∨
    (∃ bs, t = { s with hostBytes := bs }) ∨ t = powerOnReset s := by
  cases op with
  | writeReg addr width v =>
    unfold hostOperation at h
    cases hr : regOffset s.config addr width with
    | error r => simp [hr] at h
    | ok off => simp only [hr, Host.Outcome.next.injEq] at h; exact .inl ⟨off, v, h.symm⟩
  | readReg addr width =>
    unfold hostOperation at h
    cases hr : regOffset s.config addr width with
    | error r => simp [hr] at h
    | ok off => simp only [hr, Host.Outcome.next.injEq] at h; exact .inr (.inl ⟨_, h.symm⟩)
  | poll addr mask v =>
    unfold hostOperation at h
    cases hr : regOffset s.config addr 4 with
    | error r => simp [hr] at h
    | ok off =>
      simp only [hr] at h
      split at h
      · simp only [Host.Outcome.next.injEq] at h; exact .inr (.inl ⟨_, h.symm⟩)
      · simp only [Host.Outcome.next.injEq] at h; exact .inr (.inr (.inl ⟨_, h.symm⟩))
  | writeMem addr bytes =>
    unfold hostOperation at h
    simp only at h
    split at h
    · simp at h
    · rename_i hi
      split at h
      · simp at h
      · rename_i ht
        simp only [Host.Outcome.next.injEq] at h
        exact .inr (.inr (.inr (.inl ⟨addr, bytes, h.symm, by simpa using hi, by simpa using ht⟩)))
  | readMem addr n =>
    unfold hostOperation at h
    simp only at h
    split at h
    · simp at h
    · split at h
      · simp at h
      · simp only [Host.Outcome.next.injEq] at h
        exact .inr (.inr (.inr (.inr (.inl ⟨_, h.symm⟩))))
  | powerOn =>
    simp only [hostOperation, Host.Outcome.next.injEq] at h
    exact .inr (.inr (.inr (.inr (.inr h.symm))))

/-! ### The step -/

/-- Taking a turn off the schedule changes nothing else. -/
theorem nextTurn_snd (s : State) : ∃ sch, (nextTurn s).2 = { s with schedule := sch } := by
  unfold nextTurn
  split
  · exact ⟨_, rfl⟩
  · exact ⟨s.schedule, rfl⟩

/-- What the engine's turn can do: nothing while IDLE, complete an illegal command, or run the decoded one. -/
theorem engineStep_cases (s : State) :
    (s.running = none ∧ engineStep s = .next s) ∨
    (∃ l e, s.running = some l ∧ decodeCommand l.cmd = .error e ∧ engineStep s = .next (completeIllegal s)) ∨
    (∃ l i, s.running = some l ∧ decodeCommand l.cmd = .ok i ∧ engineStep s = exec i s) := by
  unfold engineStep
  cases hl : s.running with
  | none => exact .inl ⟨rfl, rfl⟩
  | some l =>
    cases hd : decodeCommand l.cmd with
    | error e => exact .inr (.inl ⟨l, e, rfl, hd, by simp [hd]⟩)
    | ok i => exact .inr (.inr ⟨l, i, rfl, hd, by simp [hd]⟩)

/-- What the host's turn can do. -/
theorem hostStep_cases (s : State) :
    (s.host = [] ∧ hostStep s = .next s) ∨
    (∃ op rest, s.host = op :: rest ∧ hostStep s = hostOperation op { s with host := rest }) := by
  unfold hostStep
  cases hh : s.host with
  | nil => exact .inl ⟨rfl, rfl⟩
  | cons op rest => exact .inr ⟨op, rest, rfl, rfl⟩

/-- A step is one turn of one agent, on the state with its schedule advanced. -/
theorem step_cases (s : State) :
    ∃ sch, step s = engineStep { s with schedule := sch } ∨ step s = hostStep { s with schedule := sch } := by
  obtain ⟨sch, h⟩ := nextTurn_snd s
  refine ⟨sch, ?_⟩
  unfold step turnOf
  rw [h]
  cases (nextTurn s).1
  · exact .inr rfl
  · exact .inl rfl

end Sys2Proof.Machine
end

