-- ==== Sys2Proof/Laws/PerInstr.lean ====
section
/-! SUPPORT. Per command: its word's fields are those of its row of opcode_table.json, the word is well formed, and it decodes to the
command. -/

namespace Sys2Proof.Laws.Fields

/-- The word of `i` has GO set, the reserved bits clear, and the FLAGS and OPCODE of `i`; it is well formed; and the decoder
reads `i` from it, as a word and as a row of the table. -/
def Statement (i : Instr) : Prop :=
  i.wf = true ∧ splitWord (encode i) = { go := true, reserved := 0#21, flags := flagsOf i, opcode := opcodeOf i } ∧
    (splitWord (encode i)).wf = true ∧ decodeWord (encode i) = .ok i ∧ decodeTableWord 32 (encode i).toNat = some i

theorem hufCompress : Statement .hufCompress := ⟨rfl, by decide, by decide, rfl, rfl⟩
theorem hufDecompress : Statement .hufDecompress := ⟨rfl, by decide, by decide, rfl, rfl⟩
theorem lzCompressBits : Statement .lzCompressBits := ⟨rfl, by decide, by decide, rfl, rfl⟩
theorem lzCompressText : Statement .lzCompressText := ⟨rfl, by decide, by decide, rfl, rfl⟩
theorem lzCompressBitsText : Statement .lzCompressBitsText := ⟨rfl, by decide, by decide, rfl, rfl⟩
theorem lzDecompressBits : Statement .lzDecompressBits := ⟨rfl, by decide, by decide, rfl, rfl⟩
theorem lzDecompressText : Statement .lzDecompressText := ⟨rfl, by decide, by decide, rfl, rfl⟩
theorem hufLengths : Statement .hufLengths := ⟨rfl, by decide, by decide, rfl, rfl⟩
theorem hufCanon : Statement .hufCanon := ⟨rfl, by decide, by decide, rfl, rfl⟩

end Sys2Proof.Laws.Fields
end

