-- ==== Sys2Proof/Tests/Slice0.lean ====
section
/-! SUPPORT. The model's own tests, with expected results from 95_test_vectors.md and 30_encoding.md, the refusals of the
well-formedness checks, and a witness of the hypotheses of every obligation that has some. -/

namespace Sys2Proof.Tests

open Sys2Proof Sys2Proof.Machine

set_option Elab.async false

/-! ### Helpers -/

/-- The platform of 95_test_vectors.md section 2.8: MEM_BYTES 0x10000. -/
def cfg : Config := { base := 0x40000000, memBytes := 0x10000, wMax := 0xFFFFFFFF, bMax := 0xFFFFFFFF, irqLine := 5 }

/-- Source at 0x1000, destination 1 at 0x2000, destination 2 at 0x3000. -/
def operands (srcLen dstCap dst2Cap w b : Nat) : Operands :=
  { srcAddr := 0x1000, srcLen := BitVec.ofNat 32 srcLen, dstAddr := 0x2000, dstCap := BitVec.ofNat 32 dstCap,
    dst2Addr := 0x3000, dst2Cap := BitVec.ofNat 32 dst2Cap, windowSize := BitVec.ofNat 32 w,
    bufferSize := BitVec.ofNat 32 b }

/-- The command `i` running on the operands, with bytes at the source. -/
def started (i : Instr) (o : Operands) (bytes : List Byte) : State :=
  acceptGo (encode i) { State.resetOn cfg with operands := o, mem := Memory.writeBytes [] o.srcAddr.toNat bytes }

/-- What is latched for the command `i` on the operands. -/
def latch (i : Instr) (o : Operands) : Latched := { cmd := (encode i).extractLsb' 0 31, operands := o }

/-- The command `i` on a source of the bytes, with capacities and parameters. -/
def runOn (i : Instr) (bytes : List Byte) (dstCap dst2Cap w b : Nat) : State :=
  started i (operands bytes.length dstCap dst2Cap w b) bytes

/-- A container or bitstream as bytes. -/
def bytesOf (vs : List Nat) : List Byte := vs.map (BitVec.ofNat 8)

/-- The next state of the command. -/
def after (i : Instr) (s : State) : Option State := nextOf (exec i s)

/-- ERR_CODE and ERR_POS after the command. -/
def errorOf (i : Instr) (s : State) : Option (Nat × Nat) := (after i s).map fun t => (t.errCode.toNat, t.errPos.toNat)

/-- DST_LEN, DST2_LEN, STAT_ORIG and STAT_COMP after the command. -/
def resultOf (i : Instr) (s : State) : Option (Nat × Nat × Nat × Nat) :=
  (after i s).map fun t => (t.dstLen.toNat, t.dst2Len.toNat, t.statOrig.toNat, t.statComp.toNat)

/-- `n` words at an address after the command. -/
def wordsAfter (i : Instr) (s : State) (a n : Nat) : Option (List Nat) := (after i s).map fun t => t.mem.readWords a n

/-- `n` bytes at an address after the command. -/
def bytesAfter (i : Instr) (s : State) (a n : Nat) : Option (List Byte) := (after i s).map fun t => t.mem.readBytes a n

/-- "AAAABBBCCD" (V-H1). -/
def textAD : List Nat := [0x41, 0x41, 0x41, 0x41, 0x42, 0x42, 0x42, 0x43, 0x43, 0x44]

/-- The container of V-H1. -/
def containerAD : List Nat :=
  [0x00, 0x04, 0x00, 0x41, 0x08, 0x02, 0x10, 0x80, 0x10, 0xC6, 0x00, 0x88, 0x30, 0x00, 0x00, 0x01, 0x30, 0xAB, 0x6E]

/-- "abcabcabc" (V-L1). -/
def textAbc : List Nat := [0x61, 0x62, 0x63, 0x61, 0x62, 0x63, 0x61, 0x62, 0x63]

/-- The bitstream of V-L1. -/
def streamAbc : List Nat := [0x00, 0xC2, 0x01, 0x88, 0x03, 0x1D, 0xE0]

/-- The triples of V-L1 and 44_lz77_match.md R248. -/
def triplesAbc : List Triple :=
  [{ off := 0, len := 0, chr := some 0x61, cpos := some 0 }, { off := 0, len := 0, chr := some 0x62, cpos := some 1 },
    { off := 0, len := 0, chr := some 0x63, cpos := some 2 }, { off := 3, len := 6, chr := none, cpos := none }]

/-- "(0,0,a) (0,0,b) (0,0,c) (3,6,)" (V-L1). -/
def tokensAbc : List Nat :=
  [0x28, 0x30, 0x2C, 0x30, 0x2C, 0x61, 0x29, 0x20, 0x28, 0x30, 0x2C, 0x30, 0x2C, 0x62, 0x29, 0x20,
    0x28, 0x30, 0x2C, 0x30, 0x2C, 0x63, 0x29, 0x20, 0x28, 0x33, 0x2C, 0x36, 0x2C, 0x29]

/-! ### Decoding: the words of 30_encoding.md R131, as the register's bytes, the lowest first -/

theorem test_decode_hufCompress : decode [0x01, 0x00, 0x00, 0x80] = .ok .hufCompress := rfl
theorem test_decode_hufDecompress : decode [0x02, 0x00, 0x00, 0x80] = .ok .hufDecompress := rfl
theorem test_decode_lzCompressBits : decode [0x03, 0x01, 0x00, 0x80] = .ok .lzCompressBits := rfl
theorem test_decode_lzCompressText : decode [0x03, 0x02, 0x00, 0x80] = .ok .lzCompressText := rfl
theorem test_decode_lzCompressBitsText : decode [0x03, 0x03, 0x00, 0x80] = .ok .lzCompressBitsText := rfl
theorem test_decode_lzDecompressBits : decode [0x04, 0x00, 0x00, 0x80] = .ok .lzDecompressBits := rfl
theorem test_decode_lzDecompressText : decode [0x05, 0x00, 0x00, 0x80] = .ok .lzDecompressText := rfl
theorem test_decode_hufLengths : decode [0x06, 0x00, 0x00, 0x80] = .ok .hufLengths := rfl
theorem test_decode_hufCanon : decode [0x07, 0x00, 0x00, 0x80] = .ok .hufCanon := rfl

/-- The same words as rows of opcode_table.json. -/
theorem test_decode_table :
    [0x80000001, 0x80000002, 0x80000103, 0x80000203, 0x80000303, 0x80000004, 0x80000005, 0x80000006, 0x80000007].map
        (decodeTableWord 32) =
      [some .hufCompress, some .hufDecompress, some .lzCompressBits, some .lzCompressText, some .lzCompressBitsText,
        some .lzDecompressBits, some .lzDecompressText, some .hufLengths, some .hufCanon] := by decide

/-- V-S1 to V-S6, 30_encoding.md R93, R94: every kind of word that is no command. -/
theorem test_decode_refuses :
    (decodeWord 0x80000000 = .error .undefinedOpcode ∧ decodeWord 0x80000008 = .error .undefinedOpcode) ∧
    (decodeWord 0x80000101 = .error .illegalFlags ∧ decodeWord 0x80000003 = .error .illegalFlags) ∧
    (decodeWord 0x80000401 = .error .reservedBits ∧ decodeWord 0xC0000001 = .error .reservedBits) ∧
    decodeWord 0x00000001 = .error .goClear ∧ decode [0x01, 0x00, 0x80] = .error .notOneWord :=
  ⟨⟨rfl, rfl⟩, ⟨rfl, rfl⟩, ⟨rfl, rfl⟩, rfl, rfl⟩

/-! ### Well-formedness: one ill-formed term for each check -/

theorem smoke_word_wf : CommandWord.wf { go := true, reserved := 0, flags := 3, opcode := 3 } = true := by decide
theorem smoke_word_go : CommandWord.wf { go := false, reserved := 0, flags := 0, opcode := 1 } = false := by decide
theorem smoke_word_reserved : CommandWord.wf { go := true, reserved := 1, flags := 0, opcode := 1 } = false := by decide
theorem smoke_word_opcode_low : CommandWord.wf { go := true, reserved := 0, flags := 0, opcode := 0 } = false := by decide
theorem smoke_word_opcode_high : CommandWord.wf { go := true, reserved := 0, flags := 0, opcode := 8 } = false := by decide
theorem smoke_word_flags : CommandWord.wf { go := true, reserved := 0, flags := 1, opcode := 1 } = false := by decide
theorem smoke_word_no_flags : CommandWord.wf { go := true, reserved := 0, flags := 0, opcode := 3 } = false := by decide
theorem smoke_config_wf : cfg.wf = true := by decide
theorem smoke_config_no_memory : Config.wf { cfg with memBytes := 0 } = false := by decide
theorem smoke_config_memory : Config.wf { cfg with memBytes := 4294967297 } = false := by decide
theorem smoke_config_wMax_low : Config.wf { cfg with wMax := 0 } = false := by decide
theorem smoke_config_wMax_high : Config.wf { cfg with wMax := 4294967296 } = false := by decide
theorem smoke_config_bMax_low : Config.wf { cfg with bMax := 0 } = false := by decide
theorem smoke_config_bMax_high : Config.wf { cfg with bMax := 4294967296 } = false := by decide
theorem smoke_host_wf : HostOp.wf cfg (.readReg 0x400000FC 4) = true := by decide
theorem smoke_host_width : HostOp.wf cfg (.writeReg 0x40000004 2 0) = false := by decide
theorem smoke_host_misaligned : HostOp.wf cfg (.readReg 0x40000006 4) = false := by decide
theorem smoke_host_below_window : HostOp.wf cfg (.poll 0x3FFFFFFC 3 2) = false := by decide
theorem smoke_host_above_window : HostOp.wf cfg (.readReg 0x40000100 4) = false := by decide
theorem smoke_host_write_outside : HostOp.wf cfg (.writeMem 0xFFFF [1, 2]) = false := by decide
theorem smoke_host_read_outside : HostOp.wf cfg (.readMem 0x10000 1) = false := by decide

/-! ### The commands, on vectors of 95_test_vectors.md -/

/-- V-T1b: the entries in another order than the symbols. -/
theorem test_hufLengths_order :
    wordsAfter .hufLengths (runOn .hufLengths (wordsBytes [0x44, 1, 0x43, 2, 0x41, 4, 0x42, 3]) 32 0 0 0) 0x2000 8 =
      some [0x41, 1, 0x42, 2, 0x43, 3, 0x44, 3] := by decide +kernel

/-- V-T9: a duplicate symbol. -/
theorem test_hufLengths_duplicate :
    errorOf .hufLengths (runOn .hufLengths (wordsBytes [0x41, 1, 0x41, 2]) 32 0 0 0) = some (1, 1) := by decide +kernel

/-- V-C1. -/
theorem test_hufCanon_order :
    wordsAfter .hufCanon (runOn .hufCanon (wordsBytes [0x44, 3, 0x41, 1, 0x43, 3, 0x42, 2]) 48 0 0 0) 0x2000 12 =
      some [0x41, 1, 0b0, 0x42, 2, 0b10, 0x43, 3, 0b110, 0x44, 3, 0b111] := by decide +kernel

/-- V-C4: codes that do not fit. -/
theorem test_hufCanon_not_prefix_free :
    errorOf .hufCanon (runOn .hufCanon (wordsBytes [1, 1, 2, 1, 3, 1]) 48 0 0 0) = some (1, 0) := by decide +kernel

/-- V-H1. -/
theorem test_hufCompress_container :
    bytesAfter .hufCompress (runOn .hufCompress (wordsBytes textAD) 64 0 0 0) 0x2000 20 =
      some (bytesOf (containerAD ++ [0])) ∧
    resultOf .hufCompress (runOn .hufCompress (wordsBytes textAD) 64 0 0 0) = some (19, 0, 10, 19) := by decide +kernel

/-- V-H6: the first symbol above 0xFFFF. -/
theorem test_hufCompress_symbol :
    errorOf .hufCompress (runOn .hufCompress (wordsBytes [0x41, 0x42, 0x10000, 0x20000]) 64 0 0 0) = some (5, 2) := by
  decide +kernel

/-- V-H20: the table's entries in another order. -/
theorem test_hufDecompress_entry_order :
    wordsAfter .hufDecompress
        (runOn .hufDecompress
          (bytesOf [0x00, 0x04, 0x00, 0x44, 0x18, 0x02, 0x18, 0xC0, 0x10, 0x84, 0x00, 0x82, 0x10, 0x00, 0x00, 0x01, 0x30,
            0xAB, 0x6E]) 40 0 0 0) 0x2000 10 = some textAD := by decide +kernel

/-- V-H14: a bit that is no code. -/
theorem test_hufDecompress_no_code :
    errorOf .hufDecompress
      (runOn .hufDecompress (bytesOf [0x00, 0x01, 0x00, 0x61, 0x08, 0x00, 0x00, 0x00, 0x12]) 40 0 0 0) =
      some (3, 0) := by decide +kernel

/-- V-L10: an offset equal to the window, stored as 0. -/
theorem test_lzCompressBits_full_offset :
    bytesAfter .lzCompressBits (runOn .lzCompressBits (wordsBytes (List.replicate 10 0x61)) 16 0 4 3) 0x2000 7 =
      some (bytesOf [0x03, 0x0D, 0xD8, 0x66, 0xC3, 0x10, 0x00]) := by decide +kernel

/-- V-L9: a character above 0xFF. -/
theorem test_lzCompressBits_character :
    errorOf .lzCompressBits (runOn .lzCompressBits (wordsBytes [0x41, 0x100, 0x42]) 16 0 4 4) = some (5, 1) := by
  decide +kernel

/-- V-Q3 and V-L9: the text form carries any character, and its size is the UTF-8 size. -/
theorem test_lzCompressText_character :
    resultOf .lzCompressText (runOn .lzCompressText (wordsBytes [0x41, 0x100, 0x42]) 0 256 4 4) = some (0, 92, 4, 24) := by
  decide +kernel

/-- V-L14. -/
theorem test_lzCompressText_tokens :
    wordsAfter .lzCompressText (runOn .lzCompressText (wordsBytes textAbc) 0 256 6 6) 0x3000 30 = some tokensAbc := by
  decide +kernel

/-- V-L1: both forms. -/
theorem test_lzCompressBitsText_both :
    bytesAfter .lzCompressBitsText (runOn .lzCompressBitsText (wordsBytes textAbc) 16 256 6 6) 0x2000 8 =
      some (bytesOf (streamAbc ++ [0])) ∧
    resultOf .lzCompressBitsText (runOn .lzCompressBitsText (wordsBytes textAbc) 16 256 6 6) =
      some (7, 120, 9, 7) := by decide +kernel

/-- V-L13: DST2_CAP 119. -/
theorem test_lzCompressBitsText_overflow :
    errorOf .lzCompressBitsText (runOn .lzCompressBitsText (wordsBytes textAbc) 7 119 6 6) = some (12, 0) := by
  decide +kernel

/-- V-L1: a copy longer than its offset. -/
theorem test_lzDecompressBits_overlap :
    wordsAfter .lzDecompressBits (runOn .lzDecompressBits (bytesOf streamAbc) 64 0 6 6) 0x2000 9 = some textAbc := by
  decide +kernel

/-- V-Y12: 16 bits are no padding. -/
theorem test_lzDecompressBits_cut :
    errorOf .lzDecompressBits (runOn .lzDecompressBits (bytesOf [0, 0]) 64 0 256 255) = some (3, 0) := by decide +kernel

/-- V-X13: the character `)`. -/
theorem test_lzDecompressText_paren :
    wordsAfter .lzDecompressText
        (runOn .lzDecompressText
          (wordsBytes [0x28, 0x30, 0x2C, 0x30, 0x2C, 0x29, 0x29, 0x20, 0x28, 0x31, 0x2C, 0x31, 0x2C, 0x29, 0x29]) 64 0 4
          4) 0x2000 3 = some [0x29, 0x29, 0x29] := by decide +kernel

/-- V-X4: the offset check comes first. -/
theorem test_lzDecompressText_offset_first :
    errorOf .lzDecompressText (runOn .lzDecompressText (wordsBytes [0x28, 0x31, 0x2C, 0x30, 0x2C, 0x61, 0x29]) 64 0 4 4) =
      some (4, 0) := by decide +kernel

/-- V-B1, V-B3: the writer and the reader. -/
theorem test_bits_pack :
    finish (putFields [(5, 3), (1, 1), (0x41, 8)]) = bytesOf [0xB4, 0x10] ∧
      (getFields [3, 1, 8] (readerOn (bytesOf [0xB4, 0x10]))).1 = [5, 1, 0x41] := by decide

/-- 41_huffman_tree.md R169: the worked merges, as one tree. -/
theorem test_tree_merges :
    mergeLoop 3 4 (leavesOf [(0x41, 4), (0x42, 3), (0x43, 2), (0x44, 1)]) =
      [.node 10 6 (.leaf 0x41 4 0) (.node 6 5 (.leaf 0x42 3 1) (.node 3 4 (.leaf 0x44 1 3) (.leaf 0x43 2 2)))] := by
  decide

/-- V-T5: ties fall by the symbol order of the leaves, in whatever order the map is listed. -/
theorem test_tree_ties :
    canonSort (treeLengths [(0x65, 1), (0x61, 1), (0x63, 1), (0x62, 1), (0x64, 1)]) =
      [(0x63, 2), (0x64, 2), (0x65, 2), (0x61, 3), (0x62, 3)] := by decide

/-! ### The block's registers and its step -/

/-- V-S1: an illegal word completes with STATUS 0x00000606, and CMD reads 0. -/
theorem test_illegal_status :
    (nextOf (step ((State.resetOn cfg).withFetchWord 32 0x80000000))).map
      (fun t => (readReg t .status, readReg t .cmd)) = some (0x00000606#32, 0#32) := by decide +kernel

/-- V-S9, V-S8, V-S7: commands with every register at reset. -/
theorem test_commands_at_reset :
    [0x80000001, 0x80000006, 0x80000007, 0x80000103].map
      (fun w => (nextOf (step (State.reset.withFetchWord 32 w))).map fun t => readReg t .status) =
      [some 0x00000002#32, some 0x00000106#32, some 0x00000106#32, some 0x00000706#32] := by decide +kernel

/-- V-S20: a GO while BUSY, and its acknowledgement. -/
theorem test_go_while_busy :
    readReg (writeReg .cmd 0x80000002 (runOn .hufCompress [] 0 0 0 0)) .status = 0x00000009#32 ∧
      readReg (writeReg .status 8 (writeReg .cmd 0x80000002 (runOn .hufCompress [] 0 0 0 0))) .status = 1#32 := by
  decide +kernel

/-- V-S21: a STATUS write of all ones. -/
theorem test_status_write :
    readReg (writeReg .status 0xFFFFFFFF { State.resetOn cfg with done := true, errCode := 2 }) .status = 0x00000204#32 :=
  by decide

/-- V-S22: the interrupt, raised by completion and cleared by ACK. -/
theorem test_interrupt :
    ((after .hufCompress (writeReg .ctrl 1 (runOn .hufCompress [] 0 0 0 0))).map fun t =>
      (t.irqOnLine 5, t.irqOnLine 4, (writeReg .status 2 t).irq)) = some (true, false, false) := by decide +kernel

/-- V-S23: a soft reset while IDLE. -/
theorem test_soft_reset :
    writeReg .ctrl 3 { State.resetOn cfg with irqEn := true, done := true, errCode := 3 } = State.resetOn cfg := by decide

/-! ### Texts given as blocks: the limits of HUF_COMPRESS need texts too long to evaluate -/

/-- The text of each symbol repeated its number of times. -/
def blockText (F : List (Nat × Nat)) : List Nat := F.flatMap fun p => List.replicate p.2 p.1

theorem mem_blockText {F : List (Nat × Nat)} {c : Nat} (h : c ∈ blockText F) : c ∈ F.map Prod.fst := by
  simp only [blockText, List.mem_flatMap, List.mem_replicate] at h
  obtain ⟨p, hp, -, rfl⟩ := h
  exact List.mem_map_of_mem hp

theorem length_blockText (F : List (Nat × Nat)) : (blockText F).length = (F.map Prod.snd).sum := by
  simp [blockText, List.length_flatMap]

theorem dedup_blockText (F : List (Nat × Nat)) (hd : DistinctKeys F) (hn : ∀ p ∈ F, p.2 ≠ 0) :
    (blockText F).dedup = F.map Prod.fst := by
  induction F with
  | nil => rfl
  | cons p F ih =>
    have hd' := List.nodup_cons.1 (show (p.1 :: F.map Prod.fst).Nodup from hd)
    have hp := List.replicate_dedup (x := p.1) (hn p (by simp))
    have hdis : List.Disjoint (List.replicate p.2 p.1) (blockText F) := fun a h1 h2 =>
      hd'.1 ((List.mem_replicate.1 h1).2 ▸ mem_blockText h2)
    show (List.replicate p.2 p.1 ++ blockText F).dedup = _
    rw [List.Disjoint.dedup_append hdis, hp, ih hd'.2 fun q hq => hn q (by simp [hq])]
    rfl

theorem count_blockText (F : List (Nat × Nat)) (hd : DistinctKeys F) (p : Nat × Nat) (hp : p ∈ F) :
    (blockText F).count p.1 = p.2 := by
  induction F with
  | nil => simp at hp
  | cons q F ih =>
    have hd' := List.nodup_cons.1 (show (q.1 :: F.map Prod.fst).Nodup from hd)
    show (List.replicate q.2 q.1 ++ blockText F).count p.1 = _
    rw [List.count_append]
    rcases List.mem_cons.1 hp with rfl | hp
    · rw [List.count_replicate_self, List.count_eq_zero_of_not_mem fun h => hd'.1 (mem_blockText h), Nat.add_zero]
    · have hne : q.1 ≠ p.1 := fun h => hd'.1 (h ▸ List.mem_map_of_mem hp)
      rw [ih hd'.2 hp, List.count_eq_zero_of_not_mem fun h => hne (List.mem_replicate.1 h).2.symm, Nat.zero_add]

/-- The frequency map of a text of blocks is the blocks. -/
theorem frequencies_blockText (F : List (Nat × Nat)) (hd : DistinctKeys F) (hn : ∀ p ∈ F, p.2 ≠ 0) :
    frequencies (blockText F) = F := by
  unfold frequencies
  rw [dedup_blockText F hd hn, List.map_map]
  conv_rhs => rw [← List.map_id F]
  exact List.map_congr_left fun p hp => by simp [count_blockText F hd p hp]

/-- The code bits of a text of blocks, block by block. -/
theorem length_textBits_blockText (T : List CodeEntry) (F : List (Nat × Nat)) :
    (textBits T (blockText F)).length =
      (F.map fun p => p.2 * (match entryOf T p.1 with | some e => e.bits | none => []).length).sum := by
  induction F with
  | nil => rfl
  | cons p F ih =>
    show (textBits T (List.replicate p.2 p.1 ++ blockText F)).length = _
    rw [textBits, List.flatMap_append, List.length_append, List.map_cons, List.sum_cons]
    refine congrArg₂ (· + ·) ?_ ih
    rw [List.length_flatMap, List.map_replicate, List.sum_replicate]
    exact smul_eq_mul ..

/-! ### Witnesses: for every obligation with hypotheses, a state and operands that meet them together -/

/-- HUF_COMPRESS running on "AAAABBBCCD". -/
def busyState : State := runOn .hufCompress (wordsBytes textAD) 64 0 0 0

/-- What it runs on. -/
def busyLatch : Latched := latch .hufCompress (operands 40 64 0 0 0)

/-- The state of the platform after power-on, with a host operation. -/
def idleState (ops : List HostOp) : State := { State.resetOn cfg with host := ops }

/-- The word has reserved bits 0, a known opcode, and FLAGS exactly for LZ_COMPRESS. -/
def legalWord (w : Word) : Bool :=
  decide (w.extractLsb' 10 21 = 0#21 ∧ 1 ≤ (w.extractLsb' 0 8).toNat ∧ (w.extractLsb' 0 8).toNat ≤ 7 ∧
    (w.extractLsb' 8 2 ≠ 0#2 ↔ w.extractLsb' 0 8 = 3#8))

/-- IllegalWordCompletesIllegalCommand: illegal words at every boundary, and legal ones. -/
theorem witness_illegalWord :
    (State.resetOn cfg).running = none ∧
    (([0x80000000, 0x80000008, 0x800000FF, 0x80000101, 0x80000003, 0x80000401, 0xC0000001] : List Word).all
      fun w => w.getLsbD 31 && !legalWord w) = true ∧
    (([0x80000001, 0x80000007, 0x80000103, 0x80000303] : List Word).all fun w => w.getLsbD 31 && legalWord w) = true :=
  ⟨rfl, by decide +kernel, by decide +kernel⟩

/-- ResetValuesOfEveryRegister: the three resets, and an idle state. -/
theorem witness_reset :
    (∃ s t c, s = busyState ∧ (t = softReset s ∨ t = powerOnReset s ∨ t = State.resetOn c)) ∧
      (idleState []).running = none := ⟨⟨_, _, cfg, rfl, .inl rfl⟩, rfl⟩

/-- SoftResetAbandonsTheCommand: on a running command past its checks, and on an idle block. -/
theorem witness_softReset :
    (2#32).getLsbD 1 = true ∧ Ready .hufCompress busyState busyLatch ∧ decodeCommand busyLatch.cmd = .ok .hufCompress ∧
      inRanges (dstRanges (useOf .hufCompress) busyLatch.operands) 0x203F = true := ⟨rfl, by decide +kernel, rfl, rfl⟩

/-- GoAcceptance: both kinds of CMD write, and a running command. -/
theorem witness_goAcceptance :
    (idleState []).running = none ∧ (0x00000001#32).getLsbD 31 = false ∧ (0x80000001#32).getLsbD 31 = true ∧
      busyState.running ≠ none := by decide +kernel

/-- StatusRegister: every bit's clause, a GO on both states, and a completion. -/
theorem witness_statusRegister :
    (∀ k ∈ ([0, 1, 2, 3, 4, 8, 15, 16, 31] : List Nat), k < 32) ∧ (0x80000001#32).getLsbD 31 = true ∧
      (idleState []).running = none ∧ busyState.running ≠ none ∧ ∃ t, exec .hufCompress busyState = .next t :=
  ⟨by decide, rfl, rfl, by decide +kernel, _, rfl⟩

/-- WritesWhileBusyAreIgnored: BUSY, with its results clear, and every clause's written value. -/
theorem witness_writesWhileBusy :
    busyState.busy = true ∧ busyState.busyClear = true ∧ (1#32).getLsbD 1 = false ∧ (2#32).getLsbD 1 = true := by
  decide +kernel

/-- OperandRegistersReadBack: the first and the last operand register. -/
theorem witness_operandRegisters :
    (idleState []).running = none ∧
      (∀ r ∈ ([.srcAddr, .bufferSize] : List Reg),
        r ∈ ([.srcAddr, .srcLen, .dstAddr, .dstCap, .dst2Addr, .dst2Cap, .windowSize, .bufferSize] : List Reg)) := by
  decide

/-- ReservedReadsZero: the first reserved offset, values that differ in reserved bits only, and an idle block. -/
theorem witness_reserved :
    (0x48 ≤ 0x48 ∧ 0x48 ≤ 0xFC) ∧ 0xFFFFFFFD#32 &&& 3#32 = 1#32 &&& 3#32 ∧
      0xFFFFFFFF#32 &&& 10#32 = 10#32 &&& 10#32 ∧ (idleState []).running = none ∧
      (0x80000401#32).getLsbD 31 = true ∧ (0x80000401#32).extractLsb' 10 21 ≠ 0#21 := by decide

/-- RegisterWindow: the first and the last reserved offset, and accesses of a wrong width and a wrong alignment at the ends of
the window. -/
theorem witness_registerWindow :
    (∀ off ∈ ([0x48, 0xFC] : List Nat), 0x48 ≤ off ∧ off ≤ 0xFC ∧ off % 4 = 0) ∧
    (∀ a ∈ ([(0x40000000, 1), (0x40000000, 8), (0x40000001, 4), (0x400000FF, 4)] : List (Nat × Nat)),
      cfg.base ≤ a.1 ∧ a.1 < cfg.base + 256 ∧ (a.2 ≠ 4 ∨ (a.1 - cfg.base) % 4 ≠ 0)) ∧
    (∀ k ∈ ([0, 3] : List Nat), k < 4) := by decide

/-- InterruptLine: a completion, a step that raises DONE, and each kind of clearing write. -/
theorem witness_interruptLine :
    (∃ t, exec .hufCompress busyState = .next t) ∧
      (∃ t, step busyState = .next t ∧ busyState.done = false ∧ t.done = true) ∧
      ((2#32).getLsbD 1 = true ∧ (0#32).getLsbD 0 = false ∧ (0#32).getLsbD 1 = false) ∧
      (idleState []).running = none ∧ (0x80000001#32).getLsbD 31 = true :=
  ⟨⟨_, rfl⟩, ⟨_, rfl, rfl, rfl⟩, ⟨rfl, rfl, rfl⟩, rfl, rfl⟩

/-- CommandStateMachine: a step from IDLE to BUSY, and one back by each way: the engine's turn, a soft reset, power-on. -/
theorem witness_stateMachine :
    (∃ t, step (idleState [opGo cfg .hufCompress]) = .next t ∧ (idleState [opGo cfg .hufCompress]).busy = false ∧
      t.busy = true) ∧
    (∃ t, step busyState = .next t ∧ busyState.busy = true ∧ t.busy = false) ∧
    (∃ t, step { busyState with host := [opWrite cfg .ctrl 2], schedule := [.host] } = .next t ∧ t.busy = false) ∧
    ∃ t, step { busyState with host := [.powerOn], schedule := [.host] } = .next t ∧ t.busy = false :=
  ⟨⟨_, rfl, rfl, rfl⟩, ⟨_, rfl, rfl, rfl⟩, ⟨_, rfl, rfl⟩, _, rfl, rfl⟩

/-- EveryCommandCompletes, ResultDependsOnSourceOnly, OutputStaysInCapacity: a running command, its completion, and a memory that
differs outside the source. -/
theorem witness_running :
    busyState.running ≠ none ∧ busyState.running = some busyLatch ∧ (∃ t, exec .hufCompress busyState = .next t) ∧
      ∃ m : Memory, m ≠ busyState.mem ∧
        ∀ a, InBytes a busyLatch.operands.srcAddr.toNat busyLatch.operands.srcLen.toNat →
          m.read a = busyState.mem.read a := by
  refine ⟨by decide +kernel, by decide +kernel, ⟨_, rfl⟩, (0x10#32 : Word).toNat |> fun a => (a, 7#8) :: busyState.mem,
    by decide +kernel, fun a h => ?_⟩
  have h1 : (0x1000 : Nat) ≤ a := h.1
  have h2 : ¬(16 = a) := by omega
  show (if 16 = a then _ else _) = _
  rw [if_neg h2]

/-- StateAfterACommand, StatisticsOfEveryCommand: a success, an error of the checks, and an error of the processing. -/
theorem witness_outcomes :
    (∃ t, exec .hufCompress busyState = .next t ∧ t.errCode = 0#8) ∧
    (commonChecks (useOf .lzCompressBits) cfg (operands 4 4 0 0 4) ≠ none ∧
      ∃ t, exec .lzCompressBits (runOn .lzCompressBits (wordsBytes [1]) 4 0 0 4) = .next t ∧ t.errCode ≠ 0#8) ∧
    (commonChecks (useOf .hufLengths) cfg (operands 0 0 0 0 0) = none ∧
      ∃ t, exec .hufLengths (runOn .hufLengths [] 0 0 0 0) = .next t ∧ t.errCode ≠ 0#8) := by
  refine ⟨⟨_, rfl, ?_⟩, ⟨?_, _, rfl, ?_⟩, ?_, _, rfl, ?_⟩ <;> decide +kernel

/-- CommonChecksInOrder: each clause at a boundary (V-S10, V-S12, V-S16, V-S17, V-S15), and a command that is not LZ77. -/
theorem witness_commonChecks :
    (BadParameters .lzDecompressText cfg (operands 28 0 0 0 0)) ∧
    (¬BadParameters .hufCompress cfg { operands 0 0 0 0 0 with srcAddr := 0x1001 } ∧
      Misaligned .hufCompress { operands 0 0 0 0 0 with srcAddr := 0x1001 }) ∧
    (¬BadParameters .hufCompress cfg { operands 8 0 0 0 0 with srcAddr := 0xFFFC } ∧
      ¬Misaligned .hufCompress { operands 8 0 0 0 0 with srcAddr := 0xFFFC } ∧
      PastMemory .hufCompress cfg { operands 8 0 0 0 0 with srcAddr := 0xFFFC }) ∧
    (¬BadParameters .lzDecompressText cfg { operands 28 0x40 0 4 4 with dstAddr := 0x1018 } ∧
      ¬Misaligned .lzDecompressText { operands 28 0x40 0 4 4 with dstAddr := 0x1018 } ∧
      ¬PastMemory .lzDecompressText cfg { operands 28 0x40 0 4 4 with dstAddr := 0x1018 } ∧
      ShareAByte .lzDecompressText { operands 28 0x40 0 4 4 with dstAddr := 0x1018 }) ∧
    (¬BadParameters .hufCompress cfg { operands 4 0x10 0 0 0 with srcAddr := 0xFFFC } ∧
      ¬Misaligned .hufCompress { operands 4 0x10 0 0 0 with srcAddr := 0xFFFC } ∧
      ¬PastMemory .hufCompress cfg { operands 4 0x10 0 0 0 with srcAddr := 0xFFFC } ∧
      ¬ShareAByte .hufCompress { operands 4 0x10 0 0 0 with srcAddr := 0xFFFC }) ∧
    Instr.hufCompress ∉ lzCommands := by
  refine ⟨?_, ⟨?_, ?_⟩, ⟨?_, ?_, ?_⟩, ⟨?_, ?_, ?_, 0x101B, ?_⟩, ⟨?_, ?_, ?_, ?_⟩, by decide⟩
  all_goals first
    | (unfold BadParameters; decide)
    | (unfold Misaligned; decide)
    | (unfold PastMemory; decide)
    | (unfold InBytes; decide)
    | (rintro ⟨a, h | h | h⟩
       · have h1 := h.2.1.1; have h2 := h.2.2.2
         simp [operands] at h1 h2
         omega
       · exact absurd h.1 (by decide)
       · exact absurd h.2.1 (by decide))

/-- HufCompressResult: the empty text, and "AAAABBBCCD" with a capacity of exactly its container. -/
theorem witness_hufCompress :
    Ready .hufCompress (runOn .hufCompress [] 0 0 0 0) (latch .hufCompress (operands 0 0 0 0 0)) ∧
    Ready .hufCompress (runOn .hufCompress (wordsBytes textAD) 19 0 0 0) (latch .hufCompress (operands 40 19 0 0 0)) ∧
    textAD = (runOn .hufCompress (wordsBytes textAD) 19 0 0 0).mem.readWords 0x1000 (40 / 4) ∧ textAD ≠ [] ∧
    (∀ c ∈ textAD, c ≤ 0xFFFF) ∧ textAD.dedup.length ≤ 65535 ∧
    (∀ p ∈ canonSort (treeLengths (frequencies textAD)), p.2 ≤ 31) ∧
    (textBits (canon (canonSort (treeLengths (frequencies textAD)))) textAD).length ≤ 0xFFFFFFFF ∧
    nbytes (containerFields (canonSort (treeLengths (frequencies textAD))) textAD) ≤ 19 := by decide +kernel

/-- HUF_COMPRESS running on the text on the platform of State.reset, with no capacity. -/
def textState (srcLen : Nat) (t : List Nat) : State :=
  acceptGo (encode .hufCompress)
    { State.reset with operands := operands srcLen 0 0 0 0, mem := Memory.writeBytes [] 0x1000 (wordsBytes t) }

/-- A text placed at the source is the text the command reads. -/
theorem readWords_textState (srcLen : Nat) (t : List Nat) (n : Nat) (hn : t.length = n) (ht : ∀ c ∈ t, c < 4294967296) :
    (textState srcLen t).mem.readWords 0x1000 n = t := by
  subst hn
  exact Memory.readWords_writeBytes_wordsBytes t [] 0x1000 ht

/-- HufCompressResult, FormatLimit: the 65536 symbols 0 to 0xFFFF, once each (V-H22). -/
theorem witness_hufCompress_symbols :
    Ready .hufCompress (textState 262144 (List.range 65536)) (latch .hufCompress (operands 262144 0 0 0 0)) ∧
    (textState 262144 (List.range 65536)).mem.readWords 0x1000 (262144 / 4) = List.range 65536 ∧
    List.range 65536 ≠ [] ∧ (∀ c ∈ List.range 65536, c ≤ 0xFFFF) ∧ 65535 < (List.range 65536).dedup.length := by
  refine ⟨⟨rfl, by decide +kernel⟩, readWords_textState _ _ _ (by simp) fun c hc => ?_, ?_, fun c hc => ?_, ?_⟩
  · have := List.mem_range.1 hc; omega
  · exact fun h => by simpa using congrArg List.length h
  · have := List.mem_range.1 hc; omega
  · rw [List.nodup_range.dedup, List.length_range]; omega

/-- The counts of V-T6: symbol `k` occurs Fib(k) times, for `k` from 0 to 32. -/
def fibCounts : List (Nat × Nat) := (List.range 33).map fun k => (k, Nat.fib (k + 1))

/-- HufCompressResult, CodeLengthOverflow: V-H21, whose tree is 32 deep. -/
theorem witness_hufCompress_lengths :
    Ready .hufCompress (textState 36909856 (blockText fibCounts)) (latch .hufCompress (operands 36909856 0 0 0 0)) ∧
    (textState 36909856 (blockText fibCounts)).mem.readWords 0x1000 (36909856 / 4) = blockText fibCounts ∧
    blockText fibCounts ≠ [] ∧ (∀ c ∈ blockText fibCounts, c ≤ 0xFFFF) ∧ (blockText fibCounts).dedup.length ≤ 65535 ∧
    ∃ p ∈ canonSort (treeLengths (frequencies (blockText fibCounts))), 31 < p.2 := by
  have hF : fibCounts.map Prod.snd = [1, 1, 2, 3, 5, 8, 13, 21, 34, 55, 89, 144, 233, 377, 610, 987, 1597, 2584, 4181,
      6765, 10946, 17711, 28657, 46368, 75025, 121393, 196418, 317811, 514229, 832040, 1346269, 2178309, 3524578] := by
    decide +kernel
  have hd : DistinctKeys fibCounts := by decide +kernel
  have hn : ∀ p ∈ fibCounts, p.2 ≠ 0 := by decide +kernel
  have hs : ∀ c ∈ fibCounts.map Prod.fst, c ≤ 0xFFFF := by decide +kernel
  have hl : (blockText fibCounts).length = 36909856 / 4 := by rw [length_blockText, hF]; rfl
  refine ⟨⟨rfl, by decide +kernel⟩, readWords_textState _ _ _ hl fun c hc => ?_, ?_, fun c hc => hs c (mem_blockText hc),
    ?_, ?_⟩
  · have := hs c (mem_blockText hc); omega
  · exact fun h => by rw [h] at hl; simp at hl
  · rw [dedup_blockText _ hd hn]; decide +kernel
  · rw [frequencies_blockText _ hd hn]; decide +kernel

/-- Thirty-two symbols, 27262976 times each: every code has five bits. -/
def evenCounts : List (Nat × Nat) := (List.range 32).map fun k => (k, 27262976)

/-- HufCompressResult, FormatLimit: 4362076160 code bits. -/
theorem witness_hufCompress_bits :
    Ready .hufCompress (textState 3489660928 (blockText evenCounts)) (latch .hufCompress (operands 3489660928 0 0 0 0)) ∧
    (textState 3489660928 (blockText evenCounts)).mem.readWords 0x1000 (3489660928 / 4) = blockText evenCounts ∧
    blockText evenCounts ≠ [] ∧ (∀ c ∈ blockText evenCounts, c ≤ 0xFFFF) ∧
    (blockText evenCounts).dedup.length ≤ 65535 ∧
    (∀ p ∈ canonSort (treeLengths (frequencies (blockText evenCounts))), p.2 ≤ 31) ∧
    0xFFFFFFFF <
      (textBits (canon (canonSort (treeLengths (frequencies (blockText evenCounts))))) (blockText evenCounts)).length := by
  have hF : evenCounts.map Prod.snd = List.replicate 32 27262976 := by decide +kernel
  have hd : DistinctKeys evenCounts := by decide +kernel
  have hn : ∀ p ∈ evenCounts, p.2 ≠ 0 := by decide +kernel
  have hs : ∀ c ∈ evenCounts.map Prod.fst, c ≤ 0xFFFF := by decide +kernel
  have hl : (blockText evenCounts).length = 3489660928 / 4 := by rw [length_blockText, hF]; decide +kernel
  refine ⟨⟨rfl, by decide +kernel⟩, readWords_textState _ _ _ hl fun c hc => ?_, ?_, fun c hc => hs c (mem_blockText hc),
    ?_, ?_, ?_⟩
  · have := hs c (mem_blockText hc); omega
  · exact fun h => by rw [h] at hl; simp at hl
  · rw [dedup_blockText _ hd hn]; decide +kernel
  · rw [frequencies_blockText _ hd hn]; decide +kernel
  · rw [frequencies_blockText _ hd hn, length_textBits_blockText]; decide +kernel

/-- HufDecompressResult: the empty container, and the container of V-H20, its entries not in canonical order. -/
theorem witness_hufDecompress :
    Ready .hufDecompress (runOn .hufDecompress [] 0 0 0 0) (latch .hufDecompress (operands 0 0 0 0 0)) ∧
    ∃ (bytes : List Byte) (entries : List (Nat × Nat)),
      bytes = bytesOf [0x00, 0x04, 0x00, 0x44, 0x18, 0x02, 0x18, 0xC0, 0x10, 0x84, 0x00, 0x82, 0x10, 0x00, 0x00, 0x01,
        0x30, 0xAB, 0x6E] ∧
      entries = [(0x44, 3), (0x43, 3), (0x42, 2), (0x41, 1)] ∧
      Ready .hufDecompress (runOn .hufDecompress bytes 40 0 0 0) (latch .hufDecompress (operands 19 40 0 0 0)) ∧
      entries ≠ [] ∧ entries.length ≤ 65535 ∧ DistinctKeys entries ∧
      (∀ p ∈ entries, p.1 ≤ 0xFFFF ∧ 1 ≤ p.2 ∧ p.2 ≤ 31) ∧ codesFit (canon entries) = true ∧
      (∀ c ∈ textAD, c ∈ entries.map Prod.fst) ∧ (textBits (canon entries) textAD).length ≤ 0xFFFFFFFF ∧
      4 * textAD.length ≤ 40 ∧
      readerOn ((runOn .hufDecompress bytes 40 0 0 0).mem.readBytes 0x1000 19) =
        containerFields entries textAD ++ [false] :=
  ⟨by decide +kernel, _, _, rfl, rfl, by decide +kernel⟩

/-- LzCompressResult: each form on "abcabcabc", with capacities of exactly its output. -/
theorem witness_lzCompress :
    (∀ p ∈ ([(.lzCompressBits, { bits := true, text := false }), (.lzCompressText, { bits := false, text := true }),
        (.lzCompressBitsText, { bits := true, text := true })] : List (Instr × Emit)),
      Ready p.1 (runOn p.1 (wordsBytes textAbc) 7 120 6 6) (latch p.1 (operands 36 7 120 6 6))) ∧
    (∀ p ∈ ([(.lzCompressBits, { bits := true, text := false }), (.lzCompressText, { bits := false, text := true }),
        (.lzCompressBitsText, { bits := true, text := true })] : List (Instr × Emit)),
      (runOn p.1 (wordsBytes textAbc) 7 120 6 6).mem.readWords 0x1000 (36 / 4) = textAbc) ∧
    triples textAbc 6 6 = triplesAbc ∧ (∀ x ∈ triplesAbc, ∀ c, x.chr = some c → c ≤ 0xFF) ∧
    nbytes (streamBits 6 6 triplesAbc) ≤ 7 ∧ 4 * (tripleText triplesAbc).length ≤ 120 := by
  refine ⟨by decide +kernel, by decide +kernel, by decide +kernel, ?_, by decide +kernel, by decide +kernel⟩
  simp [triplesAbc]

/-- The literal `a`, at the start of the streams of V-Y3 to V-Y7 and V-Y15. -/
def literalA : List Triple := [{ off := 0, len := 0, chr := some 0x61, cpos := none }]

/-- LzDecompressBitsResult: V-L1. -/
theorem witness_lzDecompressBits :
    Ready .lzDecompressBits (runOn .lzDecompressBits (bytesOf streamAbc) 36 0 6 6)
      (latch .lzDecompressBits (operands 7 36 0 6 6)) ∧
    StreamFits 6 6 [] triplesAbc ∧ endsWithNul triplesAbc = false ∧
    readerOn ((runOn .lzDecompressBits (bytesOf streamAbc) 36 0 6 6).mem.readBytes 0x1000 7) =
      streamBits 6 6 triplesAbc ++ padding (streamBits 6 6 triplesAbc) ∧
    4 * (replayAll triplesAbc).length ≤ 36 := by
  refine ⟨by decide +kernel, ?_, rfl, by decide +kernel, by decide +kernel⟩
  simp [triplesAbc, StreamFits, replay, copyBack]

/-- The symbols are a `num`, on its parts. -/
theorem isNum {ds : List Nat} {v : Nat}
    (h : (ds ≠ [] ∧ ∀ d ∈ ds, 0x30 ≤ d ∧ d ≤ 0x39) ∧ decValue ds = v ∧ v ≤ 0xFFFFFFFF) : IsNum ds v := h

/-- LzDecompressBitsResult: V-L1 with its four leftover bits 1; V-Y15, whose final U+0000 has fewer than `H` bits after it; and a
U+0000 with six zero bits after it, where `H` is 2 (log 18). -/
theorem witness_lzDecompressBits_leftover :
    (Ready .lzDecompressBits (runOn .lzDecompressBits (bytesOf [0x00, 0xC2, 0x01, 0x88, 0x03, 0x1D, 0xEF]) 36 0 6 6)
        (latch .lzDecompressBits (operands 7 36 0 6 6)) ∧
      readerOn ((runOn .lzDecompressBits (bytesOf [0x00, 0xC2, 0x01, 0x88, 0x03, 0x1D, 0xEF]) 36 0 6 6).mem.readBytes
        0x1000 7) = streamBits 6 6 triplesAbc ++ [true, true, true, true] ∧ 4 < 1 + clog2 6 + clog2 (6 + 1)) ∧
    (∀ c ∈ ([some 0] : List (Option Nat)),
      Ready .lzDecompressBits (runOn .lzDecompressBits (bytesOf [0x01, 0x84, 0x00, 0x00]) 4 0 4 4)
        (latch .lzDecompressBits (operands 4 4 0 4 4)) ∧
      readerOn ((runOn .lzDecompressBits (bytesOf [0x01, 0x84, 0x00, 0x00]) 4 0 4 4).mem.readBytes 0x1000 4) =
        streamBits 4 4 (literalA ++ [{ off := 0, len := 0, chr := c, cpos := none }]) ++ List.replicate 4 false ∧
      4 < 1 + clog2 4 + clog2 (4 + 1) ∧
      [0x61] = (replayAll (literalA ++ [{ off := 0, len := 0, chr := c, cpos := none }])).dropLast) ∧
    (∀ c ∈ ([some 0] : List (Option Nat)),
      Ready .lzDecompressBits (runOn .lzDecompressBits (bytesOf [0x00, 0x00]) 4 0 1 1)
        (latch .lzDecompressBits (operands 2 4 0 1 1)) ∧
      readerOn ((runOn .lzDecompressBits (bytesOf [0x00, 0x00]) 4 0 1 1).mem.readBytes 0x1000 2) =
        streamBits 1 1 [{ off := 0, len := 0, chr := c, cpos := none }] ++ List.replicate 6 false ∧
      ¬6 < 1 + clog2 1 + clog2 (1 + 1)) := by decide +kernel

/-- LzDecompressBitsResult: the triples of V-Y15 and of the one U+0000 fit the wire contract and end in U+0000. -/
theorem witness_lzDecompressBits_nul :
    (StreamFits 4 4 [] (literalA ++ [{ off := 0, len := 0, chr := some 0, cpos := none }]) ∧
      endsWithNul (literalA ++ [{ off := 0, len := 0, chr := some 0, cpos := none }]) = true) ∧
    StreamFits 1 1 [] [{ off := 0, len := 0, chr := some 0, cpos := none }] ∧
      endsWithNul [{ off := 0, len := 0, chr := some 0, cpos := none }] = true := by
  refine ⟨⟨?_, rfl⟩, ?_, rfl⟩ <;> simp [literalA, StreamFits]

/-- LzDecompressTextResult: V-X10, with leading zeros, and a capacity of exactly its text. -/
theorem witness_lzDecompressText :
    ∃ (x : List Nat) (ts : List Triple),
      x = [0x28, 0x30, 0x30, 0x2C, 0x30, 0x2C, 0x61, 0x29] ++ [0x20] ++
        [0x28, 0x30, 0x30, 0x31, 0x2C, 0x30, 0x32, 0x2C, 0x62, 0x29] ∧
      ts = [{ off := 0, len := 0, chr := some 0x61, cpos := none },
        { off := 1, len := 2, chr := some 0x62, cpos := none }] ∧
      Ready .lzDecompressText (runOn .lzDecompressText (wordsBytes x) 16 0 6 6)
        (latch .lzDecompressText (operands 76 16 0 6 6)) ∧
      TokensFit [] ts ∧ x = (runOn .lzDecompressText (wordsBytes x) 16 0 6 6).mem.readWords 0x1000 (76 / 4) ∧
      TextOf x ts ∧ 4 * (replayAll ts).length ≤ 16 := by
  refine ⟨_, _, rfl, rfl, by decide +kernel, ?_, by decide +kernel, ?_, by decide +kernel⟩
  · simp [TokensFit, replay, copyBack]
  · exact ⟨_, .cons ⟨[0x30, 0x30], [0x30], isNum (by decide), isNum (by decide), rfl⟩
      (.cons ⟨[0x30, 0x30, 0x31], [0x30, 0x32], isNum (by decide), isNum (by decide), rfl⟩ .nil), rfl⟩

/-- HufLengthsResult: V-T1. -/
theorem witness_hufLengths :
    ∃ (s : State) (F : List (Nat × Nat)),
      s = runOn .hufLengths (wordsBytes [0x41, 4, 0x42, 3, 0x43, 2, 0x44, 1]) 32 0 0 0 ∧
      F = [(0x41, 4), (0x42, 3), (0x43, 2), (0x44, 1)] ∧
      Ready .hufLengths s (latch .hufLengths (operands 32 32 0 0 0)) ∧ F = s.mem.readPairs 0x1000 (32 / 8) ∧ F ≠ [] ∧
      DistinctKeys F ∧ (∀ p ∈ F, p.1 ≤ 0xFFFF ∧ 1 ≤ p.2) ∧ 8 * F.length ≤ 32 :=
  ⟨_, _, rfl, rfl, by decide +kernel⟩

/-- HufCanonResult: V-C1. -/
theorem witness_hufCanon :
    ∃ (s : State) (F : List (Nat × Nat)),
      s = runOn .hufCanon (wordsBytes [0x44, 3, 0x41, 1, 0x43, 3, 0x42, 2]) 48 0 0 0 ∧
      F = [(0x44, 3), (0x41, 1), (0x43, 3), (0x42, 2)] ∧
      (Ready .hufCanon s (latch .hufCanon (operands 32 48 0 0 0)) ∧ F = s.mem.readPairs 0x1000 (32 / 8) ∧ F ≠ [] ∧
        DistinctKeys F ∧ (∀ p ∈ F, p.1 ≤ 0xFFFF ∧ 1 ≤ p.2 ∧ p.2 ≤ 31) ∧ 12 * F.length ≤ 48) ∧ kraftSum F ≤ 1 :=
  ⟨_, _, rfl, rfl, by decide +kernel, by norm_num [kraftSum]⟩

/-- TableEntryErrors: V-T8, V-T11, V-T10, V-C7, V-C3, each bad entry after a good one. -/
theorem witness_tableEntryErrors :
    (Ready .hufLengths (runOn .hufLengths [] 0 0 0 0) (latch .hufLengths (operands 0 0 0 0 0))) ∧
    (∀ p ∈ ([(.hufLengths, (0x10000, 1)), (.hufLengths, (0x42, 0)), (.hufCanon, (0x41, 2)), (.hufCanon, (0x42, 32))] :
        List (Instr × (Nat × Nat))),
      p.1 ∈ ([.hufLengths, .hufCanon] : List Instr) ∧
      Ready p.1 (runOn p.1 (wordsBytes [0x41, 1, p.2.1, p.2.2]) 0 0 0 0) (latch p.1 (operands 16 0 0 0 0)) ∧
      (runOn p.1 (wordsBytes [0x41, 1, p.2.1, p.2.2]) 0 0 0 0).mem.readPairs 0x1000 (16 / 8) =
        [(0x41, 1)] ++ p.2 :: []) ∧
    DistinctKeys [(0x41, 1)] ∧
    (∀ q ∈ ([(0x41, 1)] : List (Nat × Nat)), q.1 ≤ 0xFFFF ∧ 1 ≤ q.2 ∧ (Instr.hufCanon = .hufCanon → q.2 ≤ 31)) := by
  decide +kernel

/-- TableEntryErrors: V-C4, good entries whose codes do not fit. -/
theorem witness_tableEntryErrors_kraft :
    Ready .hufCanon (runOn .hufCanon (wordsBytes [1, 1, 2, 1, 3, 1]) 48 0 0 0)
      (latch .hufCanon (operands 24 48 0 0 0)) ∧
    (runOn .hufCanon (wordsBytes [1, 1, 2, 1, 3, 1]) 48 0 0 0).mem.readPairs 0x1000 (24 / 8) = [(1, 1), (2, 1), (3, 1)] ∧
    DistinctKeys [(1, 1), (2, 1), (3, 1)] ∧
    (∀ p ∈ ([(1, 1), (2, 1), (3, 1)] : List (Nat × Nat)), p.1 ≤ 0xFFFF ∧ 1 ≤ p.2 ∧ p.2 ≤ 31) ∧
    1 < kraftSum [(1, 1), (2, 1), (3, 1)] :=
  ⟨by decide +kernel, by decide +kernel, by decide, by decide, by norm_num [kraftSum]⟩

/-- UnrepresentableSymbolErrors: V-H6; V-L9b with the capacities its first two triples need. -/
theorem witness_unrepresentable :
    (Ready .hufCompress (runOn .hufCompress (wordsBytes [0x41, 0xFFFF, 0x10000, 0x20000]) 64 0 0 0)
        (latch .hufCompress (operands 16 64 0 0 0)) ∧
      (runOn .hufCompress (wordsBytes [0x41, 0xFFFF, 0x10000, 0x20000]) 64 0 0 0).mem.readWords 0x1000 (16 / 4) =
        [0x41, 0xFFFF] ++ 0x10000 :: [0x20000]) ∧
    (∀ i ∈ ([.lzCompressBits, .lzCompressBitsText] : List Instr),
      Ready i (runOn i (wordsBytes [0x61, 0x61, 0x61, 0x61, 0x100]) 4 60 4 2) (latch i (operands 20 4 60 4 2)) ∧
      triples ((runOn i (wordsBytes [0x61, 0x61, 0x61, 0x61, 0x100]) 4 60 4 2).mem.readWords 0x1000 (20 / 4)) 4 2 =
        [{ off := 0, len := 0, chr := some 0x61, cpos := some 0 },
          { off := 1, len := 2, chr := some 0x61, cpos := some 3 }] ++
          { off := 0, len := 0, chr := some 0x100, cpos := some 4 } :: []) ∧
    4 = (replayAll [{ off := 0, len := 0, chr := some 0x61, cpos := some 0 },
      { off := 1, len := 2, chr := some 0x61, cpos := some 3 }]).length + 0 ∧
    nbytes (streamBits 4 2 [{ off := 0, len := 0, chr := some 0x61, cpos := some 0 },
      { off := 1, len := 2, chr := some 0x61, cpos := some 3 }]) ≤ 4 ∧
    4 * (tripleText [{ off := 0, len := 0, chr := some 0x61, cpos := some 0 },
      { off := 1, len := 2, chr := some 0x61, cpos := some 3 }]).length ≤ 60 := by decide +kernel

/-- HufContainerErrors: V-H11 (1 and 5 bytes), V-H12, V-H15, V-H16, a container cut before its bit count, V-H18, V-H17, and
V-H19. -/
theorem witness_containerErrors :
    (∀ bytes ∈ ([[0x00], [0x00, 0x04, 0x00, 0x41, 0x08]] : List (List Nat)),
      Ready .hufDecompress (runOn .hufDecompress (bytesOf bytes) 40 0 0 0)
        (latch .hufDecompress (operands bytes.length 40 0 0 0)) ∧
      (latch .hufDecompress (operands bytes.length 40 0 0 0)).operands.srcLen ≠ 0#32) ∧
    (readerOn ((runOn .hufDecompress (bytesOf [0x00]) 40 0 0 0).mem.readBytes 0x1000 1)).length < 16 ∧
    readerOn (bytesOf [0x00, 0x04, 0x00, 0x41, 0x08]) =
      bitsOf 16 4 ++ tableBits [(0x41, 1)] ++ List.replicate 3 false ∧
    readerOn (bytesOf [0, 0, 0, 0, 0, 0, 0, 0]) = bitsOf 16 0 ++ tableBits [] ++ List.replicate 48 false ∧
    readerOn (bytesOf [0x00, 0x01, 0x00, 0x61, 0x00, 0x00, 0x00, 0x00, 0x00]) =
      bitsOf 16 1 ++ tableBits [] ++ (bitsOf 16 0x61 ++ bitsOf 5 0 ++ List.replicate 35 false) ∧
    readerOn (bytesOf [0x00, 0x02, 0x00, 0x61, 0x08, 0x03, 0x08, 0x40, 0x00, 0x00, 0x00, 0x00]) =
      bitsOf 16 2 ++ tableBits [(0x61, 1)] ++ (bitsOf 16 0x61 ++ bitsOf 5 1 ++ List.replicate 38 false) ∧
    readerOn (bytesOf [0x00, 0x01, 0x00, 0x61, 0x08, 0x00, 0x00, 0x00]) =
      bitsOf 16 1 ++ tableBits [(0x61, 1)] ++ List.replicate 27 false ∧
    (readerOn (bytesOf [0x00, 0x01, 0x00, 0x61, 0x08, 0x00, 0x00, 0x03, 0x20]) =
        bitsOf 16 1 ++ tableBits [(0x61, 1)] ++ (bitsOf 32 100 ++ List.replicate 3 false) ∧
      (List.replicate 3 false).length < 100) ∧
    readerOn (bytesOf [0x00, 0x03, 0x00, 0x61, 0x08, 0x03, 0x10, 0x40, 0x18, 0xC2, 0x00, 0x00, 0x00, 0x00]) =
      bitsOf 16 3 ++ tableBits [(0x61, 1), (0x62, 1), (0x63, 1)] ++ (bitsOf 32 0 ++ [false]) ∧
    (readerOn (bytesOf [0x00, 0x03, 0x00, 0x61, 0x08, 0x03, 0x10, 0x80, 0x18, 0xC4, 0x00, 0x00, 0x00, 0x03]) =
        bitsOf 16 3 ++ tableBits [(0x61, 1), (0x62, 2), (0x63, 2)] ++
          (bitsOf 32 ((textBits (canon [(0x61, 1), (0x62, 2), (0x63, 2)]) []).length + [true].length) ++
            textBits (canon [(0x61, 1), (0x62, 2), (0x63, 2)]) [] ++ [true] ++ []) ∧
      ∀ e ∈ canon [(0x61, 1), (0x62, 2), (0x63, 2)], ¬e.bits <+: [true]) := by decide +kernel

/-- HufContainerErrors: the Kraft sum of V-H17's table. -/
theorem witness_containerErrors_kraft : 1 < kraftSum [(0x61, 1), (0x62, 1), (0x63, 1)] := by norm_num [kraftSum]

/-- LzStreamErrors: V-Y1 to V-Y7, each header after the triples before it. -/
theorem witness_streamErrors :
    (∀ bytes ∈ ([[0x02, 0xC2], [0x00, 0xC3, 0x21, 0x88]] : List (List Nat)),
      Ready .lzDecompressBits (runOn .lzDecompressBits (bytesOf bytes) 4 0 6 6)
        (latch .lzDecompressBits (operands bytes.length 4 0 6 6))) ∧
    StreamFits 6 6 [] literalA ∧ (∀ x ∈ literalA, x.chr ≠ none) ∧ 4 * (replayAll literalA).length ≤ 4 ∧
    (∀ p ∈ ([([0x02, 0xC2], 0, 0, 1, [false, true, true, false, false, false, false, true, false]),
        ([0x20, 0xC2], 0, 2, 0, [false, true, true, false, false, false, false, true, false])] :
        List (List Nat × Nat × Nat × Nat × List Bool)),
      readerOn (bytesOf p.1) =
        streamBits 6 6 [] ++ (bitsOf 1 p.2.1 ++ bitsOf (clog2 6) p.2.2.1 ++ bitsOf (clog2 7) p.2.2.2.1 ++ p.2.2.2.2)) ∧
    (∀ p ∈ ([([0x00, 0xC3, 0x21, 0x88], 1, 0), ([0x00, 0xC3, 0x3D, 0x88], 1, 7), ([0x00, 0xC3, 0xE5, 0x88], 7, 1),
        ([0x00, 0xC3, 0x45, 0x88], 2, 1), ([0x00, 0xC3, 0x05, 0x88], 0, 1)] : List (List Nat × Nat × Nat)),
      p.2.1 < 2 ^ clog2 6 ∧ p.2.2 < 2 ^ clog2 7 ∧
        ∃ rest ∈ [(readerOn (bytesOf p.1)).drop 22],
          readerOn (bytesOf p.1) =
            streamBits 6 6 literalA ++ (bitsOf 1 1 ++ bitsOf (clog2 6) p.2.1 ++ bitsOf (clog2 7) p.2.2 ++ rest)) := by
  refine ⟨by decide +kernel, ?_, by decide, by decide, by decide +kernel, by decide +kernel⟩
  simp [literalA, StreamFits]

/-- LzStreamErrors: after the literal, with its capacity, a match whose copy exceeds it and a literal whose character does (the
second triple of V-L1); and V-Y12, cut inside a header. -/
theorem witness_streamErrors_overflow_cut :
    (Ready .lzDecompressBits (runOn .lzDecompressBits (bytesOf [0x00, 0xC3, 0x25, 0x88]) 4 0 6 6)
        (latch .lzDecompressBits (operands 4 4 0 6 6)) ∧
      readerOn ((runOn .lzDecompressBits (bytesOf [0x00, 0xC3, 0x25, 0x88]) 4 0 6 6).mem.readBytes 0x1000 4) =
        streamBits 6 6 literalA ++ (bitsOf 1 1 ++ bitsOf (clog2 6) 1 ++ bitsOf (clog2 7) 1 ++
          [false, true, true, false, false, false, true, false, false, false]) ∧
      1 ≤ (replayAll literalA).length ∧ 4 < 4 * ((replayAll literalA).length + 1)) ∧
    (Ready .lzDecompressBits (runOn .lzDecompressBits (bytesOf streamAbc) 4 0 6 6)
        (latch .lzDecompressBits (operands 7 4 0 6 6)) ∧
      readerOn ((runOn .lzDecompressBits (bytesOf streamAbc) 4 0 6 6).mem.readBytes 0x1000 7) =
        streamBits 6 6 literalA ++ (bitsOf 1 0 ++ bitsOf (clog2 6) 0 ++ bitsOf (clog2 7) 0 ++
          (readerOn (bytesOf streamAbc)).drop 22) ∧
      8 ≤ ((readerOn (bytesOf streamAbc)).drop 22).length ∧
      ((readerOn (bytesOf streamAbc)).drop 22).take 8 ≠ List.replicate 8 false ∧
      ¬4 < 4 * ((replayAll literalA).length + 0) ∧ 4 < 4 * ((replayAll literalA).length + 0 + 1)) ∧
    (Ready .lzDecompressBits (runOn .lzDecompressBits (bytesOf [0, 0]) 64 0 256 255)
        (latch .lzDecompressBits (operands 2 64 0 256 255)) ∧
      readerOn ((runOn .lzDecompressBits (bytesOf [0, 0]) 64 0 256 255).mem.readBytes 0x1000 2) =
        streamBits 256 255 [] ++ List.replicate 16 false ∧
      8 ≤ 16 ∧ 16 < 1 + clog2 256 + clog2 (255 + 1)) := by decide +kernel

/-- "(0,0,a)", the token of the literal. -/
def tokenA : List Nat := [0x28, 0x30, 0x2C, 0x30, 0x2C, 0x61, 0x29]

/-- The one token. -/
theorem tokensA : List.Forall₂ IsToken [tokenA] literalA :=
  .cons ⟨[0x30], [0x30], isNum (by decide), isNum (by decide), rfl⟩ .nil

/-- LzStreamErrors: the parts of the texts of `witness_streamErrors_text` that stand before the bad token. -/
theorem witness_streamErrors_before :
    TokensFit [] literalA ∧ 4 * (replayAll literalA).length ≤ 4 ∧ TextBefore [] [] ∧
      TextBefore (tokenA ++ [0x20]) literalA ∧ TextOf tokenA literalA :=
  ⟨by simp [literalA, TokensFit], by decide, ⟨[], .nil, rfl⟩, ⟨_, tokensA, rfl⟩, _, tokensA, rfl⟩

/-- LzStreamErrors: the texts of V-X15 to V-X18, V-X6, V-X7, V-X11, V-X3, V-X4, V-X5, V-X8 and V-X9, each in the parts before and
after the token that breaks a rule, are the source of a command past its checks. -/
theorem witness_streamErrors_text :
    ∀ p ∈ ([([], [0x28, 0x30, 0x2C, 0x30, 0x2C, 0x61, 0x62, 0x29]), ([], [0x28, 0x30, 0x2C, 0x30, 0x2C, 0x61]),
        ([], [0x28, 0x2C, 0x30, 0x2C, 0x61, 0x29]), ([], [0x78]), (tokenA ++ [0x20], []),
        (tokenA ++ [0x20], [0x20, 0x28, 0x31, 0x2C, 0x31, 0x2C, 0x29]),
        (tokenA ++ [0x20], [0x28, 0x31, 0x2C, 0x34, 0x32, 0x39, 0x34, 0x39, 0x36, 0x37, 0x32, 0x39, 0x36, 0x2C, 0x29]),
        ([], [0x28, 0x31, 0x2C, 0x31, 0x2C, 0x61, 0x29]), ([], [0x28, 0x31, 0x2C, 0x30, 0x2C, 0x61, 0x29]),
        ([], [0x28, 0x30, 0x2C, 0x31, 0x2C, 0x61, 0x29]), (tokenA, [0x2C, 0x28, 0x31, 0x2C, 0x31, 0x2C, 0x29]),
        (tokenA, [0x28, 0x30, 0x2C, 0x30, 0x2C, 0x62, 0x29])] : List (List Nat × List Nat)),
      p.1 ++ p.2 ≠ [] ∧
      Ready .lzDecompressText (runOn .lzDecompressText (wordsBytes (p.1 ++ p.2)) 4 0 6 6)
        (latch .lzDecompressText (operands (wordsBytes (p.1 ++ p.2)).length 4 0 6 6)) ∧
      (runOn .lzDecompressText (wordsBytes (p.1 ++ p.2)) 4 0 6 6).mem.readWords 0x1000
        ((wordsBytes (p.1 ++ p.2)).length / 4) = p.1 ++ p.2 := by decide +kernel

/-- LzStreamErrors: what is no token in V-X15 to V-X18, V-X6, V-X7 and V-X11, and a number with no comma after it. -/
theorem witness_streamErrors_badTokens :
    BadToken [0x28, 0x30, 0x2C, 0x30, 0x2C, 0x61, 0x62, 0x29] ∧ BadToken [0x28, 0x30, 0x2C, 0x30, 0x2C, 0x61] ∧
    BadToken [0x28, 0x2C, 0x30, 0x2C, 0x61, 0x29] ∧ BadToken [0x78] ∧ BadToken [] ∧
    BadToken [0x20, 0x28, 0x31, 0x2C, 0x31, 0x2C, 0x29] ∧
    BadToken [0x28, 0x31, 0x2C, 0x34, 0x32, 0x39, 0x34, 0x39, 0x36, 0x37, 0x32, 0x39, 0x36, 0x2C, 0x29] ∧
    BadToken [0x28, 0x31] :=
  ⟨.inr (.inr (.inr ⟨[0x30], 0, [0x30], 0, [0x61, 0x62, 0x29], isNum (by decide), isNum (by decide), rfl, by decide,
      by decide⟩)),
    .inr (.inr (.inr ⟨[0x30], 0, [0x30], 0, [0x61], isNum (by decide), isNum (by decide), rfl, by decide, by decide⟩)),
    .inr (.inl ⟨_, rfl, .inl (by simp [DigitNext])⟩), .inl (by decide), .inl (by decide), .inl (by decide),
    .inr (.inr (.inl ⟨[0x31], 1, _, isNum (by decide), rfl, .inr ⟨[0x34, 0x32, 0x39, 0x34, 0x39, 0x36, 0x37, 0x32, 0x39, 0x36],
      [0x2C, 0x29], ⟨by decide, by decide⟩, rfl, by simp [DigitNext], .inl (by decide +kernel)⟩⟩)),
    .inr (.inl ⟨_, rfl, .inr ⟨[0x31], [], ⟨by decide, by decide⟩, rfl, by simp [DigitNext], .inr (by decide)⟩⟩)⟩

/-- LzStreamErrors: the tokens of V-X3, V-X4 and V-X5, which cannot be replayed at the start; and the separators of V-X8 and
V-X9. -/
theorem witness_streamErrors_replay :
    (∃ t : Triple, IsToken [0x28, 0x31, 0x2C, 0x31, 0x2C, 0x61, 0x29] t ∧ (replayAll []).length < t.off) ∧
    (∃ t : Triple, IsToken [0x28, 0x31, 0x2C, 0x30, 0x2C, 0x61, 0x29] t ∧ (replayAll []).length < t.off ∧
      ¬(t.off = 0 ↔ t.len = 0)) ∧
    (∃ t : Triple, IsToken [0x28, 0x30, 0x2C, 0x31, 0x2C, 0x61, 0x29] t ∧ t.off ≤ (replayAll []).length ∧
      ¬(t.off = 0 ↔ t.len = 0)) ∧
    literalA ≠ [] ∧ literalA.getLast? = some { off := 0, len := 0, chr := some 0x61, cpos := none } ∧ 0x2C ≠ 0x20 ∧
    0x28 ≠ 0x20 :=
  ⟨⟨{ off := 1, len := 1, chr := some 0x61, cpos := none },
      ⟨[0x31], [0x31], isNum (by decide), isNum (by decide), rfl⟩, by decide⟩,
    ⟨{ off := 1, len := 0, chr := some 0x61, cpos := none },
      ⟨[0x31], [0x30], isNum (by decide), isNum (by decide), rfl⟩, by decide, by decide⟩,
    ⟨{ off := 0, len := 1, chr := some 0x61, cpos := none },
      ⟨[0x30], [0x31], isNum (by decide), isNum (by decide), rfl⟩, by decide, by decide⟩,
    by decide, rfl, by decide, by decide⟩

/-- OutputOverflowErrors: V-H7, V-H8, V-T12, V-C12, V-L13, V-Y10, V-X23. -/
theorem witness_outputOverflow :
    (Ready .hufCompress (runOn .hufCompress (wordsBytes textAD) 18 0 0 0) (latch .hufCompress (operands 40 18 0 0 0)) ∧
      18 < nbytes (containerFields (canonSort (treeLengths (frequencies textAD))) textAD)) ∧
    (Ready .hufDecompress (runOn .hufDecompress (bytesOf containerAD) 36 0 0 0)
        (latch .hufDecompress (operands 19 36 0 0 0)) ∧ 36 < 4 * textAD.length ∧
      readerOn ((runOn .hufDecompress (bytesOf containerAD) 36 0 0 0).mem.readBytes 0x1000 19) =
        containerFields [(0x41, 1), (0x42, 2), (0x43, 3), (0x44, 3)] textAD ++ [false]) ∧
    (Ready .hufLengths (runOn .hufLengths (wordsBytes [0x41, 4, 0x42, 3]) 15 0 0 0)
        (latch .hufLengths (operands 16 15 0 0 0)) ∧ 15 < 8 * [(0x41, 4), (0x42, 3)].length) ∧
    (Ready .hufCanon (runOn .hufCanon (wordsBytes [0x41, 1, 0x42, 1]) 23 0 0 0)
        (latch .hufCanon (operands 16 23 0 0 0)) ∧ 23 < 12 * [(0x41, 1), (0x42, 1)].length) ∧
    (Ready .lzCompressBitsText (runOn .lzCompressBitsText (wordsBytes textAbc) 7 119 6 6)
        (latch .lzCompressBitsText (operands 36 7 119 6 6)) ∧ 119 < 4 * (tripleText triplesAbc).length) ∧
    (Ready .lzCompressBits (runOn .lzCompressBits (wordsBytes textAbc) 6 0 6 6)
        (latch .lzCompressBits (operands 36 6 0 6 6)) ∧ 6 < nbytes (streamBits 6 6 triplesAbc)) ∧
    (Ready .lzDecompressBits (runOn .lzDecompressBits (bytesOf streamAbc) 35 0 6 6)
        (latch .lzDecompressBits (operands 7 35 0 6 6)) ∧ 4 * (replayAll (triplesAbc.take 3)).length ≤ 35 ∧
      35 < 4 * (replayAll (triplesAbc.take 4)).length) ∧
    (Ready .lzDecompressText (runOn .lzDecompressText (wordsBytes tokensAbc) 35 0 4 4)
        (latch .lzDecompressText (operands 120 35 0 4 4)) ∧ 4 * (replayAll (triplesAbc.take 3)).length ≤ 35 ∧
      35 < 4 * (replayAll (triplesAbc.take 4)).length) := by decide +kernel

/-- OutputOverflowErrors: the text of the tokens is the text form. -/
theorem witness_outputOverflow_text :
    TokensFit [] triplesAbc ∧
    TextOf ((runOn .lzDecompressText (wordsBytes tokensAbc) 35 0 4 4).mem.readWords 0x1000 (120 / 4)) triplesAbc := by
  rw [show (runOn .lzDecompressText (wordsBytes tokensAbc) 35 0 4 4).mem.readWords 0x1000 (120 / 4) = tokensAbc by
    decide +kernel]
  refine ⟨by simp [triplesAbc, TokensFit, replay, copyBack], triplesAbc.map token, ?_, rfl⟩
  exact .cons ⟨[0x30], [0x30], isNum (by decide), isNum (by decide), rfl⟩
    (.cons ⟨[0x30], [0x30], isNum (by decide), isNum (by decide), rfl⟩
      (.cons ⟨[0x30], [0x30], isNum (by decide), isNum (by decide), rfl⟩
        (.cons ⟨[0x33], [0x36], isNum (by decide), isNum (by decide), rfl⟩ .nil)))

/-- OutputOverflowErrors: the Kraft sum of V-C12's table. -/
theorem witness_outputOverflow_kraft : kraftSum [(0x41, 1), (0x42, 1)] ≤ 1 := by norm_num [kraftSum]

/-- TreeLeavesAreTheSymbols, KraftEquality, TreeDependsOnTheMapOnly: a map, its single-symbol and two-symbol boundaries, and two
listings of one map (V-T1, V-T1b). -/
theorem witness_tree :
    [(0x7A, 5)] ≠ ([] : List (Nat × Nat)) ∧ ([(0x7A, 5)] : List (Nat × Nat)).length = 1 ∧
      2 ≤ ([(1, 7), (2, 7)] : List (Nat × Nat)).length ∧
      ([(0x41, 4), (0x42, 3)] : List (Nat × Nat)).Perm [(0x42, 3), (0x41, 4)] ∧
      DistinctKeys [(0x41, 4), (0x42, 3)] := by decide

/-- MergeTakesTheTwoLeast: two nodes of equal frequency (the tie of V-T4), a next number above theirs, and the map of V-T5, listed
out of order. -/
theorem witness_merge :
    DistinctKeys [(0x65, 1), (0x61, 1), (0x63, 1), (0x62, 1), (0x64, 1)] ∧
      (∀ x ∈ ([.leaf 3 2 2, .node 2 3 (.leaf 1 1 0) (.leaf 2 1 1)] : List HufTree), x.seq < 4) ∧
    2 ≤ ([.leaf 3 2 2, .node 2 3 (.leaf 1 1 0) (.leaf 2 1 1)] : List HufTree).length ∧
      (([.leaf 3 2 2, .node 2 3 (.leaf 1 1 0) (.leaf 2 1 1)] : List HufTree).map HufTree.seq).Nodup := by decide

/-- CanonRecurrence, CodesFitExactlyByKraft, CanonicalCodesArePrefixFree: neighbours of a table that fits (V-C1), and of one
that does not (V-C4). -/
theorem witness_canon :
    codesFit (canon [(0x44, 3), (0x41, 1), (0x43, 3), (0x42, 2)]) = true ∧
      (canon [(0x44, 3), (0x41, 1), (0x43, 3), (0x42, 2)])[0]? = some { sym := 0x41, len := 1, code := 0 } ∧
      (canon [(0x44, 3), (0x41, 1), (0x43, 3), (0x42, 2)])[1]? = some { sym := 0x42, len := 2, code := 2 } ∧
      (canon [(1, 1), (2, 1), (3, 1), (4, 1)])[2]? = some { sym := 3, len := 1, code := 2 } ∧
      (canon [(1, 1), (2, 1), (3, 1), (4, 1)])[3]? = some { sym := 4, len := 1, code := 3 } ∧ 2 ^ 1 ≤ 2 ∧
      ({ sym := 0x43, len := 31, code := 0x40000001 } : CodeEntry) ∈ canon [(0x41, 1), (0x42, 31), (0x43, 31)] ∧
      0x40000001 < 2 ^ 31 := by decide

/-- WriterReaderLaw, PackingOfBits, Clog2IsTheLeastExponent: fields with the empty one among them, a bit of a container, and the
least argument. -/
theorem witness_bits :
    (∀ f ∈ ([(5, 3), (0, 0), (1, 1), (0x41, 8)] : List (Nat × Nat)), f.1 < 2 ^ f.2) ∧
      15 < 8 * (finish (putFields [(5, 3), (1, 1), (0x41, 8)])).length ∧ 1 ≤ 1 ∧ 1 ≤ 2 ^ 0 := by decide

/-- ContainerLayout, HuffmanRoundTrip: the empty text and V-H1. -/
theorem witness_container :
    hufCompress [] 0 = .ok [] ∧ hufCompress textAD 19 = .ok (bytesOf containerAD) ∧ 4 * textAD.length ≤ 40 := by
  decide +kernel

/-- BestMatchIsLongestMostDistant: V-L4 at position 6, where two candidates tie, and a position with no match. -/
theorem witness_bestMatch :
    3 < 6 ∧ matchLength [0x61, 0x62, 0x58, 0x61, 0x62, 0x59, 0x61, 0x62] 2 6 3 = 2 ∧
      matchLength [0x61, 0x62, 0x58, 0x61, 0x62, 0x59, 0x61, 0x62] 2 6 4 < min 2 (8 - 6) ∧
      bestMatch [0x61, 0x62, 0x58, 0x61, 0x62, 0x59, 0x61, 0x62] 8 2 6 = (6, 2) ∧
      bestMatch [0x61, 0x62, 0x58, 0x61, 0x62, 0x59, 0x61, 0x62] 8 2 1 = (0, 0) := by decide

/-- TripleInvariants: the last triple of V-L1, which has no character, and the one before it, which has. -/
theorem witness_triples :
    (triples textAbc 6 6)[3]? = some { off := 3, len := 6, chr := none, cpos := none } ∧
      (triples textAbc 6 6)[2]? = some { off := 0, len := 0, chr := some 0x63, cpos := some 2 } := by decide

/-- DecimalRendering: a number that is not 0. -/
theorem witness_decimal : 10 ≠ 0 := by decide

/-- TextFormRoundTrip, BitstreamRoundTrip: V-L1, and V-L5, whose last triple has character U+0000. -/
theorem witness_roundTrip :
    lzCompress { bits := true, text := true } 6 6 7 120 textAbc = .ok (bytesOf streamAbc, tokensAbc) ∧
      textAbc.length ≤ 0xFFFFFFFF ∧ 4 * textAbc.length ≤ 36 ∧ (∀ c ∈ textAbc, c ≤ 0xFF) ∧
      lzCompress { bits := true, text := false } 4 4 4 0 [0x61, 0] = .ok (bytesOf [0x01, 0x84, 0x00, 0x00], []) ∧
      endsWithNul (triples [0x61, 0] 4 4) = true ∧
      8 * 4 - (streamBits 4 4 (triples [0x61, 0] 4 4)).length < headerWidth 4 4 := by decide +kernel

/-- StepRunsTheDecodedCommand: a legal and an illegal word running, with the engine's turn scheduled or not, and the host's
operations with the block idle or not. -/
theorem witness_step :
    (busyState.running = some busyLatch ∧ decodeCommand busyLatch.cmd = .ok .hufCompress ∧ busyState.schedule = []) ∧
    ((acceptGo 0x80000008 (idleState [])).running = some { cmd := 8, operands := Operands.reset } ∧
      decodeCommand 8 = .error .undefinedOpcode) ∧
    ({ busyState with schedule := [.engine] } : State).schedule = .engine :: [] ∧
    ((idleState [.powerOn]).host = .powerOn :: [] ∧ (idleState [.powerOn]).schedule = [] ∧
      (idleState [.powerOn]).running = none) ∧
    ({ idleState [] with schedule := [.host] } : State).schedule = .host :: [] ∧ (idleState []).host = [] ∧
    (({ busyState with schedule := [.host] } : State).schedule = .host :: [] ∧ busyState.host = []) := by
  decide +kernel

/-- HostDutiesWhileBusy: accesses whose last byte is the first of the destination, and the bytes just outside the ranges. -/
theorem witness_hostDuties :
    busyState.running = some busyLatch ∧ decodeCommand busyLatch.cmd = .ok .hufCompress ∧
    0x1FFF + 2 ≤ busyState.config.memBytes ∧
    (∃ b, InBytes b 0x1FFF 2 ∧ inRanges (usedRanges (useOf .hufCompress) busyLatch.operands) b = true) ∧
    (∃ b, InBytes b 0x1FFF 2 ∧ inRanges (dstRanges (useOf .hufCompress) busyLatch.operands) b = true) ∧
    (∀ b, InBytes b 0x1000 2 → inRanges (dstRanges (useOf .hufCompress) busyLatch.operands) b = false) ∧
    (∀ b, InBytes b 0x2040 2 → inRanges (usedRanges (useOf .hufCompress) busyLatch.operands) b = false) := by
  refine ⟨by decide +kernel, rfl, by decide +kernel, ⟨0x2000, by unfold InBytes; decide⟩, ⟨0x2000, by unfold InBytes; decide⟩,
    fun b h => ?_, fun b h => ?_⟩
  · obtain ⟨h1, h2⟩ := h
    have : b = 0x1000 ∨ b = 0x1001 := by omega
    rcases this with rfl | rfl <;> decide
  · obtain ⟨h1, h2⟩ := h
    have : b = 0x2040 ∨ b = 0x2041 := by omega
    rcases this with rfl | rfl <;> decide

/-- HostDutiesWhileBusy: an idle block and one that runs an illegal word, and the last byte of the memory. -/
theorem witness_hostFree :
    (idleState []).running = none ∧
    (∃ l, (acceptGo 0x80000008 (idleState [])).running = some l ∧ decodeCommand l.cmd = .error .undefinedOpcode) ∧
    ([7] : List Byte).length = 1 ∧ 0xFFFF + 1 ≤ cfg.memBytes := ⟨rfl, ⟨_, rfl, rfl⟩, rfl, by decide⟩

/-- BusyBuffersStayAsTheyWere: a host write beside the buffers while the command runs. -/
theorem witness_busyBuffers :
    ∃ t, step { busyState with host := [.writeMem 0x4000 [1, 2]], schedule := [.host] } = .next t ∧
      t.running = some busyLatch ∧ inRanges (usedRanges (useOf .hufCompress) busyLatch.operands) 0x1000 = true :=
  ⟨_, rfl, rfl, rfl⟩

/-- StepKeepsCanonicalMemory to StepKeepsLegalErrorCode: the invariants hold of a running state, which steps. -/
theorem witness_invariants :
    busyState.canonical = true ∧ busyState.insideMemory = true ∧ busyState.latchedFrozen = true ∧
      busyState.busyClear = true ∧ busyState.legalErrCode = true ∧ ∃ t, step busyState = .next t :=
  ⟨by decide +kernel, by decide +kernel, by decide +kernel, by decide +kernel, by decide +kernel, _, rfl⟩

/-- CommandCompletesEventually: a running command, nothing from the host, and turns before the engine's. -/
theorem witness_eventually :
    ({ busyState with schedule := [.host, .host] } : State).busy = true ∧
      ({ busyState with schedule := [.host, .host] } : State).host = [] := ⟨rfl, rfl⟩

end Sys2Proof.Tests
end

section
/-! PROOFS. `clog2` of 00_scope.md R10 is Mathlib's `Nat.clog 2`. -/

namespace Sys2Proof.Machine

/-- The search finds the ceiling logarithm when its range of exponents holds it. -/
theorem clog2From_eq_clog (x fuel k : Nat) (hlow : k ≤ Nat.clog 2 x) (hhigh : Nat.clog 2 x ≤ k + fuel) :
    clog2From x fuel k = Nat.clog 2 x := by
  induction fuel generalizing k with
  | zero => exact Nat.le_antisymm hlow hhigh
  | succ fuel ih =>
    rw [clog2From]
    split
    case isTrue hfits => exact Nat.le_antisymm hlow (Nat.clog_le_of_le_pow hfits)
    case isFalse hshort =>
      have hnext : k < Nat.clog 2 x := (Nat.lt_clog_iff_pow_lt Nat.one_lt_two).2 (Nat.lt_of_not_le hshort)
      exact ih (k + 1) hnext (by omega)

/-- The fuel `x` is enough, since `x ≤ 2 ^ x`; this also holds at 0, where both sides are 0. -/
theorem clog2_eq_clog (x : Nat) : clog2 x = Nat.clog 2 x :=
  clog2From_eq_clog x x 0 (Nat.zero_le _) <| by
    simpa using Nat.clog_le_of_le_pow (Nat.lt_two_pow_self (n := x)).le

theorem clog2_le_iff_le_two_pow {x k : Nat} : clog2 x ≤ k ↔ x ≤ 2 ^ k := by
  rw [clog2_eq_clog, Nat.clog_le_iff_le_pow Nat.one_lt_two]

theorem le_two_pow_clog2 (x : Nat) : x ≤ 2 ^ clog2 x := clog2_le_iff_le_two_pow.1 le_rfl

end Sys2Proof.Machine

namespace Sys2Proof

/-- Settles O41: `clog2 x ≤ k` and `x ≤ 2 ^ k` say the same, for every `x` and `k`. -/
theorem clog2IsTheLeastExponent : Obligations.Clog2IsTheLeastExponent :=
  fun x _ => ⟨Machine.le_two_pow_clog2 x, fun _ => Machine.clog2_le_iff_le_two_pow.2⟩

end Sys2Proof
end

section
/-! PROOFS. What a step does to the command state machine (10_state.md R33 to R35), and the two invariants that hold while BUSY
(R32, R34). -/

namespace Sys2Proof.Machine

/-! ### IDLE and BUSY -/

theorem State.busy_eq_false_iff {s : State} : s.busy = false ↔ s.running = none := by
  simp [State.busy]

theorem State.busy_eq_true_iff {s : State} : s.busy = true ↔ s.running ≠ none := by
  simp [State.busy, Option.isSome_iff_ne_none]

/-! ### The outcome of a command -/

/-- A command that answers a next state has completed (10_state.md R35). -/
theorem exec_next_completed {i : Instr} {s t : State} (h : exec i s = .next t) : t.running = none ∧ t.done = true := by
  rw [exec_eq_runCommand] at h
  rcases runCommand_cases (useOf i) (bodyOf i) s with
    ⟨-, hr⟩ | ⟨l, e, -, -, hr⟩ | ⟨l, e, -, -, -, hr⟩ | ⟨l, r, -, -, -, hr⟩ <;> rw [hr] at h <;> cases h
  · exact ⟨rfl, rfl⟩
  · exact ⟨rfl, rfl⟩
  · exact ⟨rfl, rfl⟩

/-- An engine's turn completes the running command, and does nothing while IDLE. -/
theorem engineStep_next {s t : State} (h : engineStep s = .next t) :
    (s.running = none ∧ t = s) ∨ (s.running ≠ none ∧ t.running = none ∧ t.done = true) := by
  rcases engineStep_cases s with ⟨hn, he⟩ | ⟨l, e, hl, -, he⟩ | ⟨l, i, hl, -, he⟩ <;> rw [he] at h
  · cases h; exact .inl ⟨hn, rfl⟩
  · cases h; exact .inr ⟨by simp [hl], rfl, rfl⟩
  · exact .inr ⟨by simp [hl], exec_next_completed h⟩

/-! ### The host's turn -/

/-- An access inside the interface is 32 bits wide, at `BASE` plus its offset (10_state.md R20). -/
theorem regOffset_eq_ok {c : Config} {addr width off : Nat} (h : regOffset c addr width = .ok off) :
    width = 4 ∧ addr = c.base + off := by
  unfold regOffset at h
  split_ifs at h
  cases h
  omega

/-- The same registers in both states: only the memory and the host's side may differ. -/
def SameRegisters (s t : State) : Prop :=
  ∃ m ops w bs, t = { s with mem := m, host := ops, hostWord := w, hostBytes := bs }

theorem SameRegisters.refl (s : State) : SameRegisters s s := ⟨s.mem, s.host, s.hostWord, s.hostBytes, rfl⟩

/-- The host reaches the registers only by a write of a register or by power-on (60_exceptions.md R313, R319). -/
theorem hostOperation_next_registers {op : HostOp} {s t : State} (h : hostOperation op s = .next t) :
    (∃ r v, op = .writeReg (s.config.base + offsetOf r) 4 v ∧ t = writeReg r v s) ∨
    (op = .powerOn ∧ t = powerOnReset s) ∨ SameRegisters s t := by
  cases op with
  | writeReg addr width v =>
    simp only [hostOperation] at h
    split at h
    case h_1 => cases h
    case h_2 off hoff =>
      cases h
      obtain ⟨rfl, rfl⟩ := regOffset_eq_ok hoff
      cases hr : regAt off with
      | none => exact .inr (.inr (by simpa [writeOffset, hr] using SameRegisters.refl s))
      | some r => exact .inl ⟨r, v, by rw [regAt_eq_some off r hr], by simp [writeOffset, hr]⟩
  | readReg addr width =>
    simp only [hostOperation] at h
    split at h
    case h_1 => cases h
    case h_2 => cases h; exact .inr (.inr ⟨s.mem, s.host, _, s.hostBytes, rfl⟩)
  | poll addr mask v =>
    simp only [hostOperation] at h
    split at h
    case h_1 => cases h
    case h_2 =>
      split at h <;> cases h
      · exact .inr (.inr ⟨s.mem, s.host, _, s.hostBytes, rfl⟩)
      · exact .inr (.inr ⟨s.mem, _, _, s.hostBytes, rfl⟩)
  | writeMem addr bytes =>
    simp only [hostOperation] at h
    split at h
    · cases h
    · split at h <;> cases h
      exact .inr (.inr ⟨_, s.host, s.hostWord, s.hostBytes, rfl⟩)
  | readMem addr n =>
    simp only [hostOperation] at h
    split at h
    · cases h
    · split at h <;> cases h
      exact .inr (.inr ⟨s.mem, s.host, s.hostWord, _, rfl⟩)
  | powerOn => cases h; exact .inr (.inl ⟨rfl, rfl⟩)

/-- What the host's turn does to the registers. -/
theorem hostStep_next {s t : State} (h : hostStep s = .next t) :
    (∃ r v rest, s.host = .writeReg (s.config.base + offsetOf r) 4 v :: rest ∧
      t = writeReg r v { s with host := rest }) ∨
    (∃ rest, s.host = .powerOn :: rest ∧ t = powerOnReset { s with host := rest }) ∨ SameRegisters s t := by
  rcases hostStep_cases s with ⟨-, hs⟩ | ⟨op, rest, hop, hs⟩ <;> rw [hs] at h
  · cases h; exact .inr (.inr (SameRegisters.refl s))
  · rcases hostOperation_next_registers h with ⟨r, v, rfl, rfl⟩ | ⟨rfl, rfl⟩ | ⟨m, ops, w, bs, rfl⟩
    · exact .inl ⟨r, v, rest, hop, rfl⟩
    · exact .inr (.inl ⟨rest, hop, rfl⟩)
    · exact .inr (.inr ⟨m, ops, w, bs, rfl⟩)

/-- Whose turn a step is: that of the agent the schedule names, and with an empty schedule the engine's while BUSY, else the
host's (log 1). -/
theorem step_turn (s : State) :
    ∃ sch, ((s.schedule.head? = some .engine ∨ (s.schedule = [] ∧ s.busy = true)) ∧
        step s = engineStep { s with schedule := sch }) ∨
      ((s.schedule.head? = some .host ∨ (s.schedule = [] ∧ s.busy = false)) ∧
        step s = hostStep { s with schedule := sch }) := by
  cases hs : s.schedule with
  | nil =>
    refine ⟨[], ?_⟩
    have hself : { s with schedule := [] } = s := by rw [← hs]
    rw [hself]
    cases hb : s.busy with
    | true => exact .inl ⟨by simp, by simp [step, nextTurn, hs, hb, turnOf]⟩
    | false => exact .inr ⟨by simp, by simp [step, nextTurn, hs, hb, turnOf]⟩
  | cons a rest =>
    refine ⟨rest, ?_⟩
    cases a with
    | engine => exact .inl ⟨by simp, by simp [step, nextTurn, hs, turnOf]⟩
    | host => exact .inr ⟨by simp, by simp [step, nextTurn, hs, turnOf]⟩

/-! ### What stays while a command runs -/

/-- The running command, CMD, the operand registers and the results are the same in both states, and DONE does not rise. -/
structure SameWhileRunning (s t : State) : Prop where
  running : t.running = s.running
  cmd : t.cmd = s.cmd
  operands : t.operands = s.operands
  errCode : t.errCode = s.errCode
  errPos : t.errPos = s.errPos
  dstLen : t.dstLen = s.dstLen
  dst2Len : t.dst2Len = s.dst2Len
  statOrig : t.statOrig = s.statOrig
  statComp : t.statComp = s.statComp
  statCycles : t.statCycles = s.statCycles
  done : t.done = true → s.done = true

theorem SameRegisters.sameWhileRunning {s t : State} (h : SameRegisters s t) : SameWhileRunning s t := by
  obtain ⟨m, ops, w, bs, rfl⟩ := h
  constructor <;> simp

/-- The schedule and the host's operations are no part of what stays. -/
theorem SameWhileRunning.of_turn {s t : State} {sch : List Agent} {ops : List HostOp}
    (h : SameWhileRunning { s with schedule := sch, host := ops } t) : SameWhileRunning s t := { h with }

@[simp] theorem softReset_running (s : State) : (softReset s).running = none := by
  unfold softReset; split <;> rfl

/-- A register write leaves the block IDLE, starts a command, or keeps the running one with its registers (10_state.md R32,
R34). -/
theorem writeReg_running_cases (r : Reg) (v : Word) (s : State) :
    (writeReg r v s).running = none ∨ writeReg r v s = acceptGo v s ∨ SameWhileRunning s (writeReg r v s) := by
  rcases writeReg_cases r v s with h | h | h | ⟨-, h⟩ | ⟨-, -, h⟩ | ⟨hb, h⟩ | h | ⟨hb, o, h⟩ <;> rw [h]
  · exact .inr (.inr (by constructor <;> simp))
  · exact .inl (softReset_running s)
  · exact .inr (.inr (by constructor <;> simp))
  · exact .inr (.inr (by constructor <;> simp))
  · exact .inr (.inl rfl)
  · exact .inl (State.busy_eq_false_iff.1 hb)
  · exact .inr (.inr (by constructor <;> simp +contextual))
  · exact .inl (State.busy_eq_false_iff.1 hb)

/-- A step leaves the block IDLE, starts a command, or keeps the running one with its registers. -/
theorem step_running_cases {s t : State} (h : step s = .next t) :
    t.running = none ∨ (∃ v s', t = acceptGo v s') ∨ SameWhileRunning s t := by
  obtain ⟨sch, ⟨-, hs⟩ | ⟨-, hs⟩⟩ := step_turn s <;> rw [hs] at h
  · rcases engineStep_next h with ⟨hn, rfl⟩ | ⟨-, ht, -⟩
    · exact .inl hn
    · exact .inl ht
  · rcases hostStep_next h with ⟨r, v, rest, -, rfl⟩ | ⟨rest, -, rfl⟩ | hsame
    · rcases writeReg_running_cases r v { s with schedule := sch, host := rest } with hr | hr | hr
      · exact .inl hr
      · exact .inr (.inl ⟨v, _, hr⟩)
      · exact .inr (.inr hr.of_turn)
    · exact .inl rfl
    · exact .inr (.inr hsame.sameWhileRunning.of_turn)

/-- A predicate that holds while IDLE and after GO acceptance, and that a running command's registers decide, is kept by every
step. -/
theorem step_keeps_of_running {P : State → Prop} (hidle : ∀ t, t.running = none → P t) (hgo : ∀ v s, P (acceptGo v s))
    (hsame : ∀ s t, SameWhileRunning s t → P s → P t) {s t : State} (hs : P s) (h : step s = .next t) : P t := by
  rcases step_running_cases h with ht | ⟨v, s', rfl⟩ | ht
  · exact hidle t ht
  · exact hgo v s'
  · exact hsame s t ht hs

end Sys2Proof.Machine

namespace Sys2Proof
open Machine

/-- Settles O57: GO acceptance latches the very registers, and no step changes them while the command runs. -/
theorem stepKeepsLatchedFrozen : Obligations.StepKeepsLatchedFrozen := by
  intro s t hs h
  refine step_keeps_of_running (P := fun s => s.latchedFrozen = true) (fun t ht => ?_) (fun v s => ?_)
    (fun s t ht hs => ?_) hs h
  · simp [State.latchedFrozen, ht]
  · simp [State.latchedFrozen]
  · simpa [State.latchedFrozen, ht.running, ht.cmd, ht.operands] using hs

/-- Settles O58: GO acceptance clears the results, and no step writes one while the command runs. -/
theorem stepKeepsBusyResultsClear : Obligations.StepKeepsBusyResultsClear := by
  intro s t hs h
  refine step_keeps_of_running (P := fun s => s.busyClear = true) (fun t ht => ?_) (fun v s => ?_)
    (fun s t ht hs => ?_) hs h
  · simp [State.busyClear, State.busy, ht]
  · simp [State.busyClear]
  · have hdone : s.done = false → t.done = false := fun hd => by
      simpa [hd] using ht.done
    simp only [State.busyClear, State.busy, ht.running, ht.errCode, ht.errPos, ht.dstLen, ht.dst2Len, ht.statOrig,
      ht.statComp, ht.statCycles] at hs ⊢
    simp only [Bool.or_eq_true, Bool.and_eq_true, Bool.not_eq_true'] at hs ⊢
    tauto

end Sys2Proof
end

section
/-! PROOFS. The registers as the host sees them (10_state.md R20 to R34, R39): the map, reads, writes, and resets. -/

namespace Sys2Proof.Machine

/-! ### The map -/

theorem offsetOf_le (r : Reg) : offsetOf r ≤ 0x44 := by cases r <;> decide

theorem offsetOf_mod_four (r : Reg) : offsetOf r % 4 = 0 := by cases r <;> rfl

theorem regAt_reserved {off : Nat} (h : 0x48 ≤ off) : regAt off = none := by
  cases hr : regAt off with
  | none => rfl
  | some r =>
    have hoff := regAt_eq_some off r hr
    have hle := offsetOf_le r
    omega

@[simp] theorem readOffset_offsetOf (s : State) (r : Reg) : readOffset s (offsetOf r) = readReg s r := by
  simp [readOffset]

@[simp] theorem writeOffset_offsetOf (r : Reg) (v : Word) (s : State) : writeOffset (offsetOf r) v s = writeReg r v s := by
  simp [writeOffset]

theorem readOffset_reserved (s : State) {off : Nat} (h : 0x48 ≤ off) : readOffset s off = 0#32 := by
  simp [readOffset, regAt_reserved h]

theorem writeOffset_reserved (v : Word) (s : State) {off : Nat} (h : 0x48 ≤ off) : writeOffset off v s = s := by
  simp [writeOffset, regAt_reserved h]

/-! ### Accesses -/

theorem regOffset_aligned (c : Config) {off : Nat} (hoff : off < 256) (h4 : off % 4 = 0) :
    regOffset c (c.base + off) 4 = .ok off := by
  simp [regOffset, h4]; omega

@[simp] theorem regOffset_offsetOf (c : Config) (r : Reg) : regOffset c (c.base + offsetOf r) 4 = .ok (offsetOf r) :=
  regOffset_aligned c (Nat.lt_of_le_of_lt (offsetOf_le r) (by decide)) (offsetOf_mod_four r)

/-- In the window, an access that is not 32 bits wide at a multiple of 4 is refused. -/
theorem regOffset_outside_interface {c : Config} {addr width : Nat} (hlow : c.base ≤ addr) (hhigh : addr < c.base + 256)
    (hbad : width ≠ 4 ∨ (addr - c.base) % 4 ≠ 0) :
    ∃ e ∈ ([.registerAccessWidth, .registerAccessMisaligned] : List Refusal), regOffset c addr width = .error e := by
  unfold regOffset
  rw [if_neg (by omega)]
  by_cases hw : width = 4
  · have h4 : (addr - c.base) % 4 ≠ 0 := hbad.resolve_left (not_not_intro hw)
    exact ⟨.registerAccessMisaligned, by simp, by rw [if_neg (not_not_intro hw), if_pos h4]⟩
  · exact ⟨.registerAccessWidth, by simp, by rw [if_pos hw]⟩

theorem hostOperation_readReg_offsetOf (s : State) (r : Reg) :
    hostOperation (.readReg (s.config.base + offsetOf r) 4) s = .next { s with hostWord := readReg s r } := by
  simp [hostOperation]

theorem hostOperation_writeReg_offsetOf (s : State) (r : Reg) (v : Word) :
    hostOperation (.writeReg (s.config.base + offsetOf r) 4 v) s = .next (writeReg r v s) := by
  simp [hostOperation]

/-! ### The bits of STATUS, CTRL and CMD -/

/-- The STATUS word bit by bit (10_state.md R24). -/
theorem getLsbD_statusWord (s : State) {k : Nat} (hk : k < 32) :
    (statusWord s).getLsbD k =
      if k = 0 then s.running.isSome else if k = 1 then s.done else if k = 2 then decide (s.errCode ≠ 0#8)
      else if k = 3 then s.rejected else if 8 ≤ k ∧ k < 16 then s.errCode.getLsbD (k - 8) else false := by
  simp only [statusWord, BitVec.getLsbD_append]
  rcases (by omega : k = 0 ∨ k = 1 ∨ k = 2 ∨ k = 3 ∨ (4 ≤ k ∧ k < 8) ∨ (8 ≤ k ∧ k < 16) ∨ 16 ≤ k) with
    rfl | rfl | rfl | rfl | hlow | hcode | hhigh
  · simp [State.busy]
  · simp
  · simp [State.err, bne, BEq.beq]
  · simp
  · simp (disch := omega) only [Nat.sub_sub, if_pos, if_neg, BitVec.getLsbD_zero]
  · simp (disch := omega) only [Nat.sub_sub, if_pos, if_neg, Nat.reduceAdd, hcode, and_self, if_true]
  · simp (disch := omega) only [Nat.sub_sub, if_neg, BitVec.getLsbD_zero]

theorem extractLsb'_statusWord_errCode (s : State) : (statusWord s).extractLsb' 8 8 = s.errCode := by
  refine BitVec.eq_of_getLsbD_eq fun k hk => ?_
  rw [BitVec.getLsbD_extractLsb', getLsbD_statusWord s (by omega)]
  simp (disch := omega) [if_neg, if_pos, hk]

theorem statusWord_reserved (s : State) : statusWord s &&& 0xFFFF00F0#32 = 0#32 := by
  have hmask : ∀ k < 32, (0xFFFF00F0#32).getLsbD k = decide ((4 ≤ k ∧ k < 8) ∨ 16 ≤ k) := by decide
  refine BitVec.eq_of_getLsbD_eq fun k hk => ?_
  rw [BitVec.getLsbD_and, getLsbD_statusWord s hk, hmask k hk]
  by_cases hr : (4 ≤ k ∧ k < 8) ∨ 16 ≤ k
  · simp (disch := omega) only [if_neg, Bool.false_and, BitVec.getLsbD_zero]
  · simp [hr]

theorem readCtrl_reserved (s : State) : readReg s .ctrl &&& 0xFFFFFFFE#32 = 0#32 := by
  cases h : s.irqEn <;> simp [readReg, h]

/-- The mask of CMD[30:0]. -/
theorem getLsbD_cmdMask {k : Nat} (hk : k < 32) : (0x7FFFFFFF#32).getLsbD k = decide (k < 31) :=
  (by decide : ∀ k < 32, (0x7FFFFFFF#32).getLsbD k = decide (k < 31)) k hk

/-- CMD reads back the written word without GO (10_state.md R23). -/
theorem append_extractLsb'_eq_and (v : Word) : 0#1 ++ v.extractLsb' 0 31 = v &&& 0x7FFFFFFF#32 := by
  refine BitVec.eq_of_getLsbD_eq fun k hk => ?_
  rw [BitVec.getLsbD_and, getLsbD_cmdMask hk, BitVec.getLsbD_append, BitVec.getLsbD_extractLsb']
  by_cases h : k < 31 <;> simp [h]

theorem extractLsb'_and_cmdMask (v : Word) : (v &&& 0x7FFFFFFF#32).extractLsb' 10 21 = v.extractLsb' 10 21 := by
  refine BitVec.eq_of_getLsbD_eq fun k hk => ?_
  rw [BitVec.getLsbD_extractLsb', BitVec.getLsbD_extractLsb', BitVec.getLsbD_and, getLsbD_cmdMask (by omega)]
  simp [show 10 + k < 31 by omega]

/-- Words that agree under a mask agree in each bit of the mask. -/
theorem getLsbD_eq_of_and_eq {v w m : Word} (h : v &&& m = w &&& m) {k : Nat} (hk : m.getLsbD k = true) :
    v.getLsbD k = w.getLsbD k := by
  simpa [hk] using congrArg (BitVec.getLsbD · k) h

/-! ### Writes -/

theorem writeOperand_of_busy {s : State} (f : Operands → Operands) (h : s.busy = true) : writeOperand f s = s := by
  simp [writeOperand, h]

theorem writeOperand_of_idle {s : State} (f : Operands → Operands) (h : s.running = none) :
    writeOperand f s = { s with operands := f s.operands } := by
  simp [writeOperand, State.busy, h]

@[simp] theorem writeOperand_running (f : Operands → Operands) (s : State) : (writeOperand f s).running = s.running := by
  unfold writeOperand; split <;> rfl

/-- The eight operand registers (10_state.md R37). -/
abbrev operandRegs : List Reg := [.srcAddr, .srcLen, .dstAddr, .dstCap, .dst2Addr, .dst2Cap, .windowSize, .bufferSize]

/-- The operands with the register `r` at `v`; a register that is no operand changes none. -/
def setOperand (r : Reg) (v : Word) (o : Operands) : Operands :=
  match r with
  | .srcAddr => { o with srcAddr := v }
  | .srcLen => { o with srcLen := v }
  | .dstAddr => { o with dstAddr := v }
  | .dstCap => { o with dstCap := v }
  | .dst2Addr => { o with dst2Addr := v }
  | .dst2Cap => { o with dst2Cap := v }
  | .windowSize => { o with windowSize := v }
  | .bufferSize => { o with bufferSize := v }
  | _ => o

theorem writeReg_of_mem_operandRegs {r : Reg} (hr : r ∈ operandRegs) (v : Word) (s : State) :
    writeReg r v s = writeOperand (setOperand r v) s := by
  simp only [operandRegs, List.mem_cons, List.not_mem_nil, or_false] at hr
  rcases hr with rfl | rfl | rfl | rfl | rfl | rfl | rfl | rfl <;> rfl

theorem readReg_setOperand_same {r : Reg} (hr : r ∈ operandRegs) (v : Word) (s : State) :
    readReg { s with operands := setOperand r v s.operands } r = v := by
  simp only [operandRegs, List.mem_cons, List.not_mem_nil, or_false] at hr
  rcases hr with rfl | rfl | rfl | rfl | rfl | rfl | rfl | rfl <;> rfl

/-- Each operand register is a field of its own, and no other register reads the operands. -/
theorem readReg_setOperand_of_ne {r r' : Reg} (h : r' ≠ r) (v : Word) (s : State) :
    readReg { s with operands := setOperand r v s.operands } r' = readReg s r' := by
  cases r' <;> cases r <;> simp [readReg, setOperand, statusWord, State.busy, State.err] at h ⊢

theorem writeReg_cmd_of_busy {s : State} (v : Word) (h : s.busy = true) :
    writeReg .cmd v s = if v.getLsbD 31 then { s with rejected := true } else s := by
  simp [writeReg, writeCmd, h]

theorem writeReg_cmd_go {s : State} {v : Word} (h : s.running = none) (hv : v.getLsbD 31 = true) :
    writeReg .cmd v s = acceptGo v s := by
  simp [writeReg, writeCmd, State.busy, h, hv]

theorem writeReg_cmd_store {s : State} {v : Word} (h : s.running = none) (hv : v.getLsbD 31 = false) :
    writeReg .cmd v s = { s with cmd := v.extractLsb' 0 31 } := by
  simp [writeReg, writeCmd, State.busy, h, hv, -BitVec.getLsbD_eq_getElem]

theorem writeReg_ctrl_reset (s : State) {v : Word} (hv : v.getLsbD 1 = true) : writeReg .ctrl v s = softReset s := by
  simp [writeReg, writeCtrl, hv]

theorem writeReg_ctrl_enable (s : State) {v : Word} (hv : v.getLsbD 1 = false) :
    writeReg .ctrl v s = { s with irqEn := v.getLsbD 0 } := by
  simp [writeReg, writeCtrl, hv, -BitVec.getLsbD_eq_getElem]

/-- An idle block reads back the CMD word that was written, without GO. -/
theorem readReg_writeReg_cmd {s : State} (v : Word) (h : s.running = none) :
    readReg (writeReg .cmd v s) .cmd = v &&& 0x7FFFFFFF#32 := by
  rw [← append_extractLsb'_eq_and]
  cases hv : v.getLsbD 31
  · rw [writeReg_cmd_store h hv]; rfl
  · rw [writeReg_cmd_go h hv]; rfl

/-! ### Resets -/

theorem readReg_resetRegisters (s : State) (r : Reg) :
    readReg (resetRegisters s) r = if r = .id then 0x485A0701#32 else 0#32 := by
  cases r <;> simp [readReg, idValue, statusWord, State.busy, State.err, Operands.reset]

/-- A soft reset is a reset of the registers over some memory. -/
theorem softReset_eq_resetRegisters (s : State) :
    ∃ m d, softReset s = resetRegisters { s with mem := m, draws := d } := by
  unfold softReset
  split
  · exact ⟨s.mem, s.draws, rfl⟩
  · exact ⟨_, _, rfl⟩

theorem readReg_softReset (s : State) (r : Reg) :
    readReg (softReset s) r = if r = .id then 0x485A0701#32 else 0#32 := by
  obtain ⟨m, d, h⟩ := softReset_eq_resetRegisters s
  rw [h, readReg_resetRegisters]

theorem softReset_of_idle {s : State} (h : s.running = none) : softReset s = resetRegisters s := by
  simp [softReset, h]

theorem State.resetOn_eq_resetRegisters (c : Config) : State.resetOn c = resetRegisters (State.resetOn c) := rfl

/-! ### What a register write does to the command state machine -/

theorem writeReg_running_of_ne {r : Reg} (hctrl : r ≠ .ctrl) (hcmd : r ≠ .cmd) (v : Word) (s : State) :
    (writeReg r v s).running = s.running := by
  cases r <;> simp [writeReg] at hctrl hcmd ⊢

/-- Only a GO starts a command. -/
theorem writeReg_starts {r : Reg} {v : Word} {s : State} (h : s.running = none)
    (hw : (writeReg r v s).running ≠ none) : r = .cmd ∧ v.getLsbD 31 = true := by
  by_cases hcmd : r = .cmd
  · subst hcmd
    refine ⟨rfl, by_contra fun hv => hw ?_⟩
    rw [writeReg_cmd_store h (by simpa using hv), h]
  · by_cases hctrl : r = .ctrl
    · subst hctrl
      cases hv : v.getLsbD 1
      · exact absurd (by rw [writeReg_ctrl_enable s hv, h]) hw
      · exact absurd (by rw [writeReg_ctrl_reset s hv, softReset_running]) hw
    · exact absurd (by rw [writeReg_running_of_ne hctrl hcmd, h]) hw

/-- Only a CTRL write with SOFT_RESET set stops one. -/
theorem writeReg_stops {r : Reg} {v : Word} {s : State} (h : s.running ≠ none)
    (hw : (writeReg r v s).running = none) : r = .ctrl ∧ v.getLsbD 1 = true := by
  by_cases hctrl : r = .ctrl
  · subst hctrl
    refine ⟨rfl, by_contra fun hv => h ?_⟩
    rwa [writeReg_ctrl_enable s (by simpa using hv)] at hw
  · by_cases hcmd : r = .cmd
    · subst hcmd
      rw [writeReg_cmd_of_busy v (State.busy_eq_true_iff.2 h)] at hw
      split at hw <;> exact absurd hw h
    · exact absurd (writeReg_running_of_ne hctrl hcmd v s ▸ hw) h

/-- A step that starts a command is a host's turn that writes a GO to CMD. -/
theorem step_starts_command {s t : State} (h : step s = .next t) (hs : s.running = none) (ht : t.running ≠ none) :
    s.schedule.head? ≠ some .engine ∧
      ∃ v rest, s.host = .writeReg (s.config.base + 0x08) 4 v :: rest ∧ v.getLsbD 31 = true := by
  obtain ⟨sch, ⟨-, hstep⟩ | ⟨hturn, hstep⟩⟩ := step_turn s <;> rw [hstep] at h
  · rcases engineStep_next h with ⟨-, rfl⟩ | ⟨hr, -⟩
    · exact absurd hs ht
    · exact absurd hs hr
  · refine ⟨by rcases hturn with hh | ⟨hh, -⟩ <;> simp [hh], ?_⟩
    rcases hostStep_next h with ⟨r, v, rest, hop, rfl⟩ | ⟨rest, -, rfl⟩ | ⟨m, ops, w, bs, rfl⟩
    · obtain ⟨rfl, hv⟩ := writeReg_starts (s := { s with schedule := sch, host := rest }) hs ht
      exact ⟨v, rest, hop, hv⟩
    · exact absurd rfl ht
    · exact absurd hs ht

/-- A step that ends a command is an engine's turn, which completes it, or a host's turn that resets the block. -/
theorem step_ends_command {s t : State} (h : step s = .next t) (hs : s.running ≠ none) (ht : t.running = none) :
    (s.schedule.head? ≠ some .host ∧ (∃ sch, engineStep { s with schedule := sch } = .next t) ∧ t.done = true) ∨
    (s.schedule.head? = some .host ∧
      (∃ rest, s.host = .powerOn :: rest ∨
        ∃ v, s.host = .writeReg (s.config.base + 0x04) 4 v :: rest ∧ v.getLsbD 1 = true) ∧
      ∀ r, readReg t r = if r = .id then 0x485A0701#32 else 0#32) := by
  obtain ⟨sch, ⟨hturn, hstep⟩ | ⟨hturn, hstep⟩⟩ := step_turn s <;> rw [hstep] at h
  · refine .inl ⟨by rcases hturn with hh | ⟨hh, -⟩ <;> simp [hh], ⟨sch, h⟩, ?_⟩
    rcases engineStep_next h with ⟨hr, -⟩ | ⟨-, -, hd⟩
    · exact absurd hr hs
    · exact hd
  · refine .inr ⟨hturn.resolve_right fun hh => hs (State.busy_eq_false_iff.1 hh.2), ?_⟩
    rcases hostStep_next h with ⟨r, v, rest, hop, rfl⟩ | ⟨rest, hop, rfl⟩ | ⟨m, ops, w, bs, rfl⟩
    · obtain ⟨rfl, hv⟩ := writeReg_stops (s := { s with schedule := sch, host := rest }) hs ht
      rw [writeReg_ctrl_reset _ hv]
      exact ⟨⟨rest, .inr ⟨v, hop, hv⟩⟩, readReg_softReset _⟩
    · exact ⟨⟨rest, .inl hop⟩, readReg_resetRegisters _⟩
    · exact absurd ht hs

end Sys2Proof.Machine

namespace Sys2Proof
open Machine

/-- Settles O7: STATUS reads bit by bit; its write clears DONE and CMD_REJECTED; a GO and a completion set the rest. -/
theorem statusRegister : Obligations.StatusRegister := by
  refine ⟨fun s k hk => getLsbD_statusWord s hk, fun s v => rfl, fun s v hv => ⟨fun hidle => ?_, fun hbusy => ?_⟩,
    fun i s t h => exec_next_completed h⟩
  · simp [writeReg_cmd_go hidle hv]
  · simp [writeReg_cmd_of_busy v (State.busy_eq_true_iff.2 hbusy), hv]

/-- Settles O8: while BUSY each write is ignored, rejected or carried out as its register says, and every register is read. -/
theorem writesWhileBusyAreIgnored : Obligations.WritesWhileBusyAreIgnored := by
  intro s v hb
  refine ⟨fun r hr => ?_, writeReg_cmd_of_busy v hb, writeReg_ctrl_enable s, fun hv => ?_, rfl,
    hostOperation_readReg_offsetOf s, fun hclear => ?_⟩
  · rw [writeReg_of_mem_operandRegs hr, writeOperand_of_busy _ hb]
  · rw [writeReg_ctrl_reset s hv, State.busy_eq_false_iff, softReset_running]
  · simp only [State.busyClear, hb, Bool.not_true, Bool.false_or, Bool.and_eq_true, beq_iff_eq] at hclear
    obtain ⟨⟨⟨⟨⟨⟨⟨-, hcode⟩, hpos⟩, hlen⟩, hlen2⟩, horig⟩, hcomp⟩, hcycles⟩ := hclear
    refine ⟨?_, by rw [← hcode]; exact extractLsb'_statusWord_errCode s⟩
    simp [readReg, hpos, hlen, hlen2, horig, hcomp, hcycles]

/-- Settles O10: reserved offsets hold no register, CTRL and STATUS ignore their reserved bits, and CMD stores them. -/
theorem reservedReadsZero : Obligations.ReservedReadsZero := by
  refine ⟨fun s v off h => ⟨readOffset_reserved s h, writeOffset_reserved v s h⟩,
    fun s => ⟨readCtrl_reserved s, statusWord_reserved s⟩, fun s v w h => ?_, fun s v w h => ?_, fun s v h => ?_,
    fun v hgo hres => ?_⟩
  · have h0 : v.getLsbD 0 = w.getLsbD 0 := getLsbD_eq_of_and_eq h rfl
    have h1 : v.getLsbD 1 = w.getLsbD 1 := getLsbD_eq_of_and_eq h rfl
    simp only [writeReg, writeCtrl, h0, h1]
  · have h1 : v.getLsbD 1 = w.getLsbD 1 := getLsbD_eq_of_and_eq h rfl
    have h3 : v.getLsbD 3 = w.getLsbD 3 := getLsbD_eq_of_and_eq h rfl
    simp only [writeReg, writeStatus, h1, h3]
  · rw [readReg_writeReg_cmd v h, extractLsb'_and_cmdMask]
  · simp [decodeWord, decodeFields, splitWord, hgo, hres]

/-- Settles O11: the map of offsets, and each access through `regOffset`. -/
theorem registerWindow : Obligations.RegisterWindow := by
  refine ⟨rfl, fun s r v => ⟨hostOperation_readReg_offsetOf s r, hostOperation_writeReg_offsetOf s r v⟩, ?_,
    fun s off hlow hhigh h4 => ?_, fun s addr width v hlow hhigh hbad => ?_, fun w k hk => ?_⟩
  · simp [writeReg]
  · simp [hostOperation, regOffset_aligned s.config (Nat.lt_of_le_of_lt hhigh (by decide)) h4, readOffset_reserved s hlow]
  · obtain ⟨e, he, hreg⟩ := regOffset_outside_interface hlow hhigh hbad
    exact ⟨e, he, by simp [hostOperation, hreg], by simp [hostOperation, hreg]⟩
  · interval_cases k <;> rfl

/-- Settles O4: every reset is `resetRegisters`, whose registers read at their reset values. -/
theorem resetValuesOfEveryRegister : Obligations.ResetValuesOfEveryRegister := by
  refine ⟨?_, fun s => ⟨rfl, fun h => by rw [softReset_of_idle h, resetRegisters_mem]⟩⟩
  rintro s t c ht
  obtain ⟨s', rfl⟩ : ∃ s', t = resetRegisters s' := by
    rcases ht with rfl | rfl | rfl
    · obtain ⟨m, d, h⟩ := softReset_eq_resetRegisters s
      exact ⟨_, h⟩
    · exact ⟨s, rfl⟩
    · exact ⟨_, State.resetOn_eq_resetRegisters c⟩
  exact ⟨readReg_resetRegisters s', rfl, rfl⟩

/-- Settles O9: an operand register's write replaces its own field of an idle block's operands. -/
theorem operandRegistersReadBack : Obligations.OperandRegistersReadBack := by
  intro s v r h hr
  rw [writeReg_of_mem_operandRegs hr, writeOperand_of_idle _ h]
  exact ⟨readReg_setOperand_same hr v s, fun r' hne => readReg_setOperand_of_ne hne v s, rfl, h⟩

/-- Settles O13: only a GO raises BUSY, and only a completion, a soft reset or power-on lowers it. -/
theorem commandStateMachine : Obligations.CommandStateMachine := by
  refine ⟨fun s t h => ⟨fun hs ht => ?_, fun hs ht => ?_⟩, fun s => ?_⟩
  · exact step_starts_command h (State.busy_eq_false_iff.1 hs) (State.busy_eq_true_iff.1 ht)
  · exact step_ends_command h (State.busy_eq_true_iff.1 hs) (State.busy_eq_false_iff.1 ht)
  · simp [State.busy, powerOnReset]

end Sys2Proof
end

section
/-! PROOFS. What every command's completion does, whatever its processing (10_state.md R34, R35, 20_memory.md R69, 60_exceptions.md
R300, R308): it answers a next state, keeps every register outside its results, and depends on the latched operands and the source
bytes only. -/

namespace Sys2Proof.Machine

/-! ### No processing raises IllegalCommand

IllegalCommand is the error of a word that the decoder rejects (30_encoding.md R93, R94), and of no command's own processing. -/

/-- The answer is no IllegalCommand. -/
def NotIllegal {α : Type} (x : Except Raise α) : Prop := ∀ e, x = .error e → e.err ≠ .illegalCommand

@[simp] theorem notIllegal_ok {α : Type} (a : α) : NotIllegal (.ok a : Except Raise α) := fun _ h => by cases h

@[simp] theorem notIllegal_error {α : Type} (e : Raise) :
    NotIllegal (.error e : Except Raise α) ↔ e.err ≠ .illegalCommand :=
  ⟨fun h => h e rfl, fun h _ he => by cases he; exact h⟩

@[simp] theorem raise0_err (e : Err) : (raise0 e).err = e := rfl

/-- An error handed on is the error of what raised it. -/
theorem NotIllegal.of_eq_error {α β : Type} {x : Except Raise α} {e : Raise} (hx : NotIllegal x) (h : x = .error e) :
    NotIllegal (.error e : Except Raise β) :=
  (notIllegal_error e).2 (hx e h)

theorem NotIllegal.ite {α : Type} {c : Prop} [Decidable c] {x y : Except Raise α} (hx : NotIllegal x) (hy : NotIllegal y) :
    NotIllegal (if c then x else y) := by
  split
  · exact hx
  · exact hy

theorem notIllegal_readFrequencies (es : List (Nat × Nat)) (k : Nat) (F : List (Nat × Nat)) :
    NotIllegal (readFrequencies k F es) := by
  induction es generalizing k F with
  | nil => simp [readFrequencies]
  | cons p es ih => exact .ite (by simp) (.ite (by simp) (.ite (by simp) (ih _ _)))

theorem notIllegal_lengthTable (es : List (Nat × Nat)) (cap : Nat) : NotIllegal (lengthTable es cap) := by
  refine .ite (by simp) ?_
  split
  case h_1 e he => exact (notIllegal_readFrequencies es 0 []).of_eq_error he
  case h_2 F _ => exact .ite (by simp) (by simp)

theorem notIllegal_readLengths (es : List (Nat × Nat)) (k : Nat) (F : List (Nat × Nat)) :
    NotIllegal (readLengths k F es) := by
  induction es generalizing k F with
  | nil => simp [readLengths]
  | cons p es ih => exact .ite (by simp) (.ite (by simp) (.ite (by simp) (.ite (by simp) (ih _ _))))

theorem notIllegal_codeTable (es : List (Nat × Nat)) (cap : Nat) : NotIllegal (codeTable es cap) := by
  refine .ite (by simp) ?_
  split
  case h_1 e he => exact (notIllegal_readLengths es 0 []).of_eq_error he
  case h_2 len _ => exact .ite (by simp) (.ite (by simp) (by simp))

theorem notIllegal_encodeContainer (t : List Nat) (cap : Nat) (F len : List (Nat × Nat)) :
    NotIllegal (encodeContainer t cap F len) :=
  .ite (by simp) (.ite (by simp) (.ite (by simp) (.ite (by simp) (by simp))))

theorem notIllegal_hufCompress (t : List Nat) (cap : Nat) : NotIllegal (hufCompress t cap) := by
  unfold hufCompress
  split
  · simp
  · exact .ite (by simp) (notIllegal_encodeContainer _ _ _ _)

theorem notIllegal_readEntries (n : Nat) (len : List (Nat × Nat)) (r : List Bool) : NotIllegal (readEntries n len r) := by
  induction n generalizing len r with
  | zero => simp [readEntries]
  | succ n ih => exact .ite (by simp) (.ite (by simp) (.ite (by simp) (ih _ _)))

theorem notIllegal_readTable (r : List Bool) : NotIllegal (readTable r) := by
  refine .ite (by simp) (.ite (by simp) ?_)
  split
  case h_1 e he => exact (notIllegal_readEntries _ _ _).of_eq_error he
  case h_2 => exact .ite (by simp) (.ite (by simp) (.ite (by simp) (by simp)))

theorem notIllegal_walkBits (T : List CodeEntry) (cap : Nat) (bs : List Bool) (acc alen : Nat) (out : List Nat) :
    NotIllegal (walkBits T cap bs acc alen out) := by
  induction bs generalizing acc alen out with
  | nil => exact .ite (by simp) (by simp)
  | cons b bs ih =>
    unfold walkBits
    split
    · exact .ite (by simp) (ih _ _ _)
    · exact .ite (by simp) (ih _ _ _)

theorem notIllegal_hufDecompress (bytes : List Byte) (cap : Nat) : NotIllegal (hufDecompress bytes cap) := by
  refine .ite (by simp) ?_
  split
  case h_1 e he => exact (notIllegal_readTable _).of_eq_error he
  case h_2 => exact notIllegal_walkBits _ _ _ _ _ _

theorem notIllegal_emitBits (w b cap : Nat) (wbits : List Bool) (t : Triple) : NotIllegal (emitBits w b cap wbits t) :=
  .ite (by simp) (.ite (by simp) (by simp))

theorem notIllegal_emitText (cap2 k : Nat) (tx : List Nat) (t : Triple) : NotIllegal (emitText cap2 k tx t) :=
  .ite (by simp) (by simp)

theorem notIllegal_emitTriples (e : Emit) (w b cap cap2 : Nat) (ts : List Triple) (k : Nat) (wbits : List Bool)
    (tx : List Nat) : NotIllegal (emitTriples e w b cap cap2 k wbits tx ts) := by
  induction ts generalizing k wbits tx with
  | nil => simp [emitTriples]
  | cons t ts ih =>
    unfold emitTriples
    split
    case h_1 x hx => exact (NotIllegal.ite (notIllegal_emitBits _ _ _ _ _) (notIllegal_ok _)).of_eq_error hx
    case h_2 =>
      split
      case h_1 x hx => exact (NotIllegal.ite (notIllegal_emitText _ _ _ _) (notIllegal_ok _)).of_eq_error hx
      case h_2 => exact ih _ _ _

theorem notIllegal_lzCompress (e : Emit) (w b cap cap2 : Nat) (t : List Nat) :
    NotIllegal (lzCompress e w b cap cap2 t) := by
  unfold lzCompress
  split
  case h_1 x hx => exact (notIllegal_emitTriples _ _ _ _ _ _ _ _ _).of_eq_error hx
  case h_2 => simp

theorem checkTriple_ne_illegal {w b f so o L outlen k : Nat} {e : Raise}
    (h : checkTriple w b f so o L outlen k = some e) : e.err ≠ .illegalCommand := by
  unfold checkTriple at h
  split_ifs at h <;> cases h <;> simp

theorem notIllegal_endOfBits (k : Nat) (r : List Bool) (out : List Nat) : NotIllegal (endOfBits k r out) :=
  .ite (by simp) (by simp)

theorem notIllegal_decodeTriples (w b cap fuel k : Nat) (r : List Bool) (out : List Nat) :
    NotIllegal (decodeTriples w b cap fuel k r out) := by
  induction fuel generalizing k r out with
  | zero => exact notIllegal_endOfBits _ _ _
  | succ fuel ih =>
    refine .ite (notIllegal_endOfBits _ _ _) ?_
    split
    split
    case h_1 e he => exact (notIllegal_error e).2 (checkTriple_ne_illegal he)
    case h_2 => exact .ite (by simp) (ih _ _ _)

theorem notIllegal_decodeTokens (cap fuel k : Nat) (s out : List Nat) : NotIllegal (decodeTokens cap fuel k s out) := by
  induction fuel generalizing k s out with
  | zero => simp [decodeTokens]
  | succ fuel ih =>
    unfold decodeTokens
    split
    · simp
    · refine .ite (by simp) (.ite (by simp) (.ite (by simp) ?_))
      split
      · simp
      · exact .ite (by simp) (ih _ _ _)

theorem notIllegal_lzDecompressText (cap : Nat) (s : List Nat) : NotIllegal (lzDecompressText cap s) :=
  .ite (by simp) (notIllegal_decodeTokens _ _ _ _ _)

theorem notIllegal_lzCompressBody (x : Emit) (o : Operands) (m : Memory) : NotIllegal (lzCompressBody x o m) := by
  unfold lzCompressBody
  split
  case h_1 e he => exact (notIllegal_lzCompress _ _ _ _ _ _).of_eq_error he
  case h_2 => simp

/-- No command's own processing ends with IllegalCommand. -/
theorem notIllegal_bodyOf (i : Instr) (o : Operands) (m : Memory) : NotIllegal (bodyOf i o m) := by
  cases i
  case hufCompress =>
    simp only [bodyOf, hufCompressBody]
    split
    case h_1 e he => exact (notIllegal_hufCompress _ _).of_eq_error he
    case h_2 => simp
  case hufDecompress =>
    simp only [bodyOf, hufDecompressBody]
    split
    case h_1 e he => exact (notIllegal_hufDecompress _ _).of_eq_error he
    case h_2 => simp
  case lzCompressBits => exact notIllegal_lzCompressBody _ o m
  case lzCompressText => exact notIllegal_lzCompressBody _ o m
  case lzCompressBitsText => exact notIllegal_lzCompressBody _ o m
  case lzDecompressBits =>
    simp only [bodyOf, lzDecompressBitsBody]
    split
    case h_1 e he => exact (notIllegal_decodeTriples _ _ _ _ _ _ _).of_eq_error he
    case h_2 => simp
  case lzDecompressText =>
    simp only [bodyOf, lzDecompressTextBody]
    split
    case h_1 e he => exact (notIllegal_lzDecompressText _ _).of_eq_error he
    case h_2 => simp
  case hufLengths =>
    simp only [bodyOf, hufLengthsBody]
    split
    case h_1 e he => exact (notIllegal_lengthTable _ _).of_eq_error he
    case h_2 => simp
  case hufCanon =>
    simp only [bodyOf, hufCanonBody]
    split
    case h_1 e he => exact (notIllegal_codeTable _ _).of_eq_error he
    case h_2 => simp

/-- Nor do the common checks: IllegalCommand is step 1, the decoder's (60_exceptions.md R305). -/
theorem commonChecks_ne_illegal {u : Use} {c : Config} {o : Operands} {e : Err} (h : commonChecks u c o = some e) :
    e ≠ .illegalCommand := by
  unfold commonChecks at h
  split_ifs at h <;> cases h <;> simp

/-! ### The completion -/

/-- A running command fails, with an error other than IllegalCommand, or succeeds with its own processing's results. -/
theorem exec_completes (i : Instr) {s : State} {l : Latched} (hl : s.running = some l) :
    (∃ e m, e.err ≠ .illegalCommand ∧ exec i s = .next (completeErr e { s with mem := m })) ∨
    (∃ r, bodyOf i l.operands s.mem = .ok r ∧ exec i s = .next (completeOk r l.operands s)) := by
  rw [exec_eq_runCommand]
  cases hc : commonChecks (useOf i) s.config l.operands with
  | some e => exact .inl ⟨raise0 e, s.mem, commonChecks_ne_illegal hc, runCommand_of_check hl hc⟩
  | none =>
    cases hb : bodyOf i l.operands s.mem with
    | error e => exact .inl ⟨e, _, notIllegal_bodyOf i _ _ e hb, runCommand_of_error hl hc hb⟩
    | ok r => exact .inr ⟨r, rfl, runCommand_of_ok hl hc hb⟩

theorem sameOutside_completeErr (e : Raise) (m : Memory) (s : State) :
    SameOutside s (completeErr e { s with mem := m }) := by
  simp [SameOutside]

theorem sameOutside_completeOk (r : Results) (o : Operands) (s : State) : SameOutside s (completeOk r o s) := by
  simp [SameOutside]

theorem errCodeOf_ne_zero (e : Err) : errCodeOf e ≠ 0#8 := by cases e <;> decide

theorem failedWith_completeErr (e : Raise) (s : State) : FailedWith e.err e.pos (completeErr e s) := by
  simp [FailedWith]

theorem succeeded_completeOk (r : Results) (o : Operands) (s : State) : Succeeded (completeOk r o s) := by
  simp [Succeeded]

/-- A running command takes its operands from what was latched, never from the registers (10_state.md R34). -/
theorem exec_with_operands {i : Instr} {s t : State} (o : Operands) (h : exec i s = .next t) :
    exec i { s with operands := o } = .next { t with operands := o } := by
  rw [exec_eq_runCommand] at h ⊢
  rcases runCommand_cases (useOf i) (bodyOf i) s with
    ⟨-, hr⟩ | ⟨l, e, hl, hc, hr⟩ | ⟨l, e, hl, hc, hb, hr⟩ | ⟨l, r, hl, hc, hb, hr⟩ <;> rw [hr] at h <;> cases h
  · exact runCommand_of_check hl hc
  · exact runCommand_of_error hl hc hb
  · exact runCommand_of_ok hl hc hb

/-! ### The source bytes -/

/-- The processing of a command sees no byte of memory but its source's (20_memory.md R69). -/
theorem bodyOf_congr (i : Instr) (o : Operands) {m m' : Memory}
    (h : ∀ a, InBytes a o.srcAddr.toNat o.srcLen.toNat → m.read a = m'.read a) : bodyOf i o m = bodyOf i o m' := by
  have hbytes : m.readBytes o.srcAddr.toNat o.srcLen.toNat = m'.readBytes o.srcAddr.toNat o.srcLen.toNat :=
    Memory.readBytes_congr _ _ _ _ fun a h1 h2 => h a ⟨h1, h2⟩
  have hwords : m.readWords o.srcAddr.toNat (o.srcLen.toNat / 4) = m'.readWords o.srcAddr.toNat (o.srcLen.toNat / 4) :=
    Memory.readWords_congr _ _ _ _ fun a h1 h2 => h a ⟨h1, by omega⟩
  have hpairs : m.readPairs o.srcAddr.toNat (o.srcLen.toNat / 8) = m'.readPairs o.srcAddr.toNat (o.srcLen.toNat / 8) :=
    Memory.readPairs_congr _ _ _ _ fun a h1 h2 => h a ⟨h1, by omega⟩
  cases i
  case hufCompress => simp only [bodyOf, hufCompressBody, hwords]
  case hufDecompress => simp only [bodyOf, hufDecompressBody, hbytes]
  case lzCompressBits => simp only [bodyOf, lzCompressBody, hwords]
  case lzCompressText => simp only [bodyOf, lzCompressBody, hwords]
  case lzCompressBitsText => simp only [bodyOf, lzCompressBody, hwords]
  case lzDecompressBits => simp only [bodyOf, lzDecompressBitsBody, hbytes]
  case lzDecompressText => simp only [bodyOf, lzDecompressTextBody, hwords]
  case hufLengths => simp only [bodyOf, hufLengthsBody, hpairs]
  case hufCanon => simp only [bodyOf, hufCanonBody, hpairs]

/-- A byte that is written does not depend on the memory before, nor does a byte where the memories agree. -/
theorem Memory.read_writeBytes_congr {m m' : Memory} {b : Nat} (bs : List Byte) (a : Nat)
    (h : ¬(a ≤ b ∧ b < a + bs.length) → m.read b = m'.read b) :
    (m.writeBytes a bs).read b = (m'.writeBytes a bs).read b := by
  rw [Memory.read_writeBytes, Memory.read_writeBytes]
  split
  · rfl
  · exact h ‹_›

/-- What a success writes reads the same over any memory, for both destinations. -/
theorem readBytes_completeOk_mem (r : Results) (o : Operands) (s s' : State) :
    (completeOk r o s').mem.readBytes o.dstAddr.toNat (completeOk r o s).dstLen.toNat =
        (completeOk r o s).mem.readBytes o.dstAddr.toNat (completeOk r o s).dstLen.toNat ∧
      (completeOk r o s').mem.readBytes o.dst2Addr.toNat (completeOk r o s).dst2Len.toNat =
        (completeOk r o s).mem.readBytes o.dst2Addr.toNat (completeOk r o s).dst2Len.toNat := by
  have hlen : ∀ n : Nat, (BitVec.ofNat 32 n).toNat ≤ n := fun n => by
    rw [BitVec.toNat_ofNat]; exact Nat.mod_le _ _
  have h1 := hlen r.dst.length
  have h2 := hlen r.dst2.length
  simp only [completeOk_mem, completeOk_dstLen, completeOk_dst2Len]
  constructor
  · refine Memory.readBytes_congr _ _ _ _ fun b hb hb' => ?_
    exact Memory.read_writeBytes_congr _ _ fun _ => Memory.read_writeBytes_congr _ _ fun hout => absurd ⟨hb, by omega⟩ hout
  · refine Memory.readBytes_congr _ _ _ _ fun b hb hb' => ?_
    exact Memory.read_writeBytes_congr _ _ fun hout => absurd ⟨hb, by omega⟩ hout

/-- The registers do not read the memory. -/
theorem readReg_completeErr_mem (e : Raise) (s : State) (m m' : Memory) (r : Reg) :
    readReg (completeErr e { s with mem := m }) r = readReg (completeErr e { s with mem := m' }) r := by
  cases r <;> rfl

theorem readReg_completeOk_mem (x : Results) (o : Operands) (s : State) (m m' : Memory) (r : Reg) :
    readReg (completeOk x o { s with mem := m }) r = readReg (completeOk x o { s with mem := m' }) r := by
  cases r <;> rfl

/-! ### The placed command -/

theorem decodeCommand_encode (i : Instr) : decodeCommand ((encode i).extractLsb' 0 31) = .ok i := by
  cases i <;> rfl

theorem getLsbD_encode_go (i : Instr) : (encode i).getLsbD 31 = true := by
  cases i <;> rfl

theorem engineStep_of_decoded {s : State} {l : Latched} {i : Instr} (hl : s.running = some l)
    (hd : decodeCommand l.cmd = .ok i) : engineStep s = exec i s := by
  simp [engineStep, hl, hd]

/-- A placed GO is accepted by the block made IDLE, with the engine's turn next (log 6). -/
theorem placeCommand_encode (i : Instr) (s : State) :
    placeCommand (encode i) s =
      { acceptGo (encode i) { s with running := none } with schedule := .engine :: s.schedule } := by
  rw [placeCommand]
  exact congrArg (fun t : State => { t with schedule := .engine :: s.schedule })
    (writeReg_cmd_go (s := { s with running := none }) rfl (getLsbD_encode_go i))

theorem withFetchWord_encode (s : State) (i : Instr) : s.withFetchWord 32 (encode i).toNat = placeCommand (encode i) s := by
  rw [State.withFetchWord, Nat.mod_eq_of_lt (encode i).isLt, BitVec.ofNat_toNat, BitVec.setWidth_eq]

end Sys2Proof.Machine

namespace Sys2Proof
open Machine

/-- Settles O14: each outcome of the running command is a success or an error other than IllegalCommand. -/
theorem everyCommandCompletes : Obligations.EveryCommandCompletes := by
  intro i s hs
  obtain ⟨l, hl⟩ := Option.ne_none_iff_exists'.1 hs
  rcases exec_completes i hl with ⟨e, m, he, h⟩ | ⟨r, -, h⟩
  · exact ⟨_, h, sameOutside_completeErr e m s, .inr ⟨e.err, e.pos, he, failedWith_completeErr e _⟩⟩
  · exact ⟨_, h, sameOutside_completeOk r _ s, .inl (succeeded_completeOk r _ s)⟩

/-- Settles O17: the checks read no memory and the processing only the source bytes, and a success writes its result whole. -/
theorem resultDependsOnSourceOnly : Obligations.ResultDependsOnSourceOnly := by
  intro i s l m hl hsrc
  have hbody : bodyOf i l.operands m = bodyOf i l.operands s.mem := bodyOf_congr i l.operands hsrc
  simp only [exec_eq_runCommand]
  cases hc : commonChecks (useOf i) s.config l.operands with
  | some e =>
    exact ⟨_, _, runCommand_of_check hl hc, runCommand_of_check hl hc, readReg_completeErr_mem (raise0 e) s m s.mem,
      fun h => absurd h (errCodeOf_ne_zero e)⟩
  | none =>
    cases hb : bodyOf i l.operands s.mem with
    | error e =>
      exact ⟨_, _, runCommand_of_error hl hc hb, runCommand_of_error hl hc (hbody.trans hb),
        readReg_completeErr_mem e s _ _, fun h => absurd h (errCodeOf_ne_zero e.err)⟩
    | ok r =>
      exact ⟨_, _, runCommand_of_ok hl hc hb, runCommand_of_ok hl hc (hbody.trans hb),
        readReg_completeOk_mem r l.operands s m s.mem, fun _ => readBytes_completeOk_mem r l.operands s _⟩

/-- Settles O6: an idle block's CMD write stores or accepts, and a running command takes its operands from what was latched. -/
theorem goAcceptance : Obligations.GoAcceptance := by
  refine ⟨fun s v h => ⟨readReg_writeReg_cmd v h, writeReg_cmd_store h, writeReg_cmd_go h⟩, fun i s o hs => ?_⟩
  obtain ⟨t, ht, -⟩ := everyCommandCompletes i s hs
  exact ⟨t, ht, exec_with_operands o ht⟩

/-- Settles O51: the placed word is accepted and decodes to its command, which the engine's turn then runs. -/
theorem placedCommandRunsNext : Obligations.PlacedCommandRunsNext := by
  intro s i
  refine ⟨acceptGo (encode i) { s with running := none }, rfl, rfl, rfl, rfl, rfl, ?_⟩
  rw [withFetchWord_encode, placeCommand_encode]
  exact engineStep_of_decoded (acceptGo_running _ _) (decodeCommand_encode i)

/-- Settles O54: an empty memory and an idle block meet all five. -/
theorem resetMeetsTheInvariants : Obligations.ResetMeetsTheInvariants :=
  ⟨by decide, fun _ => ⟨rfl, rfl, rfl, rfl, rfl⟩⟩

end Sys2Proof
end

section
/-! PROOFS. What a step can do to the memory (20_memory.md R60, R69, R72, R73): the host writes outside the running command's
ranges, the end of a command writes in its used destinations, and nothing else writes. -/

namespace Sys2Proof.Machine

/-! ### The host's accesses -/

theorem busyRanges_of_decoded {s : State} {l : Latched} {i : Instr} (hl : s.running = some l)
    (hd : decodeCommand l.cmd = .ok i) : busyRanges s = usedRanges (useOf i) l.operands := by
  simp [busyRanges, hl, hd]

theorem busyDestinations_of_decoded {s : State} {l : Latched} {i : Instr} (hl : s.running = some l)
    (hd : decodeCommand l.cmd = .ok i) : busyDestinations s = dstRanges (useOf i) l.operands := by
  simp [busyDestinations, hl, hd]

/-- No legal command is running: the block is IDLE or runs an illegal word (log 13). -/
abbrev NoLegalCommand (s : State) : Prop := s.running = none ∨ ∃ l e, s.running = some l ∧ decodeCommand l.cmd = .error e

theorem busyRanges_of_noLegalCommand {s : State} (h : NoLegalCommand s) : busyRanges s = [] := by
  obtain hn | ⟨l, e, hl, he⟩ := h
  · simp [busyRanges, hn]
  · simp [busyRanges, hl, he]

theorem busyDestinations_of_noLegalCommand {s : State} (h : NoLegalCommand s) : busyDestinations s = [] := by
  obtain hn | ⟨l, e, hl, he⟩ := h
  · simp [busyDestinations, hn]
  · simp [busyDestinations, hl, he]

theorem insideMemory_of_le {c : Config} {a n : Nat} (h : a + n ≤ c.memBytes) : insideMemory c a n = true := by
  simp [insideMemory, h]

theorem touches_eq_true_iff (rs : List Range) (a n : Nat) :
    touches rs a n = true ↔ ∃ b, InBytes b a n ∧ inRanges rs b = true := by
  rw [← not_iff_not, Bool.not_eq_true, touches_eq_false_iff]
  simp only [InBytes, not_exists, not_and, Bool.not_eq_true, and_imp]

theorem hostOperation_writeMem_refused {s : State} {a : Nat} {bytes : List Byte}
    (hin : a + bytes.length ≤ s.config.memBytes) (htouch : touches (busyRanges s) a bytes.length = true) :
    hostOperation (.writeMem a bytes) s = .refused .hostWritesBusyBuffer := by
  simp [hostOperation, insideMemory_of_le hin, htouch]

theorem hostOperation_readMem_refused {s : State} {a n : Nat} (hin : a + n ≤ s.config.memBytes)
    (htouch : touches (busyDestinations s) a n = true) :
    hostOperation (.readMem a n) s = .refused .hostReadsBusyDestination := by
  simp [hostOperation, insideMemory_of_le hin, htouch]

theorem hostOperation_readMem_next {s : State} {a n : Nat} (hin : a + n ≤ s.config.memBytes)
    (hfree : touches (busyDestinations s) a n = false) :
    hostOperation (.readMem a n) s = .next { s with hostBytes := s.mem.readBytes a n } := by
  simp [hostOperation, insideMemory_of_le hin, hfree]

/-- A host write that is carried out stores its bytes and changes nothing else. -/
theorem hostOperation_writeMem_next {s : State} {a : Nat} {bytes : List Byte}
    (hin : a + bytes.length ≤ s.config.memBytes) (hfree : touches (busyRanges s) a bytes.length = false) :
    ∃ t, hostOperation (.writeMem a bytes) s = .next t ∧ t.mem.readBytes a bytes.length = bytes ∧
      SameMemoryOutside s.mem t.mem a bytes.length ∧ t = { s with mem := t.mem } := by
  refine ⟨{ s with mem := s.mem.writeBytes a bytes }, ?_, Memory.readBytes_writeBytes _ _ _,
    Memory.read_writeBytes_outside _ _ _, rfl⟩
  simp [hostOperation, insideMemory_of_le hin, hfree]

/-! ### What the end of a command leaves in memory -/

/-- The memory after a command that passed its checks: its destinations are unspecified, after an error or a soft reset
(60_exceptions.md R307, 70_reset_and_hazards.md R341), or hold its results (20_memory.md R69). -/
inductive EndedMemory (i : Instr) (o : Operands) (m : Memory) : Memory → Prop where
  | spoiled (n : Nat) : EndedMemory i o m (spoilRanges n m (dstRanges (useOf i) o))
  | written (r : Results) (hbody : bodyOf i o m = .ok r) :
      EndedMemory i o m ((m.writeBytes o.dstAddr.toNat r.dst).writeBytes o.dst2Addr.toNat r.dst2)

/-- A command in error at its checks leaves the memory; past them, its end may write. -/
theorem exec_next_mem {i : Instr} {s t : State} (h : exec i s = .next t) :
    t.mem = s.mem ∨ ∃ l, Ready i s l ∧ EndedMemory i l.operands s.mem t.mem := by
  rw [exec_eq_runCommand] at h
  rcases runCommand_cases (useOf i) (bodyOf i) s with
    ⟨-, hr⟩ | ⟨l, e, -, -, hr⟩ | ⟨l, e, hl, hc, -, hr⟩ | ⟨l, r, hl, hc, hb, hr⟩ <;> rw [hr] at h <;> cases h
  · exact .inl rfl
  · exact .inr ⟨l, ⟨hl, hc⟩, .spoiled _⟩
  · exact .inr ⟨l, ⟨hl, hc⟩, .written r hb⟩

theorem softReset_mem (s : State) :
    (softReset s).mem = s.mem ∨ ∃ i l, Ready i s l ∧ EndedMemory i l.operands s.mem (softReset s).mem := by
  cases hl : s.running with
  | none => exact .inl (by simp [softReset, hl])
  | some l =>
    have hmem : (softReset s).mem = spoilRanges s.draws s.mem (abandonedRanges s.config l) := by simp [softReset, hl]
    cases hd : decodeCommand l.cmd with
    | error e => exact .inl (by simp [hmem, abandonedRanges, hd, spoilRanges])
    | ok i =>
      cases hc : commonChecks (useOf i) s.config l.operands with
      | some e => exact .inl (by simp [hmem, abandonedRanges, hd, hc, spoilRanges])
      | none =>
        refine .inr ⟨i, l, ⟨hl, hc⟩, ?_⟩
        rw [hmem, abandonedRanges, hd]
        simp only [hc]
        exact .spoiled _

/-! ### What a step does to the memory and the parameters -/

/-- What a step can do to the memory. -/
inductive MemoryStep (s t : State) : Prop where
  | unchanged (hmem : t.mem = s.mem)
  | hostWrote (a : Nat) (bytes : List Byte) (hmem : t.mem = s.mem.writeBytes a bytes)
      (hin : insideMemory s.config a bytes.length = true) (hfree : touches (busyRanges s) a bytes.length = false)
  | ended (i : Instr) (l : Latched) (hready : Ready i s l) (hidle : t.running = none)
      (hmem : EndedMemory i l.operands s.mem t.mem)

theorem memoryStep_softReset (s : State) : MemoryStep s (softReset s) := by
  rcases softReset_mem s with h | ⟨i, l, hready, h⟩
  · exact .unchanged h
  · exact .ended i l hready (softReset_running s) h

theorem memoryStep_writeReg (r : Reg) (v : Word) (s : State) : MemoryStep s (writeReg r v s) := by
  rcases writeReg_cases r v s with h | h | h | ⟨-, h⟩ | ⟨-, -, h⟩ | ⟨-, h⟩ | h | ⟨-, o, h⟩ <;> rw [h]
  case inr.inl => exact memoryStep_softReset s
  all_goals exact .unchanged rfl

theorem memoryStep_writeOffset (off : Nat) (v : Word) (s : State) : MemoryStep s (writeOffset off v s) := by
  unfold writeOffset
  split
  · exact memoryStep_writeReg _ v s
  · exact .unchanged rfl

theorem memoryStep_hostOperation {op : HostOp} {s t : State} (h : hostOperation op s = .next t) : MemoryStep s t := by
  rcases hostOperation_next h with
    ⟨off, v, rfl⟩ | ⟨w, rfl⟩ | ⟨w, rfl⟩ | ⟨a, bytes, rfl, hin, hfree⟩ | ⟨bs, rfl⟩ | rfl
  · exact memoryStep_writeOffset off v s
  · exact .unchanged rfl
  · exact .unchanged rfl
  · exact .hostWrote a bytes rfl hin hfree
  · exact .unchanged rfl
  · exact .unchanged rfl

theorem memoryStep_engineStep {s t : State} (h : engineStep s = .next t) : MemoryStep s t := by
  rcases engineStep_cases s with ⟨-, he⟩ | ⟨l, e, -, -, he⟩ | ⟨l, i, -, -, he⟩ <;> rw [he] at h
  · cases h; exact .unchanged rfl
  · cases h; exact .unchanged rfl
  · rcases exec_next_mem h with hmem | ⟨l, hready, hmem⟩
    · exact .unchanged hmem
    · exact .ended i l hready (exec_next_completed h).1 hmem

/-- The memory step of a turn is that of the step: the schedule and the host's operations play no part in it. -/
theorem MemoryStep.of_turn {s t : State} {sch : List Agent} {ops : List HostOp}
    (h : MemoryStep { s with schedule := sch, host := ops } t) : MemoryStep s t := by
  cases h with
  | unchanged hmem => exact .unchanged hmem
  | hostWrote a bytes hmem hin hfree => exact .hostWrote a bytes hmem hin hfree
  | ended i l hready hidle hmem => exact .ended i l hready hidle hmem

theorem step_memoryStep {s t : State} (h : step s = .next t) : MemoryStep s t := by
  obtain ⟨sch, hs | hs⟩ := step_cases s <;> rw [hs] at h
  · exact (memoryStep_engineStep h).of_turn
  · rcases hostStep_cases { s with schedule := sch } with ⟨-, hh⟩ | ⟨op, rest, -, hh⟩ <;> rw [hh] at h
    · cases h; exact .unchanged rfl
    · exact MemoryStep.of_turn (s := s) (sch := sch) (ops := rest) (memoryStep_hostOperation h)

theorem softReset_config (s : State) : (softReset s).config = s.config := by
  unfold softReset; split <;> rfl

theorem writeOffset_config (off : Nat) (v : Word) (s : State) : (writeOffset off v s).config = s.config := by
  unfold writeOffset
  split
  case h_1 r _ =>
    rcases writeReg_cases r v s with h | h | h | ⟨-, h⟩ | ⟨-, -, h⟩ | ⟨-, h⟩ | h | ⟨-, o, h⟩ <;> rw [h]
    case inr.inl => exact softReset_config s
    case inr.inr.inr.inr.inl => exact acceptGo_config v s
    case inr.inr.inr.inr.inr.inr.inl => exact writeStatus_config v s
  case h_2 => rfl

theorem hostOperation_next_config {op : HostOp} {s t : State} (h : hostOperation op s = .next t) :
    t.config = s.config := by
  rcases hostOperation_next h with
    ⟨off, v, rfl⟩ | ⟨w, rfl⟩ | ⟨w, rfl⟩ | ⟨a, bytes, rfl, -, -⟩ | ⟨bs, rfl⟩ | rfl
  case inl => exact writeOffset_config off v s
  all_goals rfl

theorem engineStep_next_config {s t : State} (h : engineStep s = .next t) : t.config = s.config := by
  rcases engineStep_cases s with ⟨-, he⟩ | ⟨l, e, -, -, he⟩ | ⟨l, i, hl, -, he⟩ <;> rw [he] at h
  · cases h; rfl
  · cases h; rfl
  · rcases exec_completes i hl with ⟨e, m, -, hx⟩ | ⟨r, -, hx⟩ <;> rw [hx] at h <;> cases h <;> rfl

/-- No step changes a parameter (00_scope.md R8). -/
theorem step_next_config {s t : State} (h : step s = .next t) : t.config = s.config := by
  obtain ⟨sch, hs | hs⟩ := step_cases s <;> rw [hs] at h
  · exact (engineStep_next_config h :)
  · rcases hostStep_cases { s with schedule := sch } with ⟨-, hh⟩ | ⟨op, rest, -, hh⟩ <;> rw [hh] at h
    · cases h; rfl
    · exact (hostOperation_next_config h :)

theorem EndedMemory.wf {i : Instr} {o : Operands} {m m' : Memory} (h : EndedMemory i o m m') (hm : m.wf = true) :
    m'.wf = true := by
  cases h with
  | spoiled n => exact wf_spoilRanges _ _ _ hm
  | written r _ => exact Memory.wf_writeBytes _ _ _ (Memory.wf_writeBytes _ _ _ hm)

end Sys2Proof.Machine

namespace Sys2Proof
open Machine

/-- Settles O55: every write to the memory, the host's or a command's, keeps the canonical form. -/
theorem stepKeepsCanonicalMemory : Obligations.StepKeepsCanonicalMemory := by
  intro s t hs h
  unfold State.canonical at hs ⊢
  cases step_memoryStep h with
  | unchanged hmem => rwa [hmem]
  | hostWrote a bytes hmem _ _ => rw [hmem]; exact Memory.wf_writeBytes _ _ _ hs
  | ended i l _ _ hmem => exact hmem.wf hs

/-- Settles O53: only a host write changes memory while the command runs, and it touches none of the command's ranges. -/
theorem busyBuffersStayAsTheyWere : Obligations.BusyBuffersStayAsTheyWere := by
  intro s t l i hl hd h ht a ha
  cases step_memoryStep h with
  | unchanged hmem => rw [hmem]
  | hostWrote b bytes hmem _ hfree =>
    rw [busyRanges_of_decoded hl hd, touches_eq_false_iff] at hfree
    have hout : a < b ∨ b + bytes.length ≤ a := by
      by_contra hin
      exact absurd ha (by simp [hfree a (by omega) (by omega)])
    rw [hmem, Memory.read_writeBytes_outside _ _ _ _ hout]
  | ended _ _ _ hidle _ => exact absurd ht (by simp [hidle])

/-- Settles O52: an access inside the memory is refused exactly where it touches the busy ranges. -/
theorem hostDutiesWhileBusy : Obligations.HostDutiesWhileBusy := by
  refine ⟨?_, ?_⟩
  · rintro s l i a n bytes hl hd rfl hin
    rw [← busyRanges_of_decoded hl hd, ← busyDestinations_of_decoded hl hd]
    refine ⟨fun hb => hostOperation_writeMem_refused hin ((touches_eq_true_iff _ _ _).2 hb),
      fun hb => hostOperation_readMem_refused hin ((touches_eq_true_iff _ _ _).2 hb),
      fun hb => hostOperation_readMem_next hin ?_, fun hb => hostOperation_writeMem_next hin ?_⟩
    · exact (touches_eq_false_iff _ _ _).2 fun b h1 h2 => hb b ⟨h1, h2⟩
    · exact (touches_eq_false_iff _ _ _).2 fun b h1 h2 => hb b ⟨h1, h2⟩
  · rintro s a n bytes hno rfl hin
    have hfree : touches [] a bytes.length = false := (touches_eq_false_iff _ _ _).2 fun _ _ _ => rfl
    exact ⟨hostOperation_readMem_next hin (by rwa [busyDestinations_of_noLegalCommand hno]),
      hostOperation_writeMem_next hin (by rwa [busyRanges_of_noLegalCommand hno])⟩

end Sys2Proof
end

section
/-! PROOFS. The tree builder keeps the symbols of its map (41_huffman_tree.md R160), and the canonical code table: its order, its
recurrence and its codes (42_huffman_canonical.md R180 to R182). -/

namespace Sys2Proof.Machine

/-! ### The symbols of a tree -/

/-- The symbols of the leaves, left to right. -/
def HufTree.syms : HufTree → List Nat
  | .leaf s _ _ => [s]
  | .node _ _ l r => l.syms ++ r.syms

theorem HufTree.map_fst_depths (T : HufTree) (d : Nat) : (T.depths d).map Prod.fst = T.syms := by
  induction T generalizing d with
  | leaf s f q => rfl
  | node f q l r ihl ihr => simp [HufTree.depths, HufTree.syms, ihl, ihr]

/-- The least node and the others are the nodes there were. -/
theorem takeLeast_perm (x : HufTree) (q : List HufTree) : ((takeLeast x q).1 :: (takeLeast x q).2).Perm (x :: q) := by
  induction q generalizing x with
  | nil => exact .refl _
  | cons y q ih =>
    unfold takeLeast
    split
    · exact (List.Perm.swap _ _ _).trans ((ih y).cons x)
    · exact (List.Perm.swap _ _ _).trans (((ih x).cons y).trans (List.Perm.swap _ _ _))

/-- A turn of the loop keeps the symbols. -/
theorem flatMap_syms_mergeOnce_perm (next : Nat) (q : List HufTree) :
    ((mergeOnce next q).flatMap HufTree.syms).Perm (q.flatMap HufTree.syms) := by
  cases q with
  | nil => exact .refl _
  | cons x q =>
    have hx := (takeLeast_perm x q).flatMap_right HufTree.syms
    rw [mergeOnce]
    split
    case h_1 a heq => rw [heq] at hx; exact hx
    case h_2 a y q' heq =>
      rw [heq] at hx
      have hy := (takeLeast_perm y q').flatMap_right HufTree.syms
      refine List.Perm.trans ?_ hx
      simp only [List.flatMap_cons, HufTree.syms, List.append_assoc] at hy ⊢
      exact hy.append_left a.syms

theorem flatMap_syms_mergeLoop_perm (k next : Nat) (q : List HufTree) :
    ((mergeLoop k next q).flatMap HufTree.syms).Perm (q.flatMap HufTree.syms) := by
  induction k generalizing next q with
  | zero => exact .refl _
  | succ k ih => exact (ih (next + 1) _).trans (flatMap_syms_mergeOnce_perm next q)

theorem flatMap_syms_leavesFrom (seq : Nat) (F : List (Nat × Nat)) :
    (leavesFrom seq F).flatMap HufTree.syms = F.map Prod.fst := by
  induction F generalizing seq with
  | nil => rfl
  | cons p F ih => simp [leavesFrom, HufTree.syms, ih]

/-- The lengths are lengths of the map's symbols, whatever the map (41_huffman_tree.md R160). -/
theorem map_fst_treeLengths_perm (F : List (Nat × Nat)) : ((treeLengths F).map Prod.fst).Perm (F.map Prod.fst) := by
  unfold treeLengths
  split
  · exact .refl _
  · simp only [List.map_flatMap, HufTree.map_fst_depths]
    refine (flatMap_syms_mergeLoop_perm _ _ _).trans ?_
    rw [leavesOf, flatMap_syms_leavesFrom]
    exact (List.perm_insertionSort symLe F).map Prod.fst

@[simp] theorem length_treeLengths (F : List (Nat × Nat)) : (treeLengths F).length = F.length := by
  simpa using (map_fst_treeLengths_perm F).length_eq

theorem distinctKeys_treeLengths {F : List (Nat × Nat)} (h : DistinctKeys F) : DistinctKeys (treeLengths F) :=
  (map_fst_treeLengths_perm F).nodup_iff.2 h

/-! ### The canonical order -/

theorem canonSort_perm (len : List (Nat × Nat)) : (canonSort len).Perm len := List.perm_insertionSort canonLe len

@[simp] theorem length_canonSort (len : List (Nat × Nat)) : (canonSort len).length = len.length :=
  (canonSort_perm len).length_eq

theorem pairwise_canonSort (len : List (Nat × Nat)) : (canonSort len).Pairwise canonLe := by
  have htotal : Std.Total canonLe := ⟨fun a b => by unfold canonLe; omega⟩
  have htrans : IsTrans (Nat × Nat) canonLe := ⟨fun a b c hab hbc => by unfold canonLe at *; omega⟩
  exact List.pairwise_insertionSort canonLe len

theorem canonSort_canonSort (len : List (Nat × Nat)) : canonSort (canonSort len) = canonSort len :=
  (pairwise_canonSort len).insertionSort_eq

theorem canon_canonSort (len : List (Nat × Nat)) : canon (canonSort len) = canon len := by
  rw [canon, canonSort_canonSort, canon]

theorem codesAfter_map (l c : Nat) (L : List (Nat × Nat)) : ((codesAfter l c L).map fun e => (e.sym, e.len)) = L := by
  induction L generalizing l c with
  | nil => rfl
  | cons p L ih => simp [codesAfter, ih]

/-- The table is the length table in canonical order, with a code for each entry (42_huffman_canonical.md R180). -/
theorem canon_map (len : List (Nat × Nat)) : ((canon len).map fun e => (e.sym, e.len)) = canonSort len := by
  unfold canon
  split
  case h_1 h => rw [h]; rfl
  case h_2 s l rest h => rw [h, List.map_cons, codesAfter_map]

@[simp] theorem length_canon (len : List (Nat × Nat)) : (canon len).length = len.length := by
  simpa using congrArg List.length (canon_map len)

theorem mem_of_mem_canon {len : List (Nat × Nat)} {e : CodeEntry} (h : e ∈ canon len) : (e.sym, e.len) ∈ len := by
  rw [← (canonSort_perm len).mem_iff, ← canon_map]
  exact List.mem_map_of_mem h

/-! ### The recurrence of the codes -/

/-- The code of `e'` is the next one after that of `e` (42_huffman_canonical.md R180). -/
def CodeEntry.Next (e e' : CodeEntry) : Prop := e.len ≤ e'.len ∧ e'.code = (e.code + 1) * 2 ^ (e'.len - e.len)

/-- The code of `e'`, cut to the length of `e`, is above the code of `e`. -/
def CodeEntry.Below (e e' : CodeEntry) : Prop := e.len ≤ e'.len ∧ (e.code + 1) * 2 ^ (e'.len - e.len) ≤ e'.code

theorem CodeEntry.Next.below {e e' : CodeEntry} (h : e.Next e') : e.Below e' := ⟨h.1, h.2.ge⟩

theorem CodeEntry.Below.trans {a b c : CodeEntry} (hab : a.Below b) (hbc : b.Below c) : a.Below c := by
  obtain ⟨hlen, hcode⟩ := hab
  obtain ⟨hlen', hcode'⟩ := hbc
  refine ⟨hlen.trans hlen', ?_⟩
  calc (a.code + 1) * 2 ^ (c.len - a.len)
      = (a.code + 1) * 2 ^ (b.len - a.len) * 2 ^ (c.len - b.len) := by
        rw [mul_assoc, ← pow_add]; congr 2; omega
    _ ≤ (b.code + 1) * 2 ^ (c.len - b.len) := Nat.mul_le_mul_right _ (by omega)
    _ ≤ c.code := hcode'

theorem codesAfter_isChain (s l c : Nat) (L : List (Nat × Nat)) (hL : ((s, l) :: L).Pairwise canonLe) :
    (({ sym := s, len := l, code := c } : CodeEntry) :: codesAfter l c L).IsChain CodeEntry.Next := by
  induction L generalizing s l c with
  | nil => exact List.isChain_singleton _
  | cons p L ih =>
    obtain ⟨hp, hrest⟩ := List.pairwise_cons.1 hL
    have hle : l ≤ p.2 := by
      have := hp p (by simp)
      unfold canonLe at this
      simp only at this
      omega
    exact List.isChain_cons_cons.2 ⟨⟨hle, Nat.shiftLeft_eq _ _⟩, ih p.1 p.2 _ hrest⟩

theorem canon_isChain (len : List (Nat × Nat)) : (canon len).IsChain CodeEntry.Next := by
  have hsorted := pairwise_canonSort len
  unfold canon
  split
  case h_1 => exact List.isChain_nil
  case h_2 s l rest h => exact codesAfter_isChain s l 0 rest (h ▸ hsorted)

theorem canon_head_code {len : List (Nat × Nat)} {e : CodeEntry} {T : List CodeEntry} (h : canon len = e :: T) :
    e.code = 0 := by
  unfold canon at h
  split at h
  · cases h
  · cases h; rfl

theorem canon_pairwise_below (len : List (Nat × Nat)) : (canon len).Pairwise CodeEntry.Below := by
  have htrans : Trans CodeEntry.Below CodeEntry.Below CodeEntry.Below := ⟨CodeEntry.Below.trans⟩
  exact List.isChain_iff_pairwise.1 ((canon_isChain len).imp fun _ _ h => h.below)

/-- Of two entries of a table one is before the other. -/
theorem below_or_below {T : List CodeEntry} (hT : T.Pairwise CodeEntry.Below) {e e' : CodeEntry} (he : e ∈ T)
    (he' : e' ∈ T) (hne : e ≠ e') : e.Below e' ∨ e'.Below e := by
  have hsymm : Std.Symm fun a b : CodeEntry => a.Below b ∨ b.Below a := ⟨fun _ _ h => h.symm⟩
  have hor : T.Pairwise fun a b => a.Below b ∨ b.Below a := hT.imp fun h => .inl h
  exact hor.forall he he' hne

/-! ### Kraft's sum and the fit of the codes -/

/-- Along the recurrence the interval of a code ends where the Kraft sum up to it does. -/
theorem next_chain_code_le (e : CodeEntry) (T : List CodeEntry) (hT : (e :: T).IsChain CodeEntry.Next) :
    ∀ x ∈ e :: T, ((x.code : ℚ) + 1) * (1 / 2) ^ x.len ≤
      e.code * (1 / 2) ^ e.len + ((e :: T).map fun y => (1 / 2 : ℚ) ^ y.len).sum := by
  induction T generalizing e with
  | nil =>
    intro x hx
    obtain rfl : x = e := by simpa using hx
    simp [add_mul]
  | cons e' T ih =>
    obtain ⟨⟨hlen, hcode⟩, hchain⟩ := List.isChain_cons_cons.1 hT
    have hnext : (e'.code : ℚ) * (1 / 2) ^ e'.len = (e.code + 1) * (1 / 2) ^ e.len := by
      obtain ⟨d, hd⟩ := Nat.exists_eq_add_of_le hlen
      have hpow : (2 : ℚ) ^ d * (1 / 2) ^ d = 1 := by rw [← mul_pow]; norm_num
      rw [hcode, hd, Nat.add_sub_cancel_left, pow_add]
      push_cast
      linear_combination ((e.code : ℚ) + 1) * (1 / 2) ^ e.len * hpow
    have hsum : 0 ≤ ((e' :: T).map fun y => (1 / 2 : ℚ) ^ y.len).sum :=
      List.sum_nonneg fun y hy => by
        obtain ⟨z, -, rfl⟩ := List.mem_map.1 hy
        positivity
    intro x hx
    rw [List.map_cons, List.sum_cons]
    rcases List.mem_cons.1 hx with rfl | hx
    · linarith
    · have := ih e' hchain x hx
      linarith

theorem kraftSum_perm {len len' : List (Nat × Nat)} (h : len.Perm len') : kraftSum len = kraftSum len' :=
  (h.map _).sum_eq

theorem kraftSum_eq_sum_canon (len : List (Nat × Nat)) :
    kraftSum len = ((canon len).map fun e => (1 / 2 : ℚ) ^ e.len).sum := by
  rw [← kraftSum_perm (canonSort_perm len), ← canon_map, kraftSum, List.map_map]
  rfl

theorem codesFit_iff (T : List CodeEntry) : codesFit T = true ↔ ∀ e ∈ T, e.code < 2 ^ e.len := by
  simp [codesFit]

/-- Codes of a Kraft sum of at most 1 fit (42_huffman_canonical.md R181). -/
theorem codesFit_of_kraftSum_le_one {len : List (Nat × Nat)} (h : kraftSum len ≤ 1) : codesFit (canon len) = true := by
  rw [codesFit_iff]
  intro x hx
  rw [kraftSum_eq_sum_canon] at h
  have hchain := canon_isChain len
  cases hT : canon len with
  | nil => simp [hT] at hx
  | cons e T =>
    rw [hT] at hx h hchain
    have hle := next_chain_code_le e T hchain x hx
    rw [canon_head_code hT] at hle
    have hone : ((x.code : ℚ) + 1) * (1 / 2) ^ x.len ≤ 1 := by push_cast at hle; linarith
    have hpow : (2 : ℚ) ^ x.len * (1 / 2) ^ x.len = 1 := by rw [← mul_pow]; norm_num
    have hcode : (x.code : ℚ) + 1 ≤ 2 ^ x.len := by
      calc (x.code : ℚ) + 1
          = 2 ^ x.len * ((x.code + 1) * (1 / 2) ^ x.len) := by linear_combination -((x.code : ℚ) + 1) * hpow
        _ ≤ 2 ^ x.len * 1 := by gcongr
        _ = 2 ^ x.len := mul_one _
    exact_mod_cast hcode

/-! ### Looking up entries -/

/-- A key of a map with distinct keys has one value. -/
theorem DistinctKeys.eq_of_mem {F : List (Nat × Nat)} (h : DistinctKeys F) {s a b : Nat} (ha : (s, a) ∈ F)
    (hb : (s, b) ∈ F) : a = b := congrArg Prod.snd (List.inj_on_of_nodup_map h ha hb rfl)

theorem lengthOf_of_mem {len : List (Nat × Nat)} (h : DistinctKeys len) {s l : Nat} (hmem : (s, l) ∈ len) :
    lengthOf len s = l := by
  unfold lengthOf
  split
  case h_1 p hp =>
    obtain rfl : p.1 = s := by simpa using List.find?_some hp
    exact h.eq_of_mem (List.mem_of_find?_eq_some hp) hmem
  case h_2 hnone => exact absurd (beq_self_eq_true s) (List.find?_eq_none.1 hnone _ hmem)

/-- The entry of a symbol of the table. -/
theorem exists_entryOf {T : List CodeEntry} {s : Nat} (h : s ∈ T.map CodeEntry.sym) :
    ∃ e, entryOf T s = some e ∧ e ∈ T ∧ e.sym = s := by
  obtain ⟨x, hx, rfl⟩ := List.mem_map.1 h
  cases he : entryOf T x.sym with
  | none => exact absurd (beq_self_eq_true x.sym) (List.find?_eq_none.1 he x hx)
  | some e => exact ⟨e, rfl, List.mem_of_find?_eq_some he, by simpa using List.find?_some he⟩

theorem map_sym_canon_perm (len : List (Nat × Nat)) : ((canon len).map CodeEntry.sym).Perm (len.map Prod.fst) := by
  have h := ((canonSort_perm len).map Prod.fst)
  rw [← canon_map, List.map_map] at h
  exact h

theorem entryOf_eq_none {T : List CodeEntry} {s : Nat} (h : s ∉ T.map CodeEntry.sym) : entryOf T s = none :=
  List.find?_eq_none.2 fun e he hs => h (List.mem_map.2 ⟨e, he, by simpa using hs⟩)

theorem lengthOf_eq_zero {len : List (Nat × Nat)} {s : Nat} (h : s ∉ len.map Prod.fst) : lengthOf len s = 0 := by
  have hnone : (len.find? fun p => p.1 == s) = none :=
    List.find?_eq_none.2 fun p hp hs => h (List.mem_map.2 ⟨p, hp, by simpa using hs⟩)
  simp [lengthOf, hnone]

end Sys2Proof.Machine
end

section
/-! PROOFS. The Huffman container (43_huffman_codec.md R200 to R212, 30_encoding.md R103 to R106): what the writer writes is what the
reader reads, and each stops where its output exceeds the capacity. -/

namespace Sys2Proof.Machine

/-! ### Code bits -/

@[simp] theorem CodeEntry.length_bits (e : CodeEntry) : e.bits.length = e.len := length_bitsOf _ _

@[simp] theorem textBits_nil (T : List CodeEntry) : textBits T [] = [] := rfl

theorem textBits_cons_of_entry {T : List CodeEntry} {s : Nat} {e : CodeEntry} (h : entryOf T s = some e) (t : List Nat) :
    textBits T (s :: t) = e.bits ++ textBits T t := by
  simp [textBits, h]

theorem textBits_cons_of_none {T : List CodeEntry} {s : Nat} (h : entryOf T s = none) (t : List Nat) :
    textBits T (s :: t) = textBits T t := by
  simp [textBits, h]

/-- The number of code bits is the sum of the symbols' lengths (43_huffman_codec.md R200). -/
theorem length_textBits_canon {len : List (Nat × Nat)} (h : DistinctKeys len) (t : List Nat) :
    (textBits (canon len) t).length = codeBits len t := by
  induction t with
  | nil => rfl
  | cons s t ih =>
    have hcons : codeBits len (s :: t) = lengthOf len s + codeBits len t := by simp [codeBits]
    by_cases hs : s ∈ len.map Prod.fst
    · obtain ⟨e, he, hmem, rfl⟩ := exists_entryOf ((map_sym_canon_perm len).mem_iff.2 hs)
      rw [textBits_cons_of_entry he, List.length_append, e.length_bits, ih, hcons,
        lengthOf_of_mem h (mem_of_mem_canon hmem)]
    · rw [textBits_cons_of_none (entryOf_eq_none fun hmem => hs ((map_sym_canon_perm len).mem_iff.1 hmem)), ih, hcons,
        lengthOf_eq_zero hs, Nat.zero_add]

/-! ### The writer -/

theorem putCodes_eq (T : List CodeEntry) (w : List Bool) (t : List Nat) : putCodes T w t = w ++ textBits T t := by
  induction t generalizing w with
  | nil => simp [putCodes]
  | cons s t ih =>
    cases he : entryOf T s with
    | none => simp [putCodes, he, ih, textBits_cons_of_none he]
    | some e => simp [putCodes, he, ih, textBits_cons_of_entry he, put, CodeEntry.bits]

@[simp] theorem tableBits_cons (p : Nat × Nat) (entries : List (Nat × Nat)) :
    tableBits (p :: entries) = bitsOf 16 p.1 ++ bitsOf 5 p.2 ++ tableBits entries := by
  simp [tableBits]

@[simp] theorem length_tableBits (entries : List (Nat × Nat)) : (tableBits entries).length = 21 * entries.length := by
  induction entries with
  | nil => rfl
  | cons p entries ih => simp [ih]; omega

theorem putEntries_eq (T : List CodeEntry) (w : List Bool) :
    putEntries w T = w ++ tableBits (T.map fun e => (e.sym, e.len)) := by
  induction T generalizing w with
  | nil => simp [putEntries, tableBits]
  | cons e T ih => simp [putEntries, ih, put]

@[simp] theorem length_containerFields (entries : List (Nat × Nat)) (t : List Nat) :
    (containerFields entries t).length = 48 + 21 * entries.length + (textBits (canon entries) t).length := by
  simp [containerFields]; omega

/-- The container's bits are its fields (30_encoding.md R103, R106). -/
theorem containerBits_eq_containerFields {len : List (Nat × Nat)} (h : DistinctKeys len) (t : List Nat) :
    containerBits (canon len) (codeBits len t) t = containerFields (canonSort len) t := by
  simp [containerBits, containerFields, putCodes_eq, putEntries_eq, put, canon_map, canon_canonSort,
    length_textBits_canon h]

theorem nbytes_containerFields {len : List (Nat × Nat)} (h : DistinctKeys len) (t : List Nat) :
    nbytes (containerFields (canonSort len) t) = ceilDiv (48 + 21 * len.length + codeBits len t) 8 := by
  rw [nbytes, length_containerFields, canon_canonSort, length_textBits_canon h, length_canonSort]

/-- What HUF_COMPRESS makes of a text within the format's limits (43_huffman_codec.md R200, R205). -/
theorem encodeContainer_of_limits {t : List Nat} {F len : List (Nat × Nat)} (cap : Nat) (hF : F.length = len.length)
    (hkeys : DistinctKeys len) (hsyms : F.length ≤ 65535) (hlens : ∀ p ∈ len, p.2 ≤ 31)
    (hbits : codeBits len t ≤ 0xFFFFFFFF) :
    encodeContainer t cap F len =
      if cap < nbytes (containerFields (canonSort len) t) then .error (raise0 .outputOverflow)
      else .ok (finish (containerFields (canonSort len) t)) := by
  have hany : (len.any fun p => 31 < p.2) = false := by simpa using hlens
  rw [encodeContainer, if_neg (by omega), hany, if_neg Bool.false_ne_true, if_neg (by omega),
    containerBits_eq_containerFields hkeys, nbytes_containerFields hkeys, hF]

theorem encodeContainer_ok_length {t : List Nat} {cap : Nat} {F len : List (Nat × Nat)} {bytes : List Byte}
    (hF : F.length = len.length) (hkeys : DistinctKeys len) (h : encodeContainer t cap F len = .ok bytes) :
    bytes.length ≤ cap := by
  unfold encodeContainer at h
  split_ifs at h with _ _ _ hcap
  cases h
  rw [length_finish, containerBits_eq_containerFields hkeys, nbytes_containerFields hkeys, ← hF]
  omega

theorem distinctKeys_frequencies (t : List Nat) : DistinctKeys (frequencies t) := by
  have hfst : (frequencies t).map Prod.fst = t.dedup := by simp [frequencies, Function.comp_def]
  rw [DistinctKeys, hfst]
  exact t.nodup_dedup

@[simp] theorem length_frequencies (t : List Nat) : (frequencies t).length = t.dedup.length := by simp [frequencies]

theorem firstAbove_eq_none {bound : Nat} {t : List Nat} (k : Nat) (h : ∀ c ∈ t, c ≤ bound) :
    firstAbove bound k t = none := by
  induction t generalizing k with
  | nil => rfl
  | cons c t ih =>
    obtain ⟨hc, ht⟩ := List.forall_mem_cons.1 h
    rw [firstAbove, if_neg (by omega), ih _ ht]

theorem hufCompress_of_le {t : List Nat} (cap : Nat) (hne : t ≠ []) (h : ∀ c ∈ t, c ≤ 0xFFFF) :
    hufCompress t cap = encodeContainer t cap (frequencies t) (treeLengths (frequencies t)) := by
  simp [hufCompress, firstAbove_eq_none 0 h, hne]

theorem hufCompress_ok_length {t : List Nat} {cap : Nat} {bytes : List Byte} (h : hufCompress t cap = .ok bytes) :
    bytes.length ≤ cap := by
  unfold hufCompress at h
  split at h
  · cases h
  · split_ifs at h
    · cases h; exact Nat.zero_le _
    · exact encodeContainer_ok_length (length_treeLengths _).symm
        (distinctKeys_treeLengths (distinctKeys_frequencies t)) h

/-! ### The reader of the table -/

theorem isKey_eq_true_iff (F : List (Nat × Nat)) (s : Nat) : isKey F s = true ↔ s ∈ F.map Prod.fst := by
  simp [isKey]

theorem isKey_eq_false_iff (F : List (Nat × Nat)) (s : Nat) : isKey F s = false ↔ s ∉ F.map Prod.fst := by
  rw [← isKey_eq_true_iff, Bool.not_eq_true]

/-- The next key of a map with distinct keys is none of those before it. -/
theorem DistinctKeys.isKey_eq_false {F rest : List (Nat × Nat)} {p : Nat × Nat} (h : DistinctKeys (F ++ p :: rest)) :
    isKey F p.1 = false := by
  rw [isKey_eq_false_iff]
  rw [DistinctKeys, List.map_append, List.map_cons] at h
  exact fun hmem => (List.nodup_append.1 h).2.2 _ hmem _ (by simp) rfl

theorem avail_append (as bs : List Bool) : avail (as ++ bs) = as.length + bs.length := List.length_append

theorem readEntries_tableBits (entries len : List (Nat × Nat)) (r : List Bool) (hkeys : DistinctKeys (len ++ entries))
    (h : ∀ p ∈ entries, p.1 ≤ 0xFFFF ∧ 1 ≤ p.2 ∧ p.2 ≤ 31) :
    readEntries entries.length len (tableBits entries ++ r) = .ok (len ++ entries, r) := by
  induction entries generalizing len with
  | nil => simp [readEntries, tableBits]
  | cons p entries ih =>
    obtain ⟨⟨hsym, hlow, hhigh⟩, hrest⟩ := List.forall_mem_cons.1 h
    have havail : ¬avail (bitsOf 16 p.1 ++ (bitsOf 5 p.2 ++ (tableBits entries ++ r))) < 21 := by
      simp [avail]
      omega
    have hstep := ih (len ++ [p]) (by simpa using hkeys) hrest
    rw [List.length_cons, tableBits_cons, List.append_assoc, List.append_assoc, readEntries, if_neg havail]
    simp only [get_bitsOf_append 16 p.1 _ (by omega), get_bitsOf_append 5 p.2 _ (by omega)]
    rw [if_neg (by omega), hkeys.isKey_eq_false, if_neg Bool.false_ne_true, hstep, List.append_assoc,
      List.singleton_append]

/-- The reader of the table on a well-formed container (43_huffman_codec.md R211). -/
theorem readTable_containerFields {entries : List (Nat × Nat)} {t : List Nat} (extra : List Bool) (hne : entries ≠ [])
    (hlen : entries.length ≤ 65535) (hkeys : DistinctKeys entries)
    (hentries : ∀ p ∈ entries, p.1 ≤ 0xFFFF ∧ 1 ≤ p.2 ∧ p.2 ≤ 31) (hfit : codesFit (canon entries) = true)
    (hbits : (textBits (canon entries) t).length ≤ 0xFFFFFFFF) :
    readTable (containerFields entries t ++ extra) =
      .ok (canon entries, (textBits (canon entries) t).length, textBits (canon entries) t ++ extra) := by
  have hpos : 0 < entries.length := List.length_pos_of_ne_nil hne
  have hread := readEntries_tableBits entries []
    (bitsOf 32 (textBits (canon entries) t).length ++ (textBits (canon entries) t ++ extra)) (by simpa using hkeys)
    hentries
  rw [readTable, if_neg (by simp [avail]; omega)]
  simp only [containerFields, List.append_assoc, get_bitsOf_append 16 _ _ (show entries.length < 2 ^ 16 by omega)]
  rw [if_neg (by omega), hread]
  simp only [List.nil_append]
  rw [if_neg (by simp [avail])]
  simp only [get_bitsOf_append 32 _ _ (show (textBits (canon entries) t).length < 2 ^ 32 by omega)]
  rw [if_neg (by simp [avail]), hfit]
  rfl

/-! ### The bit walk -/

theorem le_maxLength {T : List CodeEntry} {e : CodeEntry} (h : e ∈ T) : e.len ≤ maxLength T := by
  have hfold : ∀ (L : List CodeEntry) (n : Nat), n ≤ L.foldl (fun m x => max m x.len) n ∧
      ∀ x ∈ L, x.len ≤ L.foldl (fun m y => max m y.len) n := by
    intro L
    induction L with
    | nil => simp
    | cons y L ih =>
      intro n
      obtain ⟨hacc, hall⟩ := ih (max n y.len)
      exact ⟨(le_max_left _ _).trans hacc, List.forall_mem_cons.2 ⟨(le_max_right _ _).trans hacc, hall⟩⟩
  exact (hfold T 0).2 e h

/-- An entry's own length and code match it alone. -/
theorem matchCode_self {T : List CodeEntry} (hT : T.Pairwise CodeEntry.Below) {e : CodeEntry} (he : e ∈ T) :
    matchCode T e.len e.code = some e := by
  cases hm : matchCode T e.len e.code with
  | none => exact absurd (List.find?_eq_none.1 hm e he) (by simp)
  | some x =>
    have hx : x.len = e.len ∧ x.code = e.code := by simpa using List.find?_some hm
    by_contra hne
    rcases below_or_below hT (List.mem_of_find?_eq_some hm) he (by simpa using hne) with ⟨-, hlt⟩ | ⟨-, hlt⟩ <;>
      simp [hx.1, hx.2] at hlt

/-- The first bits of a code, short of all of them, are no entry's code (42_huffman_canonical.md R182). -/
theorem matchCode_first_bits {T : List CodeEntry} (hT : T.Pairwise CodeEntry.Below) {e : CodeEntry} (he : e ∈ T) {n : Nat}
    (hn : 1 ≤ n) (hlen : n ≤ e.len) : matchCode T (e.len - n) (e.code / 2 ^ n) = none := by
  refine List.find?_eq_none.2 fun x hx hm => ?_
  obtain ⟨hxl, hxc⟩ : x.len = e.len - n ∧ x.code = e.code / 2 ^ n := by simpa using hm
  rcases below_or_below hT hx he (fun h => by rw [h] at hxl; omega) with ⟨-, hlt⟩ | ⟨hle, -⟩
  · rw [hxl, hxc, show e.len - (e.len - n) = n by omega, Nat.add_mul, Nat.one_mul] at hlt
    have := Nat.lt_div_mul_add (a := e.code) (Nat.two_pow_pos n)
    omega
  · omega

/-- The walk over the last `n` bits of a code, after its other bits. -/
theorem walkBits_code_suffix {T : List CodeEntry} (cap : Nat) (hT : T.Pairwise CodeEntry.Below) {e : CodeEntry} (he : e ∈ T)
    (rest : List Bool) (out : List Nat) (n : Nat) (hn : 1 ≤ n) (hlen : n ≤ e.len) :
    walkBits T cap (bitsOf n e.code ++ rest) (e.code / 2 ^ n) (e.len - n) out =
      if cap < 4 * (out.length + 1) then .error (raise0 .outputOverflow)
      else walkBits T cap rest 0 0 (out ++ [e.sym]) := by
  induction n with
  | zero => omega
  | succ n ih =>
    have hacc : 2 * (e.code / 2 ^ (n + 1)) + (e.code.testBit n).toNat = e.code / 2 ^ n := by
      rw [pow_succ, ← Nat.div_div_eq_div_mul, Nat.testBit_eq_decide_div_mod_eq]
      rcases Nat.mod_two_eq_zero_or_one (e.code / 2 ^ n) with h | h <;> simp [h] <;> omega
    rw [bitsOf, List.cons_append, walkBits, hacc, show e.len - (n + 1) + 1 = e.len - n by omega]
    cases n with
    | zero => simp [matchCode_self hT he, bitsOf]
    | succ m =>
      have hmax := le_maxLength he
      rw [matchCode_first_bits hT he (by omega) (by omega)]
      simp only
      rw [if_neg (by omega)]
      exact ih (by omega) (by omega)

/-- The walk over one code decodes its symbol. -/
theorem walkBits_code {T : List CodeEntry} (cap : Nat) (hT : T.Pairwise CodeEntry.Below) {e : CodeEntry} (he : e ∈ T)
    (hlen : 1 ≤ e.len) (hfit : e.code < 2 ^ e.len) (rest : List Bool) (out : List Nat) :
    walkBits T cap (e.bits ++ rest) 0 0 out =
      if cap < 4 * (out.length + 1) then .error (raise0 .outputOverflow)
      else walkBits T cap rest 0 0 (out ++ [e.sym]) := by
  have h := walkBits_code_suffix cap hT he rest out e.len hlen le_rfl
  rwa [Nat.div_eq_of_lt hfit, Nat.sub_self] at h

/-- The walk over the code bits of a text decodes the text, or stops at the first symbol that does not fit
(43_huffman_codec.md R210, R212). -/
theorem walkBits_textBits {T : List CodeEntry} (cap : Nat) (hT : T.Pairwise CodeEntry.Below) (hlens : ∀ e ∈ T, 1 ≤ e.len)
    (hfit : codesFit T = true) (t out : List Nat) (hmem : ∀ c ∈ t, c ∈ T.map CodeEntry.sym)
    (hout : 4 * out.length ≤ cap) :
    walkBits T cap (textBits T t) 0 0 out =
      if cap < 4 * (out.length + t.length) then .error (raise0 .outputOverflow) else .ok (out ++ t) := by
  induction t generalizing out with
  | nil => simp [walkBits]; omega
  | cons s t ih =>
    obtain ⟨hs, ht⟩ := List.forall_mem_cons.1 hmem
    obtain ⟨e, hentry, he, rfl⟩ := exists_entryOf hs
    rw [textBits_cons_of_entry hentry, walkBits_code cap hT he (hlens e he) ((codesFit_iff T).1 hfit e he)]
    by_cases hcap : cap < 4 * (out.length + 1)
    · rw [if_pos hcap, if_pos (by simp; omega)]
    · rw [if_neg hcap, ih (out ++ [e.sym]) ht (by simp; omega)]
      simp [Nat.add_assoc, Nat.add_comm 1]

theorem walkBits_ok_length {T : List CodeEntry} {cap : Nat} {bs : List Bool} {acc alen : Nat} {out res : List Nat}
    (hout : 4 * out.length ≤ cap) (h : walkBits T cap bs acc alen out = .ok res) : 4 * res.length ≤ cap := by
  induction bs generalizing acc alen out with
  | nil =>
    unfold walkBits at h
    split_ifs at h
    cases h
    exact hout
  | cons b bs ih =>
    unfold walkBits at h
    split at h <;> split_ifs at h with hstop
    · exact ih (by simpa using hstop) h
    · exact ih hout h

theorem hufDecompress_ok_length {bytes : List Byte} {cap : Nat} {out : List Nat}
    (h : hufDecompress bytes cap = .ok out) : 4 * out.length ≤ cap := by
  unfold hufDecompress at h
  split_ifs at h
  · cases h; simp
  · split at h
    · cases h
    · exact walkBits_ok_length (by simp) h

/-- HUF_DECOMPRESS on a well-formed container, its entries in any order and any bits after it (43_huffman_codec.md R210 to
R214). -/
theorem hufDecompress_containerFields {bytes : List Byte} {entries : List (Nat × Nat)} {t : List Nat} (cap : Nat)
    {extra : List Bool} (hne : entries ≠ []) (hlen : entries.length ≤ 65535) (hkeys : DistinctKeys entries)
    (hentries : ∀ p ∈ entries, p.1 ≤ 0xFFFF ∧ 1 ≤ p.2 ∧ p.2 ≤ 31) (hfit : codesFit (canon entries) = true)
    (hmem : ∀ c ∈ t, c ∈ entries.map Prod.fst) (hbits : (textBits (canon entries) t).length ≤ 0xFFFFFFFF)
    (hbytes : readerOn bytes = containerFields entries t ++ extra) :
    hufDecompress bytes cap = if cap < 4 * t.length then .error (raise0 .outputOverflow) else .ok t := by
  have hsome : bytes ≠ [] := by
    rintro rfl
    have := congrArg List.length hbytes
    simp at this
    omega
  have hlens : ∀ e ∈ canon entries, 1 ≤ e.len := fun e he => (hentries _ (mem_of_mem_canon he)).2.1
  have hsyms : ∀ c ∈ t, c ∈ (canon entries).map CodeEntry.sym := fun c hc =>
    (map_sym_canon_perm entries).mem_iff.2 (hmem c hc)
  rw [hufDecompress, if_neg hsome, hbytes, readTable_containerFields extra hne hlen hkeys hentries hfit hbits]
  simp only [List.take_left]
  rw [walkBits_textBits cap (canon_pairwise_below entries) hlens hfit t [] hsyms (by simp)]
  simp

/-! ### The table commands -/

theorem readFrequencies_ok_length {es F res : List (Nat × Nat)} {k : Nat} (h : readFrequencies k F es = .ok res) :
    res.length = F.length + es.length := by
  induction es generalizing k F with
  | nil => cases h; rfl
  | cons p es ih =>
    unfold readFrequencies at h
    split_ifs at h
    rw [ih h]; simp; omega

theorem readLengths_ok_length {es F res : List (Nat × Nat)} {k : Nat} (h : readLengths k F es = .ok res) :
    res.length = F.length + es.length := by
  induction es generalizing k F with
  | nil => cases h; rfl
  | cons p es ih =>
    unfold readLengths at h
    split_ifs at h
    rw [ih h]; simp; omega

/-- A frequency table without a bad entry is its own map (41_huffman_tree.md R166). -/
theorem readFrequencies_of_good (es F : List (Nat × Nat)) (k : Nat) (hkeys : DistinctKeys (F ++ es))
    (h : ∀ p ∈ es, p.1 ≤ 0xFFFF ∧ 1 ≤ p.2) : readFrequencies k F es = .ok (F ++ es) := by
  induction es generalizing k F with
  | nil => simp [readFrequencies]
  | cons p es ih =>
    obtain ⟨⟨hsym, hpos⟩, hrest⟩ := List.forall_mem_cons.1 h
    rw [readFrequencies, if_neg (by omega), hkeys.isKey_eq_false, if_neg Bool.false_ne_true, if_neg (by omega),
      ih (F ++ [(p.1, p.2)]) (k + 1) (by simpa using hkeys) hrest, List.append_assoc, List.singleton_append]

/-- A length table without a bad entry is its own map (42_huffman_canonical.md R186). -/
theorem readLengths_of_good (es F : List (Nat × Nat)) (k : Nat) (hkeys : DistinctKeys (F ++ es))
    (h : ∀ p ∈ es, p.1 ≤ 0xFFFF ∧ 1 ≤ p.2 ∧ p.2 ≤ 31) : readLengths k F es = .ok (F ++ es) := by
  induction es generalizing k F with
  | nil => simp [readLengths]
  | cons p es ih =>
    obtain ⟨⟨hsym, hpos, hlen⟩, hrest⟩ := List.forall_mem_cons.1 h
    rw [readLengths, if_neg (by omega), hkeys.isKey_eq_false, if_neg Bool.false_ne_true, if_neg (by omega),
      if_neg (by omega), ih (F ++ [(p.1, p.2)]) (k + 1) (by simpa using hkeys) hrest, List.append_assoc,
      List.singleton_append]

theorem lengthTable_ok_length {entries L : List (Nat × Nat)} {cap : Nat} (h : lengthTable entries cap = .ok L) :
    8 * L.length ≤ cap := by
  unfold lengthTable at h
  split at h
  · cases h
  · split at h
    case h_1 => cases h
    case h_2 F hF =>
      split at h <;> cases h
      have hlen := readFrequencies_ok_length hF
      simp at hlen ⊢
      omega

theorem codeTable_ok_length {entries : List (Nat × Nat)} {T : List CodeEntry} {cap : Nat}
    (h : codeTable entries cap = .ok T) : 12 * T.length ≤ cap := by
  unfold codeTable at h
  split at h
  · cases h
  · split at h
    case h_1 => cases h
    case h_2 len hread =>
      split_ifs at h
      cases h
      have hlen := readLengths_ok_length hread
      simp at hlen ⊢
      omega

/-- HUF_LENGTHS on a frequency table without a bad entry (41_huffman_tree.md R166). -/
theorem lengthTable_of_good {F : List (Nat × Nat)} (cap : Nat) (hne : F ≠ []) (hkeys : DistinctKeys F)
    (h : ∀ p ∈ F, p.1 ≤ 0xFFFF ∧ 1 ≤ p.2) :
    lengthTable F cap =
      if cap < 8 * F.length then .error (raise0 .outputOverflow) else .ok (canonSort (treeLengths F)) := by
  rw [lengthTable, if_neg hne, readFrequencies_of_good F [] 0 (by simpa using hkeys) h]
  rfl

/-- HUF_CANON on a length table without a bad entry whose codes fit (42_huffman_canonical.md R186). -/
theorem codeTable_of_good {F : List (Nat × Nat)} (cap : Nat) (hne : F ≠ []) (hkeys : DistinctKeys F)
    (h : ∀ p ∈ F, p.1 ≤ 0xFFFF ∧ 1 ≤ p.2 ∧ p.2 ≤ 31) (hfit : codesFit (canon F) = true) :
    codeTable F cap = if cap < 12 * F.length then .error (raise0 .outputOverflow) else .ok (canon F) := by
  rw [codeTable, if_neg hne, readLengths_of_good F [] 0 (by simpa using hkeys) h]
  simp only [List.nil_append]
  rw [hfit]
  rfl

end Sys2Proof.Machine
end

section
/-! PROOFS. The LZ77 bitstream and text forms: what LZ_COMPRESS emits (45_lz77_codec.md R260 to R263), and what LZ_DECOMPRESS_BITS
makes of the bitstream of a triple sequence (R270 to R276). -/

namespace Sys2Proof.Machine

/-! ### What LZ_COMPRESS emits -/

@[simp] theorem streamBits_nil (w b : Nat) : streamBits w b [] = [] := rfl

@[simp] theorem streamBits_cons (w b : Nat) (t : Triple) (ts : List Triple) :
    streamBits w b (t :: ts) = tripleBits w b t ++ streamBits w b ts := List.flatMap_cons

@[simp] theorem streamBits_append (w b : Nat) (as bs : List Triple) :
    streamBits w b (as ++ bs) = streamBits w b as ++ streamBits w b bs := List.flatMap_append

theorem putTriple_eq (w b : Nat) (wbits : List Bool) (t : Triple) :
    putTriple w b wbits t = wbits ++ tripleBits w b t := by
  cases h : t.chr <;> simp [putTriple, putChar, tripleBits, put, h, offsetWidth, lengthWidth]

/-- The text after the tokens of the triples, the first of index `k`, where `tx` stands before them (45_lz77_codec.md R260). -/
def emittedText : Nat → List Nat → List Triple → List Nat
  | _, tx, [] => tx
  | k, tx, t :: ts => emittedText (k + 1) (addToken k tx t) ts

theorem emittedText_succ (k : Nat) (tx : List Nat) (ts : List Triple) :
    emittedText (k + 1) tx ts = tx ++ ts.flatMap fun t => 0x20 :: token t := by
  induction ts generalizing k tx with
  | nil => simp [emittedText]
  | cons t ts ih => simp [emittedText, ih, addToken]

/-- Joining by spaces is a space before each part but the first. -/
theorem intercalate_space_cons (x : List Nat) (xs : List (List Nat)) :
    [0x20].intercalate (x :: xs) = x ++ xs.flatMap fun y => 0x20 :: y := by
  induction xs generalizing x with
  | nil => simp
  | cons y xs ih => rw [List.intercalate_cons_cons, ih]; simp

theorem emittedText_zero (ts : List Triple) : emittedText 0 [] ts = tripleText ts := by
  cases ts with
  | nil => rfl
  | cons t ts =>
    rw [emittedText, emittedText_succ, tripleText, List.map_cons, intercalate_space_cons, List.flatMap_map]
    rfl

theorem emitBits_ok {w b cap : Nat} {wbits res : List Bool} {t : Triple} (h : emitBits w b cap wbits t = .ok res) :
    res = wbits ++ tripleBits w b t ∧ nbytes res ≤ cap := by
  unfold emitBits at h
  split_ifs at h with _ hcap
  cases h
  exact ⟨putTriple_eq w b wbits t, by omega⟩

theorem emitText_ok {cap2 k : Nat} {tx res : List Nat} {t : Triple} (h : emitText cap2 k tx t = .ok res) :
    res = addToken k tx t ∧ 4 * res.length ≤ cap2 := by
  unfold emitText at h
  split_ifs at h with hcap
  cases h
  exact ⟨rfl, by omega⟩

/-- A triple of a loop that succeeds: both of its parts are emitted, and the loop goes on. -/
theorem emitTriples_cons_ok {e : Emit} {w b cap cap2 k : Nat} {wbits : List Bool} {tx : List Nat} {t : Triple}
    {ts : List Triple} {res : List Bool × List Nat} (h : emitTriples e w b cap cap2 k wbits tx (t :: ts) = .ok res) :
    ∃ wbits' tx', (if e.bits then emitBits w b cap wbits t else .ok wbits) = .ok wbits' ∧
      (if e.text then emitText cap2 k tx t else .ok tx) = .ok tx' ∧
      emitTriples e w b cap cap2 (k + 1) wbits' tx' ts = .ok res := by
  rw [emitTriples] at h
  split at h
  case h_1 => cases h
  case h_2 wbits' hbits =>
    split at h
    case h_1 => cases h
    case h_2 tx' htext => exact ⟨wbits', tx', hbits, htext, h⟩

/-- What the loop emits when it succeeds: each form that is asked for, within its capacity. -/
theorem emitTriples_ok {e : Emit} {w b cap cap2 k : Nat} {wbits wbits' : List Bool} {tx tx' : List Nat}
    {ts : List Triple} (h : emitTriples e w b cap cap2 k wbits tx ts = .ok (wbits', tx')) (hcap : nbytes wbits ≤ cap)
    (hcap2 : 4 * tx.length ≤ cap2) :
    wbits' = (if e.bits then wbits ++ streamBits w b ts else wbits) ∧
      tx' = (if e.text then emittedText k tx ts else tx) ∧ nbytes wbits' ≤ cap ∧ 4 * tx'.length ≤ cap2 := by
  induction ts generalizing k wbits tx with
  | nil => cases h; simp [emittedText, hcap, hcap2]
  | cons t ts ih =>
    obtain ⟨wbits₁, tx₁, hbits, htext, hrest⟩ := emitTriples_cons_ok h
    have hb : wbits₁ = (if e.bits then wbits ++ tripleBits w b t else wbits) ∧ nbytes wbits₁ ≤ cap := by
      split at hbits
      case isTrue he => simpa [he] using emitBits_ok hbits
      case isFalse he => cases hbits; simp [he, hcap]
    have ht : tx₁ = (if e.text then addToken k tx t else tx) ∧ 4 * tx₁.length ≤ cap2 := by
      split at htext
      case isTrue he => simpa [he] using emitText_ok htext
      case isFalse he => cases htext; simp [he, hcap2]
    obtain ⟨hwbits, htx, hfits⟩ := ih hrest hb.2 ht.2
    refine ⟨?_, ?_, hfits⟩
    · rw [hwbits, hb.1]; cases e.bits <;> simp
    · rw [htx, ht.1]; cases e.text <;> simp [emittedText]

/-- The characters that the bitstream form can carry (45_lz77_codec.md R262). -/
abbrev Narrow (ts : List Triple) : Prop := ∀ x ∈ ts, ∀ c, x.chr = some c → c ≤ 0xFF

theorem emitBits_error {w b cap : Nat} {wbits : List Bool} {t : Triple} {x : Raise}
    (hnarrow : ∀ c, t.chr = some c → c ≤ 0xFF) (h : emitBits w b cap wbits t = .error x) : x = raise0 .outputOverflow := by
  have hwide : wideChar t.chr = false := by
    cases hc : t.chr with
    | none => rfl
    | some c => simpa [wideChar] using hnarrow c hc
  rw [emitBits, hwide, if_neg Bool.false_ne_true] at h
  split at h <;> cases h
  rfl

theorem emitText_error {cap2 k : Nat} {tx : List Nat} {t : Triple} {x : Raise} (h : emitText cap2 k tx t = .error x) :
    x = raise0 .outputOverflow := by
  unfold emitText at h
  split at h <;> cases h
  rfl

/-- Without a character too wide for the bitstream, the loop's one error is OutputOverflow at 0 (45_lz77_codec.md R260). -/
theorem emitTriples_error {e : Emit} {w b cap cap2 k : Nat} {wbits : List Bool} {tx : List Nat} {ts : List Triple}
    {x : Raise} (hnarrow : e.bits = true → Narrow ts) (h : emitTriples e w b cap cap2 k wbits tx ts = .error x) :
    x = raise0 .outputOverflow := by
  induction ts generalizing k wbits tx with
  | nil => cases h
  | cons t ts ih =>
    rw [emitTriples] at h
    split at h
    case h_1 y hbits =>
      cases h
      split at hbits
      case isTrue he => exact emitBits_error (hnarrow he t (by simp)) hbits
      case isFalse => cases hbits
    case h_2 =>
      split at h
      case h_1 y htext =>
        cases h
        split at htext
        case isTrue => exact emitText_error htext
        case isFalse => cases htext
      case h_2 => exact ih (fun he x hx => hnarrow he x (by simp [hx])) h

/-- What LZ_COMPRESS makes of a text: the forms that are asked for, within their capacities. -/
theorem lzCompress_ok {e : Emit} {w b cap cap2 : Nat} {t tx : List Nat} {bytes : List Byte}
    (h : lzCompress e w b cap cap2 t = .ok (bytes, tx)) :
    bytes = finish (if e.bits then streamBits w b (triples t w b) else []) ∧
      tx = (if e.text then tripleText (triples t w b) else []) ∧ bytes.length ≤ cap ∧ 4 * tx.length ≤ cap2 := by
  unfold lzCompress at h
  split at h
  case h_1 => cases h
  case h_2 wbits tx' hemit =>
    cases h
    obtain ⟨hwbits, htx, hcap, hcap2⟩ := emitTriples_ok hemit (Nat.zero_le _) (Nat.zero_le _)
    exact ⟨by simpa using congrArg finish hwbits, by rw [htx, emittedText_zero], by rwa [length_finish], hcap2⟩

theorem lzCompress_error {e : Emit} {w b cap cap2 : Nat} {t : List Nat} {x : Raise}
    (hnarrow : e.bits = true → Narrow (triples t w b)) (h : lzCompress e w b cap cap2 t = .error x) :
    x = raise0 .outputOverflow := by
  unfold lzCompress at h
  split at h
  case h_1 y hemit => cases h; exact emitTriples_error hnarrow hemit
  case h_2 => cases h

/-! ### Replaying triples -/

/-- The replay of triples after an output. -/
def replayFrom (out : List Nat) (ts : List Triple) : List Nat := ts.foldl (fun y t => replay y t.off t.len t.chr) out

@[simp] theorem replayFrom_nil (out : List Nat) : replayFrom out [] = out := rfl

@[simp] theorem replayFrom_cons (out : List Nat) (t : Triple) (ts : List Triple) :
    replayFrom out (t :: ts) = replayFrom (replay out t.off t.len t.chr) ts := rfl

theorem replayFrom_append (out : List Nat) (as bs : List Triple) :
    replayFrom out (as ++ bs) = replayFrom (replayFrom out as) bs := List.foldl_append

theorem replayAll_eq_replayFrom (ts : List Triple) : replayAll ts = replayFrom [] ts := rfl

theorem length_copyBack (o L : Nat) (out : List Nat) : (copyBack o L out).length = out.length + L := by
  induction L generalizing out with
  | zero => rfl
  | succ L ih => rw [copyBack, ih]; simp; omega

theorem length_replay (out : List Nat) (o L : Nat) (c : Option Nat) :
    (replay out o L c).length = out.length + tripleSize L c := by
  cases c <;> simp [replay, length_copyBack, tripleSize]
  omega

theorem length_le_length_replayFrom (out : List Nat) (ts : List Triple) : out.length ≤ (replayFrom out ts).length := by
  induction ts generalizing out with
  | nil => exact le_rfl
  | cons t ts ih =>
    have h := ih (replay out t.off t.len t.chr)
    rw [length_replay] at h
    exact (Nat.le_add_right _ _).trans h

/-- Where the replay of `k + 1` triples is longer than that of `k`, there is a triple of index `k`. -/
theorem exists_triple_of_replayAll_lt {ts : List Triple} {k n : Nat} (hk : 4 * (replayAll (ts.take k)).length ≤ n)
    (hk1 : n < 4 * (replayAll (ts.take (k + 1))).length) :
    ∃ t, k < ts.length ∧ ts = ts.take k ++ t :: ts.drop (k + 1) ∧
      n < 4 * (replay (replayAll (ts.take k)) t.off t.len t.chr).length := by
  have hlt : k < ts.length := by
    by_contra hge
    rw [List.take_of_length_le (by omega)] at hk hk1
    omega
  refine ⟨ts[k], hlt, by rw [List.getElem_cons_drop, List.take_append_drop], ?_⟩
  rwa [List.take_succ_eq_append_getElem hlt, replayAll_eq_replayFrom, replayFrom_append] at hk1

/-! ### One triple of a bitstream -/

/-- The bits of a triple's character (30_encoding.md R113). -/
def charBits : Option Nat → List Bool
  | some c => bitsOf 8 c
  | none => []

theorem tripleBits_eq (w b : Nat) (t : Triple) :
    tripleBits w b t = bitsOf 1 (if 0 < t.len then 1 else 0) ++ bitsOf (clog2 w) (t.off % 2 ^ clog2 w) ++
      bitsOf (clog2 (b + 1)) t.len ++ charBits t.chr := rfl


theorem length_tripleBits (w b : Nat) (t : Triple) :
    (tripleBits w b t).length = headerWidth w b + if t.chr.isSome then 8 else 0 := by
  cases h : t.chr <;> simp [tripleBits, h, headerWidth, offsetWidth, lengthWidth] <;> omega

theorem headerWidth_le_length_tripleBits (w b : Nat) (t : Triple) : headerWidth w b ≤ (tripleBits w b t).length := by
  rw [length_tripleBits]; omega

theorem headerWidth_pos (w b : Nat) : 0 < headerWidth w b := by unfold headerWidth; omega

theorem length_le_length_streamBits (w b : Nat) (ts : List Triple) : ts.length ≤ (streamBits w b ts).length := by
  induction ts with
  | nil => exact le_rfl
  | cons t ts ih =>
    have hpos := headerWidth_pos w b
    have hle := headerWidth_le_length_tripleBits w b t
    simp
    omega

/-- The triple can be carried after an output of `n` symbols (45_lz77_codec.md R274). -/
structure TripleFits (w b n : Nat) (t : Triple) : Prop where
  zero : t.off = 0 ↔ t.len = 0
  off_le : t.off ≤ w
  len_le : t.len ≤ b
  reach : t.off ≤ n
  chr_le : ∀ c, t.chr = some c → c ≤ 0xFF

theorem StreamFits.head {w b : Nat} {out : List Nat} {t : Triple} {ts : List Triple} (h : StreamFits w b out (t :: ts)) :
    TripleFits w b out.length t := by
  obtain ⟨hzero, hoff, hlen, hreach, hchr, -, -⟩ := h
  exact ⟨hzero, hoff, hlen, hreach, hchr⟩

/-- What follows a triple keeps its character and gives it none: a final U+0000 needs room for a header after it, and a triple
without a character ends the stream (45_lz77_codec.md R273). -/
structure ChrKept (w b : Nat) (t : Triple) (rest : List Bool) : Prop where
  nul : t.chr = some 0 → headerWidth w b ≤ rest.length
  none : t.chr = none → rest.length < 8

theorem readChar_chr {w b : Nat} {t : Triple} {rest : List Bool} (hchr : ∀ c, t.chr = some c → c ≤ 0xFF)
    (hkept : ChrKept w b t rest) :
    readChar (headerWidth w b) (charBits t.chr ++ rest) = (t.chr, rest) := by
  cases hc : t.chr with
  | none => exact if_pos (hkept.none hc)
  | some c =>
    have hle := hchr c hc
    have hdrop : ¬(c = 0 ∧ avail rest < headerWidth w b) := by
      rintro ⟨rfl, hlt⟩
      exact absurd (hkept.nul hc) (by simpa [avail] using hlt)
    rw [charBits, readChar, if_neg (by simp [avail])]
    simp only [get_bitsOf_append 8 c rest (by omega), if_neg hdrop]

/-- The fields of a triple are read back (45_lz77_codec.md R270). -/
theorem readTriple_tripleBits {w b n : Nat} {t : Triple} {rest : List Bool} (ht : TripleFits w b n t)
    (hkept : ChrKept w b t rest) :
    readTriple w b (tripleBits w b t ++ rest) =
      (if 0 < t.len then 1 else 0, t.off % 2 ^ clog2 w, t.len, t.chr, rest) := by
  have hflag : (if 0 < t.len then 1 else 0) < 2 ^ 1 := by split <;> decide
  have hoff : t.off % 2 ^ clog2 w < 2 ^ clog2 w := Nat.mod_lt _ (Nat.two_pow_pos _)
  have hlen : t.len < 2 ^ clog2 (b + 1) := Nat.lt_of_lt_of_le (Nat.lt_succ_of_le ht.len_le) (le_two_pow_clog2 _)
  simp only [readTriple, tripleBits_eq, List.append_assoc, offsetWidth, lengthWidth, get_bitsOf_append _ _ _ hflag,
    get_bitsOf_append _ _ _ hoff, get_bitsOf_append _ _ _ hlen, readChar_chr ht.chr_le hkept]

/-- The stored offset stands for the offset (45_lz77_codec.md R272). -/
theorem decodeOffset_stored {w b n : Nat} {t : Triple} (ht : TripleFits w b n t) :
    decodeOffset w (if 0 < t.len then 1 else 0) (t.off % 2 ^ clog2 w) = t.off := by
  have hpow : t.off ≤ 2 ^ clog2 w := ht.off_le.trans (le_two_pow_clog2 w)
  by_cases hlen : 0 < t.len
  · have hoff : t.off ≠ 0 := fun h0 => by have := ht.zero.1 h0; omega
    rw [if_pos hlen, decodeOffset, if_neg Nat.one_ne_zero]
    rcases hpow.lt_or_eq with hlt | heq
    · rw [Nat.mod_eq_of_lt hlt, if_pos hoff]
    · rw [heq, Nat.mod_self, if_neg (not_not_intro rfl)]
      exact rfl
  · have hoff : t.off = 0 := ht.zero.2 (by omega)
    rw [if_neg hlen, decodeOffset, if_pos rfl, hoff]

theorem checkTriple_fits {w b n k : Nat} {t : Triple} (ht : TripleFits w b n t) :
    checkTriple w b (if 0 < t.len then 1 else 0) (t.off % 2 ^ clog2 w) t.off t.len n k = none := by
  obtain ⟨hzero, hoff, hlen, hreach, -⟩ := ht
  by_cases hpos : 0 < t.len
  · rw [if_pos hpos, checkTriple, if_neg (by omega), if_neg (by omega), if_neg (by omega), if_neg (by omega)]
  · have hlen0 : t.len = 0 := by omega
    have hoff0 : t.off = 0 := hzero.2 hlen0
    simp [checkTriple, hlen0, hoff0]

/-- A turn of the decoder's loop on a triple it can replay (45_lz77_codec.md R270, R271). -/
theorem decodeTriples_tripleBits {w b cap fuel k : Nat} {t : Triple} {rest : List Bool} {out : List Nat}
    (ht : TripleFits w b out.length t) (hkept : ChrKept w b t rest) :
    decodeTriples w b cap (fuel + 1) k (tripleBits w b t ++ rest) out =
      if cap < 4 * (replay out t.off t.len t.chr).length then .error { err := .outputOverflow, pos := k }
      else decodeTriples w b cap fuel (k + 1) rest (replay out t.off t.len t.chr) := by
  have havail : ¬avail (tripleBits w b t ++ rest) < headerWidth w b := by
    have := headerWidth_le_length_tripleBits w b t
    rw [avail_append]
    omega
  rw [decodeTriples, if_neg havail]
  simp only [readTriple_tripleBits ht hkept, decodeOffset_stored ht, checkTriple_fits ht, length_replay]

/-! ### The triples of a bitstream -/

/-- Triples before another one each have a character, and the rest can be carried after their replay. -/
theorem StreamFits.of_append {w b : Nat} {out : List Nat} {as : List Triple} {t : Triple} {bs : List Triple}
    (h : StreamFits w b out (as ++ t :: bs)) :
    StreamFits w b out as ∧ (∀ x ∈ as, x.chr ≠ none) ∧ StreamFits w b (replayFrom out as) (t :: bs) := by
  induction as generalizing out with
  | nil => exact ⟨trivial, by simp, h⟩
  | cons a as ih =>
    obtain ⟨hzero, hoff, hlen, hreach, hchr, hlast, hrest⟩ := h
    obtain ⟨has, hsome, ht⟩ := ih hrest
    have ha : a.chr ≠ none := fun h => by simpa using hlast h
    exact ⟨⟨hzero, hoff, hlen, hreach, hchr, fun h => absurd h ha, has⟩, List.forall_mem_cons.2 ⟨ha, hsome⟩, ht⟩

@[simp] theorem endsWithNul_cons_cons (x y : Triple) (ts : List Triple) :
    endsWithNul (x :: y :: ts) = endsWithNul (y :: ts) := by
  simp [endsWithNul]

theorem endsWithNul_append_cons (as : List Triple) (t : Triple) (bs : List Triple) :
    endsWithNul (as ++ t :: bs) = endsWithNul (t :: bs) := by
  rw [endsWithNul, List.getLast?_append_of_ne_nil _ (List.cons_ne_nil t bs), endsWithNul]

theorem endsWithNul_singleton (x : Triple) : endsWithNul [x] = (x.chr == some 0) := rfl

/-- What follows a triple of a stream keeps its character, where the stream does not end with U+0000 or a header fits after it. -/
theorem chrKept_of_stream {w b : Nat} {t : Triple} {ts : List Triple} {tail : List Bool}
    (hnone : t.chr = none → (streamBits w b ts ++ tail).length < 8)
    (hkeep : endsWithNul (t :: ts) = false ∨ headerWidth w b ≤ tail.length) :
    ChrKept w b t (streamBits w b ts ++ tail) where
  nul hc := by
    cases ts with
    | nil =>
      rcases hkeep with hend | htail
      · simp [endsWithNul_singleton, hc] at hend
      · simpa using htail
    | cons x ts =>
      have := headerWidth_le_length_tripleBits w b x
      simp
      omega
  none := hnone

/-- The decoder on triples that each have a character, and what comes after them. -/
theorem decodeTriples_streamBits {w b cap fuel k : Nat} {ts : List Triple} {tail : List Bool} {out : List Nat}
    (hfits : StreamFits w b out ts) (hsome : ∀ x ∈ ts, x.chr ≠ none)
    (hkeep : endsWithNul ts = false ∨ headerWidth w b ≤ tail.length) (hcap : 4 * (replayFrom out ts).length ≤ cap) :
    decodeTriples w b cap (fuel + ts.length) k (streamBits w b ts ++ tail) out =
      decodeTriples w b cap fuel (k + ts.length) tail (replayFrom out ts) := by
  induction ts generalizing k out with
  | nil => rfl
  | cons t ts ih =>
    obtain ⟨ht, hsome'⟩ := List.forall_mem_cons.1 hsome
    have hkept := chrKept_of_stream (fun h => absurd h ht) hkeep
    have hkeep' : endsWithNul ts = false ∨ headerWidth w b ≤ tail.length := by
      cases ts with
      | nil => exact .inl rfl
      | cons x ts => simpa using hkeep
    obtain ⟨-, -, -, -, -, -, hrest⟩ := id hfits
    have hle := length_le_length_replayFrom (replay out t.off t.len t.chr) ts
    rw [replayFrom_cons] at hcap
    rw [streamBits_cons, List.append_assoc, List.length_cons, ← Nat.add_assoc, decodeTriples_tripleBits hfits.head hkept,
      if_neg (by omega), ih hrest hsome' hkeep' hcap, replayFrom_cons]
    congr 1
    omega

theorem endOfBits_ok {k : Nat} {r : List Bool} {out res : List Nat} (h : endOfBits k r out = .ok res) : res = out := by
  unfold endOfBits at h
  split at h <;> cases h
  rfl

theorem decodeTriples_ok_length {w b cap fuel k : Nat} {r : List Bool} {out res : List Nat}
    (hout : 4 * out.length ≤ cap) (h : decodeTriples w b cap fuel k r out = .ok res) : 4 * res.length ≤ cap := by
  induction fuel generalizing k r out with
  | zero => rwa [endOfBits_ok h]
  | succ fuel ih =>
    rw [decodeTriples] at h
    split at h
    · rwa [endOfBits_ok h]
    · split at h
      split at h
      case h_1 => cases h
      case h_2 =>
        split at h
        · cases h
        · exact ih (by rw [length_replay]; omega) h

theorem length_padding (w : List Bool) : (padding w).length < 8 := by
  have := (readerOn_finish w).2.1
  simp [padding]
  omega

/-- LZ_DECOMPRESS_BITS on the bitstream of triples whose first `k` fit and whose triple `k` does not (45_lz77_codec.md R271). -/
theorem lzDecompressBits_overflow {w b cap k : Nat} {bytes : List Byte} {ts : List Triple}
    (hfits : StreamFits w b [] ts) (hnul : endsWithNul ts = false)
    (hbytes : readerOn bytes = streamBits w b ts ++ padding (streamBits w b ts))
    (hk : 4 * (replayAll (ts.take k)).length ≤ cap) (hk1 : cap < 4 * (replayAll (ts.take (k + 1))).length) :
    lzDecompressBits w b cap bytes = .error { err := .outputOverflow, pos := k } := by
  obtain ⟨t, hlt, hts, hover⟩ := exists_triple_of_replayAll_lt hk hk1
  have hlen : (ts.take k).length = k := by simp; omega
  have hpad := length_padding (streamBits w b ts)
  have havail := length_le_length_streamBits w b ts
  generalize padding (streamBits w b ts) = pad at hbytes hpad
  generalize ts.take k = as at *
  generalize ts.drop (k + 1) = bs at *
  obtain ⟨has, hsome, ht⟩ := StreamFits.of_append (hts ▸ hfits)
  have hkept : ChrKept w b t (streamBits w b bs ++ pad) := by
    refine chrKept_of_stream (fun hnone => ?_) (.inl ?_)
    · obtain ⟨-, -, -, -, -, hlast, -⟩ := ht
      simpa [hlast hnone] using hpad
    · rwa [hts, endsWithNul_append_cons] at hnul
  have hheader := headerWidth_le_length_tripleBits w b t
  have htail : headerWidth w b ≤ (tripleBits w b t ++ (streamBits w b bs ++ pad)).length := by
    simp
    omega
  obtain ⟨fuel, hfuel⟩ : ∃ fuel, avail (readerOn bytes) = fuel + 1 + as.length :=
    ⟨avail (readerOn bytes) - as.length - 1, by rw [hbytes, avail_append]; omega⟩
  rw [lzDecompressBits, hfuel, hbytes, hts, streamBits_append, streamBits_cons, List.append_assoc, List.append_assoc,
    decodeTriples_streamBits has hsome (.inr htail) hk, decodeTriples_tripleBits ht.head hkept]
  rw [← replayAll_eq_replayFrom, if_pos hover, Nat.zero_add, hlen]

end Sys2Proof.Machine
end

section
/-! PROOFS. The text form of LZ77 triples (30_encoding.md R120 to R123): the parser reads every token of the grammar, and
LZ_DECOMPRESS_TEXT replays the tokens (45_lz77_codec.md R280 to R282). -/

namespace Sys2Proof.Machine

/-! ### Numbers -/

/-- The parser's value of a run of digits is the number it denotes (30_encoding.md R121). -/
theorem digitsValue_eq_decValue (ds : List Nat) : digitsValue ds = decValue ds := by
  induction ds using List.reverseRecOn with
  | nil => rfl
  | append_singleton ds d ih =>
    have hval : digitsValue (ds ++ [d]) = 10 * digitsValue ds + (d - 0x30) := by simp [digitsValue]
    have hdec : decValue (ds ++ [d]) = (d - 0x30) + 10 * decValue ds := by simp [decValue, Nat.ofDigits_cons]
    rw [hval, hdec, ih, Nat.add_comm]

theorem isDigit_eq_true_iff (d : Nat) : isDigit d = true ↔ 0x30 ≤ d ∧ d ≤ 0x39 := by simp [isDigit]

/-- The parser reads every `num` that a comma follows, leading zeros included (30_encoding.md R122). -/
theorem parseNum_isNum {ds : List Nat} {v : Nat} (h : IsNum ds v) (rest : List Nat) :
    parseNum (ds ++ 0x2C :: rest) = some (v, 0x2C :: rest) := by
  obtain ⟨⟨hne, hdigits⟩, hval, hle⟩ := h
  have hall : ∀ d ∈ ds, isDigit d = true := fun d hd => (isDigit_eq_true_iff d).2 (hdigits d hd)
  have htake : (ds ++ 0x2C :: rest).takeWhile isDigit = ds := by
    rw [List.takeWhile_append_of_pos hall]
    simp [isDigit]
  have hdrop : (ds ++ 0x2C :: rest).dropWhile isDigit = 0x2C :: rest := by
    rw [List.dropWhile_append_of_pos hall]
    simp [isDigit]
  rw [parseNum, htake, hdrop, if_neg hne, digitsValue_eq_decValue, hval, if_neg (by omega)]

/-! ### Tokens -/

/-- The parser reads a tail, with or without a character, unless a parenthesis follows one without (30_encoding.md R122). -/
theorem parseTail_chr {c : Option Nat} {rest : List Nat} (h : c = none → rest.head? ≠ some 0x29) :
    parseTail (c.toList ++ 0x29 :: rest) = some (c, rest) := by
  cases c with
  | some c => simp [parseTail]
  | none =>
    cases rest with
    | nil => rfl
    | cons x rest =>
      have hx : x ≠ 0x29 := by simpa using h rfl
      simp [parseTail, hx]

/-- The parser reads every token of the grammar (30_encoding.md R122). -/
theorem parseToken_isToken {tok rest : List Nat} {t : Triple} (htok : IsToken tok t)
    (hrest : t.chr = none → rest.head? ≠ some 0x29) :
    parseToken (tok ++ rest) = some (t.off, t.len, t.chr, rest) := by
  obtain ⟨o, l, ho, hl, rfl⟩ := htok
  simp only [parseToken, List.append_assoc, List.cons_append, List.nil_append, expect, if_true, parseNum_isNum ho,
    parseNum_isNum hl, parseTail_chr hrest]

/-- The triple can be replayed after an output of `n` symbols (45_lz77_codec.md R281). -/
structure TokenFits (n : Nat) (t : Triple) : Prop where
  zero : t.off = 0 ↔ t.len = 0
  reach : t.off ≤ n

theorem TokensFit.head {out : List Nat} {t : Triple} {ts : List Triple} (h : TokensFit out (t :: ts)) :
    TokenFits out.length t := by
  obtain ⟨hzero, -, -, hreach, -⟩ := h
  exact ⟨hzero, hreach⟩

theorem TokensFit.tail {out : List Nat} {t : Triple} {ts : List Triple} (h : TokensFit out (t :: ts)) :
    TokensFit (replay out t.off t.len t.chr) ts := by
  obtain ⟨-, -, -, -, hrest⟩ := h
  exact hrest

theorem TokensFit.of_append {out : List Nat} {as bs : List Triple} (h : TokensFit out (as ++ bs)) :
    TokensFit out as ∧ TokensFit (replayFrom out as) bs := by
  induction as generalizing out with
  | nil => exact ⟨trivial, h⟩
  | cons a as ih =>
    obtain ⟨hzero, hoff, hlen, hreach, hrest⟩ := h
    obtain ⟨has, hbs⟩ := ih hrest
    exact ⟨⟨hzero, hoff, hlen, hreach, has⟩, hbs⟩

/-- A turn of the token loop on a token it can replay (45_lz77_codec.md R280, R281). -/
theorem decodeTokens_isToken {cap fuel k : Nat} {tok rest out : List Nat} {t : Triple} (htok : IsToken tok t)
    (hrest : t.chr = none → rest.head? ≠ some 0x29) (ht : TokenFits out.length t) :
    decodeTokens cap (fuel + 1) k (tok ++ rest) out =
      if cap < 4 * (replay out t.off t.len t.chr).length then .error { err := .outputOverflow, pos := k }
      else match rest with
        | [] => .ok (replay out t.off t.len t.chr)
        | x :: rest' =>
          if x ≠ 0x20 then .error { err := .malformedContainer, pos := k + 1 }
          else decodeTokens cap fuel (k + 1) rest' (replay out t.off t.len t.chr) := by
  rw [decodeTokens, parseToken_isToken htok hrest]
  simp only
  rw [if_neg (Nat.not_lt.2 ht.reach), if_neg (not_not_intro ht.zero), length_replay]
  cases rest <;> rfl

/-! ### The tokens of a text -/

theorem TextBefore.of_cons {x : List Nat} {t : Triple} {ts : List Triple} (h : TextBefore x (t :: ts)) :
    ∃ tok before, IsToken tok t ∧ TextBefore before ts ∧ x = tok ++ 0x20 :: before := by
  obtain ⟨toks, htoks, rfl⟩ := h
  obtain ⟨tok, toks', htok, htoks', rfl⟩ := List.forall₂_cons_right_iff.1 htoks
  exact ⟨tok, _, htok, ⟨toks', htoks', rfl⟩, by simp⟩

theorem TextBefore.cons {tok before : List Nat} {t : Triple} {ts : List Triple} (htok : IsToken tok t)
    (h : TextBefore before ts) : TextBefore (tok ++ 0x20 :: before) (t :: ts) := by
  obtain ⟨toks, htoks, rfl⟩ := h
  exact ⟨tok :: toks, .cons htok htoks, by simp⟩

theorem length_le_of_textBefore {x : List Nat} {ts : List Triple} (h : TextBefore x ts) : ts.length ≤ x.length := by
  induction ts generalizing x with
  | nil => exact Nat.zero_le _
  | cons t ts ih =>
    obtain ⟨tok, before, -, hbefore, rfl⟩ := h.of_cons
    have := ih hbefore
    simp
    omega

/-- The decoder on the tokens that stand before a place in the text, and what comes after them. -/
theorem decodeTokens_textBefore {cap fuel k : Nat} {before rest out : List Nat} {ts : List Triple}
    (hbefore : TextBefore before ts) (hfits : TokensFit out ts) (hcap : 4 * (replayFrom out ts).length ≤ cap) :
    decodeTokens cap (fuel + ts.length) k (before ++ rest) out =
      decodeTokens cap fuel (k + ts.length) rest (replayFrom out ts) := by
  induction ts generalizing k before out with
  | nil =>
    obtain ⟨toks, htoks, rfl⟩ := hbefore
    cases htoks
    rfl
  | cons t ts ih =>
    obtain ⟨tok, before', htok, hbefore', rfl⟩ := hbefore.of_cons
    have hle := length_le_length_replayFrom (replay out t.off t.len t.chr) ts
    rw [replayFrom_cons] at hcap
    rw [List.append_assoc, List.cons_append, List.length_cons, ← Nat.add_assoc,
      decodeTokens_isToken htok (by simp) hfits.head, if_neg (by omega)]
    simp only [ne_eq, not_true_eq_false, if_false]
    rw [ih hbefore' hfits.tail hcap, replayFrom_cons]
    congr 1
    omega

/-- In a text of the grammar, a triple's token stands after those of the triples before it, and no parenthesis follows it. -/
theorem TextOf.split {x : List Nat} {as : List Triple} {t : Triple} {bs : List Triple} (h : TextOf x (as ++ t :: bs)) :
    ∃ before tok rest, TextBefore before as ∧ IsToken tok t ∧ x = before ++ (tok ++ rest) ∧ rest.head? ≠ some 0x29 := by
  obtain ⟨toks, htoks, rfl⟩ := h
  induction as generalizing toks with
  | nil =>
    obtain ⟨tok, toks', htok, -, rfl⟩ := List.forall₂_cons_right_iff.1 htoks
    refine ⟨[], tok, _, ⟨[], .nil, rfl⟩, htok, intercalate_space_cons tok toks', ?_⟩
    cases toks' <;> simp
  | cons a as ih =>
    obtain ⟨tok₀, toks', htok₀, htoks', rfl⟩ := List.forall₂_cons_right_iff.1 htoks
    obtain ⟨before, tok, rest, hbefore, htok, hx, hrest⟩ := ih toks' htoks'
    have hne : toks' ≠ [] := by
      rintro rfl
      simp at htoks'
    refine ⟨tok₀ ++ 0x20 :: before, tok, rest, hbefore.cons htok₀, htok, ?_, hrest⟩
    rw [List.intercalate_cons_of_ne_nil hne, hx]
    simp

theorem decodeTokens_ok_length {cap fuel k : Nat} {s out res : List Nat} (h : decodeTokens cap fuel k s out = .ok res) :
    4 * res.length ≤ cap := by
  induction fuel generalizing k s out with
  | zero => cases h
  | succ fuel ih =>
    rw [decodeTokens] at h
    split at h
    · cases h
    · split_ifs at h with _ _ hcap
      split at h
      · cases h
        rw [length_replay]
        omega
      · split_ifs at h
        exact ih h

theorem lzDecompressText_ok_length {cap : Nat} {s res : List Nat} (h : lzDecompressText cap s = .ok res) :
    4 * res.length ≤ cap := by
  unfold lzDecompressText at h
  split at h
  · cases h; simp
  · exact decodeTokens_ok_length h

/-- LZ_DECOMPRESS_TEXT on a text of triples whose first `k` fit and whose triple `k` does not (45_lz77_codec.md R281). -/
theorem lzDecompressText_overflow {cap k : Nat} {x : List Nat} {ts : List Triple} (hfits : TokensFit [] ts)
    (hx : TextOf x ts) (hk : 4 * (replayAll (ts.take k)).length ≤ cap)
    (hk1 : cap < 4 * (replayAll (ts.take (k + 1))).length) :
    lzDecompressText cap x = .error { err := .outputOverflow, pos := k } := by
  obtain ⟨t, hlt, hts, hover⟩ := exists_triple_of_replayAll_lt hk hk1
  have hlen : (ts.take k).length = k := by simp; omega
  obtain ⟨has, ht⟩ := TokensFit.of_append (hts ▸ hfits)
  obtain ⟨before, tok, rest, hbefore, htok, rfl, hrest⟩ := TextOf.split (hts ▸ hx)
  have htoklen : 0 < tok.length := by
    obtain ⟨o, l, -, -, rfl⟩ := htok
    simp
  have hble := length_le_of_textBefore hbefore
  have hxlen : (before ++ (tok ++ rest)).length = before.length + (tok.length + rest.length) := by simp
  obtain ⟨fuel, hfuel⟩ : ∃ fuel, (before ++ (tok ++ rest)).length = fuel + 1 + (ts.take k).length :=
    ⟨(before ++ (tok ++ rest)).length - (ts.take k).length - 1, by omega⟩
  have hne : before ++ (tok ++ rest) ≠ [] := List.ne_nil_of_length_pos (by omega)
  rw [lzDecompressText, if_neg hne, hfuel, decodeTokens_textBefore hbefore has hk,
    decodeTokens_isToken htok (fun _ => hrest) ht.head, ← replayAll_eq_replayFrom, if_pos hover, Nat.zero_add, hlen]

end Sys2Proof.Machine
end

section
/-! PROOFS. The capacities of the destinations (20_memory.md R65, R67, R69): a result fits them, no byte outside them is written, and
an output that exceeds one ends its command with OutputOverflow. -/

namespace Sys2Proof.Machine

/-! ### The used destinations -/

theorem inRanges_dstRanges_iff (i : Instr) (o : Operands) (a : Nat) :
    inRanges (dstRanges (useOf i) o) a = true ↔
      (i ∈ dstCommands ∧ InBytes a o.dstAddr.toNat o.dstCap.toNat) ∨
        (i ∈ dst2Commands ∧ InBytes a o.dst2Addr.toNat o.dst2Cap.toNat) := by
  cases i <;>
    simp [inRanges, dstRanges, useOf, dstCommands, dst2Commands, InBytes, Range.has, dstRange, dst2Range]

theorem dstRange_mem_dstRanges {i : Instr} (h : i ∈ dstCommands) (o : Operands) : dstRange o ∈ dstRanges (useOf i) o := by
  cases i <;> simp [dstCommands, dstRanges, useOf] at h ⊢

theorem dst2Range_mem_dstRanges {i : Instr} (h : i ∈ dst2Commands) (o : Operands) :
    dst2Range o ∈ dstRanges (useOf i) o := by
  cases i <;> simp [dst2Commands, dstRanges, useOf] at h ⊢

/-- Past the checks, every used destination range is valid (60_exceptions.md R304). -/
theorem valid_of_commonChecks_eq_none {u : Use} {c : Config} {o : Operands} (h : commonChecks u c o = none) :
    ∀ r ∈ dstRanges u o, r.valid c.memBytes = true := by
  unfold commonChecks at h
  split_ifs at h with _ _ hvalid
  simp only [Bool.not_eq_true', Bool.not_eq_false, List.all_eq_true] at hvalid
  exact fun r hr => hvalid r (List.mem_cons_of_mem _ hr)

/-! ### A result fits its destinations -/

/-- The bytes of a result fit the capacity of a destination, and an unused destination gets none. -/
structure FitsDestinations (i : Instr) (o : Operands) (r : Results) : Prop where
  dst : r.dst.length ≤ o.dstCap.toNat
  dst2 : r.dst2.length ≤ o.dst2Cap.toNat
  used : r.dst ≠ [] → i ∈ dstCommands
  used2 : r.dst2 ≠ [] → i ∈ dst2Commands

/-- A result for a destination 1 that the command uses. -/
theorem FitsDestinations.of_dst {i : Instr} {o : Operands} {bytes : List Byte} {orig comp : Nat} (hi : i ∈ dstCommands)
    (h : bytes.length ≤ o.dstCap.toNat) : FitsDestinations i o { dst := bytes, dst2 := [], orig := orig, comp := comp } :=
  ⟨h, Nat.zero_le _, fun _ => hi, fun h => absurd rfl h⟩

theorem length_pairsBytes (L : List (Nat × Nat)) : (pairsBytes L).length = 8 * L.length := by
  simp [pairsBytes]; omega

theorem length_codesBytes (T : List CodeEntry) : (codesBytes T).length = 12 * T.length := by
  simp [codesBytes]; omega

theorem lzCompressBody_fits {i : Instr} {e : Emit} {o : Operands} {m : Memory} {r : Results}
    (h : lzCompressBody e o m = .ok r) (hbits : e.bits = true → i ∈ dstCommands)
    (htext : e.text = true → i ∈ dst2Commands) : FitsDestinations i o r := by
  unfold lzCompressBody at h
  split at h <;> cases h
  case h_2 bytes tx hlz =>
    obtain ⟨hbytes, htx, hcap, hcap2⟩ := lzCompress_ok hlz
    refine ⟨hcap, by simpa using hcap2, fun hne => hbits ?_, fun hne => htext ?_⟩
    · by_contra he
      exact hne (by rw [hbytes, if_neg he]; rfl)
    · by_contra he
      exact hne (by rw [htx, if_neg he]; rfl)

/-- The result of every command fits its destinations. -/
theorem bodyOf_fits {i : Instr} {o : Operands} {m : Memory} {r : Results} (h : bodyOf i o m = .ok r) :
    FitsDestinations i o r := by
  cases i
  case hufCompress =>
    simp only [bodyOf, hufCompressBody] at h
    split at h <;> cases h
    case h_2 hout => exact .of_dst (by decide) (hufCompress_ok_length hout)
  case hufDecompress =>
    simp only [bodyOf, hufDecompressBody] at h
    split at h <;> cases h
    case h_2 hout => exact .of_dst (by decide) (by simpa using hufDecompress_ok_length hout)
  case lzCompressBits => exact lzCompressBody_fits h (fun _ => by decide) (fun h => by cases h)
  case lzCompressText => exact lzCompressBody_fits h (fun h => by cases h) (fun _ => by decide)
  case lzCompressBitsText => exact lzCompressBody_fits h (fun _ => by decide) (fun _ => by decide)
  case lzDecompressBits =>
    simp only [bodyOf, lzDecompressBitsBody] at h
    split at h <;> cases h
    case h_2 hout => exact .of_dst (by decide) (by simpa using decodeTriples_ok_length (by simp) hout)
  case lzDecompressText =>
    simp only [bodyOf, lzDecompressTextBody] at h
    split at h <;> cases h
    case h_2 hout => exact .of_dst (by decide) (by simpa using lzDecompressText_ok_length hout)
  case hufLengths =>
    simp only [bodyOf, hufLengthsBody] at h
    split at h <;> cases h
    case h_2 hout => exact .of_dst (by decide) (by rw [length_pairsBytes]; exact lengthTable_ok_length hout)
  case hufCanon =>
    simp only [bodyOf, hufCanonBody] at h
    split at h <;> cases h
    case h_2 hout => exact .of_dst (by decide) (by rw [length_codesBytes]; exact codeTable_ok_length hout)

/-! ### What the end of a command leaves unchanged -/

/-- A byte outside the used capacities reads as before a command's end. -/
theorem EndedMemory.read_outside {i : Instr} {o : Operands} {m m' : Memory} (h : EndedMemory i o m m') {a : Nat}
    (ha : inRanges (dstRanges (useOf i) o) a = false) : m'.read a = m.read a := by
  cases h with
  | spoiled n => exact read_spoilRanges n m _ a ha
  | written r hbody =>
    obtain ⟨hlen, hlen2, hused, hused2⟩ := bodyOf_fits hbody
    rw [← Bool.not_eq_true, inRanges_dstRanges_iff, not_or] at ha
    obtain ⟨ha1, ha2⟩ := ha
    have hout : ¬(o.dstAddr.toNat ≤ a ∧ a < o.dstAddr.toNat + r.dst.length) := fun hin =>
      ha1 ⟨hused (List.ne_nil_of_length_pos (by omega)), hin.1, by omega⟩
    have hout2 : ¬(o.dst2Addr.toNat ≤ a ∧ a < o.dst2Addr.toNat + r.dst2.length) := fun hin =>
      ha2 ⟨hused2 (List.ne_nil_of_length_pos (by omega)), hin.1, by omega⟩
    rw [Memory.read_writeBytes, if_neg hout2, Memory.read_writeBytes, if_neg hout]

/-- Bytes that fit a valid range end inside the memory. -/
theorem Range.write_inside_of_valid {r : Range} {n : Nat} (h : r.valid n = true) {bs : List Byte}
    (hlen : bs.length ≤ r.len) : bs = [] ∨ r.addr + bs.length ≤ n := by
  simp only [Range.valid, Bool.or_eq_true, beq_iff_eq, decide_eq_true_eq] at h
  rcases h with h | h
  · exact .inl (List.eq_nil_of_length_eq_zero (by omega))
  · exact .inr (by omega)

/-- The end of a command past its checks lists nothing at or beyond MEM_BYTES (20_memory.md R60, R61). -/
theorem EndedMemory.below {i : Instr} {o : Operands} {c : Config} {m m' : Memory} (h : EndedMemory i o m m')
    (hc : commonChecks (useOf i) c o = none) (hm : m.below c.memBytes = true) : m'.below c.memBytes = true := by
  have hvalid := valid_of_commonChecks_eq_none hc
  cases h with
  | spoiled n => exact below_spoilRanges _ _ _ _ hm hvalid
  | written r hbody =>
    obtain ⟨hlen, hlen2, hused, hused2⟩ := bodyOf_fits hbody
    have hdst : r.dst = [] ∨ o.dstAddr.toNat + r.dst.length ≤ c.memBytes := by
      by_cases hne : r.dst = []
      · exact .inl hne
      · exact (Range.write_inside_of_valid (hvalid _ (dstRange_mem_dstRanges (hused hne) o)) hlen :)
    have hdst2 : r.dst2 = [] ∨ o.dst2Addr.toNat + r.dst2.length ≤ c.memBytes := by
      by_cases hne : r.dst2 = []
      · exact .inl hne
      · exact (Range.write_inside_of_valid (hvalid _ (dst2Range_mem_dstRanges (hused2 hne) o)) hlen2 :)
    exact Memory.below_writeBytes _ _ _ _ (Memory.below_writeBytes _ _ _ _ hm hdst) hdst2

/-- The lengths a command reports are at most the capacities. -/
theorem exec_next_lengths_le {i : Instr} {s t : State} {l : Latched} (hl : s.running = some l)
    (h : exec i s = .next t) :
    t.dstLen.toNat ≤ l.operands.dstCap.toNat ∧ t.dst2Len.toNat ≤ l.operands.dst2Cap.toNat := by
  rcases exec_completes i hl with ⟨e, m, -, hx⟩ | ⟨r, hbody, hx⟩ <;> rw [hx] at h <;> cases h
  · simp
  · obtain ⟨hlen, hlen2, -, -⟩ := bodyOf_fits hbody
    simp only [completeOk_dstLen, completeOk_dst2Len, BitVec.toNat_ofNat]
    exact ⟨(Nat.mod_le _ _).trans hlen, (Nat.mod_le _ _).trans hlen2⟩

/-! ### The outcome of a failed processing -/

/-- Past its checks, a command whose processing raises an error completes with it. -/
theorem exec_of_body_error {i : Instr} {s : State} {l : Latched} {e : Err} {pos : Nat} (hready : Ready i s l)
    (hbody : bodyOf i l.operands s.mem = .error { err := e, pos := pos }) :
    ∃ u, exec i s = .next u ∧ FailedWith e pos u :=
  ⟨_, by rw [exec_eq_runCommand]; exact runCommand_of_error hready.1 hready.2 hbody, failedWith_completeErr _ _⟩

/-- LZ_COMPRESS ends with OutputOverflow where one of its forms exceeds its capacity. -/
theorem lzCompressBody_overflow {e : Emit} {o : Operands} {m : Memory} {ts : List Triple}
    (hts : ts = triples (m.readWords o.srcAddr.toNat (o.srcLen.toNat / 4)) o.windowSize.toNat o.bufferSize.toNat)
    (hnarrow : e.bits = true → Narrow ts)
    (hover : (e.bits = true ∧
        o.dstCap.toNat < nbytes (streamBits o.windowSize.toNat o.bufferSize.toNat ts)) ∨
      (e.text = true ∧ o.dst2Cap.toNat < 4 * (tripleText ts).length)) :
    lzCompressBody e o m = .error (raise0 .outputOverflow) := by
  unfold lzCompressBody
  split
  case h_1 x hlz => rw [lzCompress_error (hts ▸ hnarrow) hlz]
  case h_2 bytes tx hlz =>
    obtain ⟨hbytes, htx, hcap, hcap2⟩ := lzCompress_ok hlz
    rw [← hts] at hbytes htx
    rcases hover with ⟨he, hlt⟩ | ⟨he, hlt⟩
    · rw [hbytes, if_pos he, length_finish] at hcap
      omega
    · rw [htx, if_pos he] at hcap2
      omega

end Sys2Proof.Machine

namespace Sys2Proof
open Machine

/-- Settles O56: each write of the host and of a command stays inside the memory, and no step writes a parameter. -/
theorem stepKeepsInsideMemory : Obligations.StepKeepsInsideMemory := by
  intro s t h
  refine ⟨step_next_config h, fun hs => ?_⟩
  unfold State.insideMemory at hs ⊢
  rw [step_next_config h]
  cases step_memoryStep h with
  | unchanged hmem => rwa [hmem]
  | hostWrote a bytes hmem hin _ =>
    rw [hmem]
    refine Memory.below_writeBytes _ _ _ _ hs ?_
    simpa [insideMemory] using hin
  | ended i l hready _ hmem => exact hmem.below hready.2 hs

/-- Settles O16: a result fits its destinations, and the end of a command writes nowhere else. -/
theorem outputStaysInCapacity : Obligations.OutputStaysInCapacity := by
  intro i s t l hl h
  obtain ⟨hlen, hlen2⟩ := exec_next_lengths_le hl h
  refine ⟨hlen, hlen2, fun a ha ha2 => ?_⟩
  rcases exec_next_mem h with hmem | ⟨l', ⟨hl', -⟩, hmem⟩
  · rw [hmem]
  · obtain rfl : l' = l := by simpa [hl'] using hl
    refine hmem.read_outside ?_
    rw [← Bool.not_eq_true, inRanges_dstRanges_iff]
    tauto

/-- Settles O31: each command's processing stops with OutputOverflow where its output first exceeds a capacity. -/
theorem outputOverflowErrors : Obligations.OutputOverflowErrors := by
  refine ⟨?_, ?_, ?_, ?_, ?_, ?_⟩
  · rintro s l t E hready ht rfl hne hsyms hcount hlens hbits hcap
    have hkeys := distinctKeys_treeLengths (distinctKeys_frequencies t)
    have hlens' : ∀ p ∈ treeLengths (frequencies t), p.2 ≤ 31 := fun p hp => hlens p ((canonSort_perm _).mem_iff.2 hp)
    rw [canon_canonSort, length_textBits_canon hkeys] at hbits
    refine exec_of_body_error hready ?_
    simp only [bodyOf, hufCompressBody, ← ht]
    rw [hufCompress_of_le _ hne hsyms,
      encodeContainer_of_limits _ (length_treeLengths _).symm hkeys (by simpa using hcount) hlens' hbits, if_pos hcap]
    rfl
  · intro s l entries out extra hready hne hlen hkeys hentries hfit hmem hbits hcap hbytes
    refine exec_of_body_error hready ?_
    simp only [bodyOf, hufDecompressBody]
    rw [hufDecompress_containerFields _ hne hlen hkeys hentries hfit hmem hbits hbytes, if_pos hcap]
    rfl
  · intro i size s l F hi hready hF hne hkeys hgood hcanon hcap
    simp only [List.mem_cons, List.not_mem_nil, or_false, Prod.mk.injEq] at hi
    refine exec_of_body_error hready ?_
    rcases hi with ⟨rfl, rfl⟩ | ⟨rfl, rfl⟩
    · simp only [bodyOf, hufLengthsBody, ← hF]
      rw [lengthTable_of_good _ hne hkeys hgood, if_pos hcap]
      rfl
    · obtain ⟨hlens, hkraft⟩ := hcanon rfl
      simp only [bodyOf, hufCanonBody, ← hF]
      rw [codeTable_of_good _ hne hkeys (fun p hp => ⟨(hgood p hp).1, (hgood p hp).2, hlens p hp⟩)
        (codesFit_of_kraftSum_le_one hkraft), if_pos hcap]
      rfl
  · intro i e s l ts hi hready hts hnarrow hover
    refine exec_of_body_error hready ((?_ : bodyOf i l.operands s.mem = lzCompressBody e l.operands s.mem).trans
      (lzCompressBody_overflow hts hnarrow hover))
    simp only [List.mem_cons, List.not_mem_nil, or_false, Prod.mk.injEq] at hi
    rcases hi with ⟨rfl, rfl⟩ | ⟨rfl, rfl⟩ | ⟨rfl, rfl⟩ <;> rfl
  · intro s l ts k hready hfits hnul hbytes hk hk1
    refine exec_of_body_error hready ?_
    simp only [bodyOf, lzDecompressBitsBody]
    rw [lzDecompressBits_overflow hfits hnul hbytes hk hk1]
  · intro s l ts k hready hfits hx hk hk1
    refine exec_of_body_error hready ?_
    simp only [bodyOf, lzDecompressTextBody]
    rw [lzDecompressText_overflow hfits hx hk hk1]

end Sys2Proof
end

section
/-! PROOFS. Command words and commands (30_encoding.md R90 to R94, R131): a word decodes to a command exactly when it is the
command's word, and a GO word that is no command's word completes with IllegalCommand. -/

namespace Sys2Proof.Machine

/-! ### The fields of a command word -/

/-- The fields of the word that starts a command (30_encoding.md R91, R92, R131). -/
def commandFields (i : Instr) : CommandWord := { go := true, reserved := 0#21, flags := flagsOf i, opcode := opcodeOf i }

theorem encode_eq_joinWord (i : Instr) : encode i = joinWord (commandFields i) := rfl

theorem ofBool_getLsbD_31 (w : Word) : BitVec.ofBool (w.getLsbD 31) = w.extractLsb' 31 1 := by
  refine BitVec.eq_of_getLsbD_eq fun k hk => ?_
  obtain rfl : k = 0 := by omega
  simp

theorem joinWord_splitWord (w : Word) : joinWord (splitWord w) = w := by
  simp only [joinWord, splitWord, ofBool_getLsbD_31]
  rw [BitVec.extractLsb'_append_extractLsb'_eq_extractLsb' (by decide),
    BitVec.extractLsb'_append_extractLsb'_eq_extractLsb' (by decide),
    BitVec.extractLsb'_append_extractLsb'_eq_extractLsb' (by decide)]
  exact BitVec.extractLsb'_eq_self

theorem eq_commandFields {c : CommandWord} {i : Instr} (hgo : c.go = true) (hreserved : c.reserved = 0#21)
    (hflags : c.flags = flagsOf i) (hopcode : c.opcode = opcodeOf i) : c = commandFields i := by
  cases c
  simp only at hgo hreserved hflags hopcode
  rw [hgo, hreserved, hflags, hopcode, commandFields]

/-- The decoder reads a command from exactly its fields (30_encoding.md R90 to R94): each accepting branch has tested all four. -/
theorem decodeFields_eq_ok_iff (c : CommandWord) (i : Instr) : decodeFields c = .ok i ↔ c = commandFields i := by
  constructor
  · intro h
    unfold decodeFields at h
    split_ifs at h with hgo hreserved <;> cases h <;>
      exact eq_commandFields (by simpa using hgo) (not_not.1 hreserved) ‹_› ‹_›
  · rintro rfl
    cases i <;> rfl

theorem decodeWord_eq_ok_iff (w : Word) (i : Instr) : decodeWord w = .ok i ↔ w = encode i := by
  rw [decodeWord, decodeFields_eq_ok_iff]
  constructor
  · intro h
    rw [encode_eq_joinWord, ← h, joinWord_splitWord]
  · rintro rfl
    cases i <;> rfl

theorem decode_wordBytes (w : Word) : decode (wordBytes w) = decodeWord w := by
  rw [wordBytes, decode, bytesWord_wordBytes]

theorem decodeTableWord_eq_some_iff (w : Word) (i : Instr) :
    decodeTableWord 32 w.toNat = some i ↔ decodeWord w = .ok i := by
  have hword : BitVec.ofNat 32 (w.toNat % 2 ^ 32) = w := by
    rw [Nat.mod_eq_of_lt w.isLt, BitVec.ofNat_toNat, BitVec.setWidth_eq]
  rw [decodeTableWord, hword, decode_wordBytes]
  cases decodeWord w <;> simp

/-! ### Legal and illegal words -/

/-- The fields of some command are those with a known opcode, legal FLAGS and zero reserved bits (30_encoding.md R91 to
R94). -/
theorem exists_eq_commandFields_iff (c : CommandWord) :
    (∃ i, c = commandFields i) ↔ c.go = true ∧ c.reserved = 0#21 ∧ 1 ≤ c.opcode.toNat ∧ c.opcode.toNat ≤ 7 ∧
      (c.flags ≠ 0#2 ↔ c.opcode = 3#8) := by
  constructor
  · rintro ⟨i, rfl⟩
    cases i <;> decide
  · rintro ⟨hgo, hreserved, hlow, hhigh, hflags⟩
    by_cases hlz : c.opcode = 3#8
    · have hnonzero := hflags.2 hlz
      have hcases : c.flags = 1#2 ∨ c.flags = 2#2 ∨ c.flags = 3#2 := by bv_omega
      rcases hcases with hf | hf | hf
      · exact ⟨.lzCompressBits, eq_commandFields hgo hreserved hf hlz⟩
      · exact ⟨.lzCompressText, eq_commandFields hgo hreserved hf hlz⟩
      · exact ⟨.lzCompressBitsText, eq_commandFields hgo hreserved hf hlz⟩
    · have hf : c.flags = 0#2 := by_contra fun hne => hlz (hflags.1 hne)
      have hcases : c.opcode = 1#8 ∨ c.opcode = 2#8 ∨ c.opcode = 4#8 ∨ c.opcode = 5#8 ∨ c.opcode = 6#8 ∨
          c.opcode = 7#8 := by bv_omega
      rcases hcases with hop | hop | hop | hop | hop | hop
      · exact ⟨.hufCompress, eq_commandFields hgo hreserved hf hop⟩
      · exact ⟨.hufDecompress, eq_commandFields hgo hreserved hf hop⟩
      · exact ⟨.lzDecompressBits, eq_commandFields hgo hreserved hf hop⟩
      · exact ⟨.lzDecompressText, eq_commandFields hgo hreserved hf hop⟩
      · exact ⟨.hufLengths, eq_commandFields hgo hreserved hf hop⟩
      · exact ⟨.hufCanon, eq_commandFields hgo hreserved hf hop⟩

/-- A GO word is the word of some command exactly when its fields are legal (30_encoding.md R91 to R94). -/
theorem exists_eq_encode_iff {w : Word} (hgo : w.getLsbD 31 = true) :
    (∃ i, w = encode i) ↔
      w.extractLsb' 10 21 = 0#21 ∧ 1 ≤ (w.extractLsb' 0 8).toNat ∧ (w.extractLsb' 0 8).toNat ≤ 7 ∧
        (w.extractLsb' 8 2 ≠ 0#2 ↔ w.extractLsb' 0 8 = 3#8) := by
  have hfields := exists_eq_commandFields_iff (splitWord w)
  simp only [← decodeFields_eq_ok_iff, ← decodeWord_eq_ok_iff] at hfields ⊢
  exact hfields.trans (and_iff_right hgo)

/-- A word that is no command's word is rejected by the decoder. -/
theorem decodeWord_error_of_not_encode {w : Word} (h : ¬∃ i, w = encode i) : ∃ e, decodeWord w = .error e := by
  cases hd : decodeWord w with
  | error e => exact ⟨e, rfl⟩
  | ok i => exact absurd ⟨i, (decodeWord_eq_ok_iff w i).1 hd⟩ h

/-- What GO acceptance stores of a word decodes as the word (10_state.md R34). -/
theorem decodeCommand_extractLsb' {w : Word} (hgo : w.getLsbD 31 = true) :
    decodeCommand (w.extractLsb' 0 31) = decodeWord w := by
  have hbit : 1#1 = w.extractLsb' 31 1 := by rw [← ofBool_getLsbD_31, hgo]; rfl
  rw [decodeCommand, hbit, BitVec.extractLsb'_append_extractLsb'_eq_extractLsb' (by decide)]
  exact congrArg decodeWord BitVec.extractLsb'_eq_self

/-- The engine's turn on an illegal command word (30_encoding.md R93, R94). -/
theorem engineStep_of_illegal {s : State} {l : Latched} {e : DecodeError} (hl : s.running = some l)
    (hd : decodeCommand l.cmd = .error e) : engineStep s = .next (completeIllegal s) := by
  simp [engineStep, hl, hd]

end Sys2Proof.Machine

namespace Sys2Proof
open Machine

/-- Settles O2: the decoder reads a command from exactly its fields, and a word is its fields joined. -/
theorem decodeMeansEncode : Obligations.DecodeMeansEncode := by
  intro w i
  rw [decode_wordBytes, decodeTableWord_eq_some_iff, and_self, and_self]
  exact decodeWord_eq_ok_iff w i

/-- Settles O3: an illegal word is no command's word, so the decoder rejects it, and the completion reads no memory. -/
theorem illegalWordCompletesIllegalCommand : Obligations.IllegalWordCompletesIllegalCommand := by
  intro s w hs hgo
  rw [writeReg_cmd_go hs hgo, ← exists_eq_encode_iff hgo]
  refine ⟨rfl, fun hillegal => ?_, ?_⟩
  · obtain ⟨e, he⟩ := decodeWord_error_of_not_encode hillegal
    have hreject : decodeCommand (w.extractLsb' 0 31) = .error e := (decodeCommand_extractLsb' hgo).trans he
    exact ⟨_, engineStep_of_illegal (acceptGo_running w s) hreject, failedWith_completeErr _ _, rfl,
      sameOutside_completeErr _ s.mem (acceptGo w s), fun m => engineStep_of_illegal (acceptGo_running w s) hreject⟩
  · rintro ⟨i, rfl⟩
    exact ⟨i, rfl, engineStep_of_decoded (acceptGo_running _ s) (decodeCommand_encode i)⟩

/-- Settles O1: each word is computed from its fields, and GO is a write of the word at the offset of CMD. -/
theorem commandWordsOfTheSpec : Obligations.CommandWordsOfTheSpec := by
  refine ⟨rfl, rfl, rfl, rfl, rfl, rfl, rfl, rfl, rfl, rfl, rfl, fun c i => ?_⟩
  cases i <;> rfl

end Sys2Proof
end

section
/-! PROOFS. Decimal rendering (30_encoding.md R120, R121): `dec` writes Mathlib's digits in base ten, the most significant
first. -/

namespace Sys2Proof.Machine

/-- The symbols of the digits of a number, the most significant first. -/
def digitSymbols (v : Nat) : List Nat := ((Nat.digits 10 v).map fun d => 0x30 + d).reverse

theorem digitSymbols_of_pos {v : Nat} (h : 0 < v) : digitSymbols v = digitSymbols (v / 10) ++ [0x30 + v % 10] := by
  simp [digitSymbols, Nat.digits_def' (by decide : 1 < 10) h]

/-- The fuel `v` is enough, since a division by ten makes a positive number smaller. -/
theorem decDigits_eq_digitSymbols {fuel v : Nat} (hv : 0 < v) (hfuel : v ≤ fuel) : decDigits fuel v = digitSymbols v := by
  induction fuel generalizing v with
  | zero => omega
  | succ fuel ih =>
    rw [decDigits, digitSymbols_of_pos hv]
    split
    case isTrue hlt => rw [Nat.div_eq_of_lt hlt, Nat.mod_eq_of_lt hlt]; rfl
    case isFalse hge => rw [ih (by omega) (by omega)]

theorem dec_of_pos {v : Nat} (hv : 0 < v) : dec v = digitSymbols v := decDigits_eq_digitSymbols hv le_rfl

theorem dec_zero : dec 0 = [0x30] := rfl

theorem decValue_digitSymbols (v : Nat) : decValue (digitSymbols v) = v := by
  simp [decValue, digitSymbols, Function.comp_def, Nat.ofDigits_digits]

theorem mem_digitSymbols {v d : Nat} (h : d ∈ digitSymbols v) : 0x30 ≤ d ∧ d ≤ 0x39 := by
  obtain ⟨x, hx, rfl⟩ : ∃ x ∈ Nat.digits 10 v, 0x30 + x = d := by simpa [digitSymbols] using h
  have := Nat.digits_lt_base (by decide : 1 < 10) hx
  omega

theorem digitSymbols_ne_nil {v : Nat} (hv : 0 < v) : digitSymbols v ≠ [] := by
  simpa [digitSymbols, Nat.digits_eq_nil_iff_eq_zero] using hv.ne'

/-- The first symbol of a positive number is its most significant digit, which is not 0. -/
theorem head?_digitSymbols_ne_zero {v : Nat} (hv : 0 < v) : (digitSymbols v).head? ≠ some 0x30 := by
  have hne : Nat.digits 10 v ≠ [] := Nat.digits_ne_nil_iff_ne_zero.2 hv.ne'
  have hlast := Nat.getLast_digit_ne_zero 10 hv.ne'
  simpa [digitSymbols, List.getLast?_eq_some_getLast hne] using hlast

end Sys2Proof.Machine

namespace Sys2Proof
open Machine

/-- Settles O47: `dec` writes the digits of a positive number in base ten, and 0 as one digit. -/
theorem decimalRendering : Obligations.DecimalRendering := by
  intro v
  rcases v.eq_zero_or_pos with rfl | hv
  · exact ⟨rfl, by simp [dec_zero], by simp [dec_zero], fun h => absurd rfl h, dec_zero⟩
  · rw [dec_of_pos hv, digitsValue_eq_decValue]
    exact ⟨decValue_digitSymbols v, fun d hd => mem_digitSymbols hd, digitSymbols_ne_nil hv,
      fun _ => head?_digitSymbols_ne_zero hv, dec_zero⟩

end Sys2Proof
end

section
/-! PROOFS. The layout of a Huffman container (30_encoding.md R103, R104): the frequency map (43_huffman_codec.md R201), the
lengths of at least 1 (41_huffman_tree.md R160), and what a successful HUF_COMPRESS wrote. -/

namespace Sys2Proof.Machine

/-! ### The frequency map -/

/-- The frequency map holds each symbol of the text with its number of occurrences, and nothing else (43_huffman_codec.md
R201). -/
theorem mem_frequencies_iff {t : List Nat} {x n : Nat} : (x, n) ∈ frequencies t ↔ x ∈ t ∧ n = t.count x := by
  simp only [frequencies, List.mem_map, List.mem_dedup, Prod.mk.injEq]
  constructor
  · rintro ⟨s, hs, rfl, rfl⟩
    exact ⟨hs, rfl⟩
  · rintro ⟨hx, rfl⟩
    exact ⟨x, hx, rfl, rfl⟩

/-! ### The lengths are at least 1 -/

theorem length_mergeOnce (next : Nat) {q : List HufTree} (h : 2 ≤ q.length) :
    (mergeOnce next q).length + 1 = q.length := by
  cases q with
  | nil => simp at h
  | cons x q =>
    have hx := (takeLeast_perm x q).length_eq
    rw [mergeOnce]
    split
    case h_1 a heq =>
      simp only [heq, List.length_cons, List.length_nil] at hx h
      omega
    case h_2 a y q' heq =>
      have hy := (takeLeast_perm y q').length_eq
      simp only [heq, List.length_cons] at hx hy ⊢
      omega

/-- Each turn of the loop leaves one node less (41_huffman_tree.md R163). -/
theorem length_mergeLoop (k next : Nat) {q : List HufTree} (h : k < q.length) :
    (mergeLoop k next q).length + k = q.length := by
  induction k generalizing next q with
  | zero => rfl
  | succ k ih =>
    have hone := length_mergeOnce next (q := q) (by omega)
    have hrest := ih (next + 1) (q := mergeOnce next q) (by omega)
    rw [mergeLoop]
    omega

@[simp] theorem length_leavesFrom (seq : Nat) (F : List (Nat × Nat)) : (leavesFrom seq F).length = F.length := by
  induction F generalizing seq with
  | nil => rfl
  | cons p F ih => simp [leavesFrom, ih]

theorem HufTree.le_of_mem_depths {T : HufTree} {d : Nat} {p : Nat × Nat} (h : p ∈ T.depths d) : d ≤ p.2 := by
  induction T generalizing d with
  | leaf s f q => simp only [HufTree.depths, List.mem_singleton] at h; rw [h]
  | node f q l r ihl ihr =>
    rcases List.mem_append.1 h with h | h
    · exact (Nat.le_succ d).trans (ihl h)
    · exact (Nat.le_succ d).trans (ihr h)

/-- A tree of two symbols or more has none at its root. -/
theorem HufTree.one_le_of_mem_depths {T : HufTree} (hT : 2 ≤ (T.depths 0).length) {p : Nat × Nat} (h : p ∈ T.depths 0) :
    1 ≤ p.2 := by
  cases T with
  | leaf s f q => simp [HufTree.depths] at hT
  | node f q l r =>
    rcases List.mem_append.1 h with h | h
    · exact HufTree.le_of_mem_depths h
    · exact HufTree.le_of_mem_depths h

/-- The loop's turns leave one tree, whose leaves are the lengths. -/
theorem treeLengths_eq_depths {F : List (Nat × Nat)} (h : 2 ≤ F.length) :
    ∃ T : HufTree, treeLengths F = T.depths 0 := by
  have hleaves : (leavesOf F).length = F.length := by
    rw [leavesOf, length_leavesFrom, (List.perm_insertionSort symLe F).length_eq]
  have hlen := length_mergeLoop (F.length - 1) F.length (q := leavesOf F) (by omega)
  obtain ⟨T, hT⟩ := List.length_eq_one_iff.1 (show (mergeLoop (F.length - 1) F.length (leavesOf F)).length = 1 by omega)
  refine ⟨T, ?_⟩
  unfold treeLengths
  split
  · simp at h
  · rw [hT, List.flatMap_singleton]

/-- Every length is at least 1 (41_huffman_tree.md R160). -/
theorem one_le_of_mem_treeLengths {F : List (Nat × Nat)} {p : Nat × Nat} (h : p ∈ treeLengths F) : 1 ≤ p.2 := by
  have hlen := length_treeLengths F
  match F, h, hlen with
  | [], h, hlen => rw [List.eq_nil_of_length_eq_zero hlen] at h; cases h
  | [(s, f)], h, _ => rw [List.mem_singleton.1 h]
  | x :: y :: F, h, hlen =>
    obtain ⟨T, hT⟩ := treeLengths_eq_depths (F := x :: y :: F) (by simp)
    rw [hT] at h hlen
    exact HufTree.one_le_of_mem_depths (by simp [hlen]) h

/-! ### What a successful HUF_COMPRESS wrote -/

theorem le_of_firstAbove_eq_none {bound k : Nat} {t : List Nat} (h : firstAbove bound k t = none) :
    ∀ c ∈ t, c ≤ bound := by
  induction t generalizing k with
  | nil => simp
  | cons c t ih =>
    unfold firstAbove at h
    split at h
    case isTrue => cases h
    case isFalse hle => exact List.forall_mem_cons.2 ⟨Nat.le_of_not_lt hle, ih h⟩

/-- A container that was written kept the limits of the format (43_huffman_codec.md R205). -/
theorem encodeContainer_ok {t : List Nat} {cap : Nat} {F len : List (Nat × Nat)} {bytes : List Byte}
    (h : encodeContainer t cap F len = .ok bytes) :
    F.length ≤ 65535 ∧ (∀ p ∈ len, p.2 ≤ 31) ∧ codeBits len t ≤ 0xFFFFFFFF ∧
      bytes = finish (containerBits (canon len) (codeBits len t) t) := by
  unfold encodeContainer at h
  split_ifs at h with hcount hlens hbits
  cases h
  exact ⟨Nat.le_of_not_lt hcount, by simpa using hlens, Nat.le_of_not_lt hbits, rfl⟩

/-- A text that was compressed has symbols of 16 bits only (43_huffman_codec.md R203). -/
theorem hufCompress_ok {t : List Nat} {cap : Nat} {bytes : List Byte} (h : hufCompress t cap = .ok bytes) :
    (∀ c ∈ t, c ≤ 0xFFFF) ∧ (t = [] → bytes = []) ∧
      (t ≠ [] → encodeContainer t cap (frequencies t) (treeLengths (frequencies t)) = .ok bytes) := by
  unfold hufCompress at h
  split at h
  case h_1 => cases h
  case h_2 hnone =>
    refine ⟨le_of_firstAbove_eq_none hnone, fun ht => ?_, fun ht => ?_⟩
    · rw [if_pos ht] at h; cases h; rfl
    · rwa [if_neg ht] at h

theorem readerOn_finish_eq_append_padding (w : List Bool) : readerOn (finish w) = w ++ padding w := (readerOn_finish w).1

/-- The symbols of a text's length table are symbols of the text. -/
theorem mem_of_mem_treeLengths_frequencies {t : List Nat} {p : Nat × Nat} (h : p ∈ treeLengths (frequencies t)) :
    p.1 ∈ t := by
  have hfst := (map_fst_treeLengths_perm (frequencies t)).mem_iff.1 (List.mem_map_of_mem h)
  obtain ⟨⟨x, n⟩, hxn, hx⟩ := List.mem_map.1 hfst
  exact hx ▸ (mem_frequencies_iff.1 hxn).1

end Sys2Proof.Machine

namespace Sys2Proof
open Machine

/-- Settles O42: a compression that succeeded kept every limit, and its bits are the fields in canonical order. -/
theorem containerLayout : Obligations.ContainerLayout := by
  refine ⟨fun t x n => mem_frequencies_iff, fun t => ⟨distinctKeys_frequencies t, fun p hp => ?_⟩, ?_⟩
  · obtain ⟨hmem, hcount⟩ := mem_frequencies_iff.1 hp
    exact hcount ▸ List.count_pos_iff.2 hmem
  · rintro t cap bytes E h rfl
    obtain ⟨hsyms, hempty, hcontainer⟩ := hufCompress_ok h
    refine ⟨hempty, fun hne => ?_⟩
    obtain ⟨hcount, hlens, hbits, rfl⟩ := encodeContainer_ok (hcontainer hne)
    have hkeys := distinctKeys_treeLengths (distinctKeys_frequencies t)
    have hpos : 0 < t.dedup.length := List.length_pos_of_ne_nil (by simpa using hne)
    rw [length_canonSort, length_treeLengths]
    refine ⟨length_frequencies t ▸ hpos, hcount, fun p hp => ?_, ?_, ?_⟩
    · have hmem := (canonSort_perm _).mem_iff.1 hp
      exact ⟨hsyms _ (mem_of_mem_treeLengths_frequencies hmem), one_le_of_mem_treeLengths hmem, hlens p hmem⟩
    · rwa [canon_canonSort, length_textBits_canon hkeys]
    · rw [containerBits_eq_containerFields hkeys, readerOn_finish_eq_append_padding]

end Sys2Proof
end

section
/-! PROOFS. Where the LZ77 decoders stop: a header that breaks a check or a cut stream (45_lz77_codec.md R270 to R276), and a
text that is no token or a token that cannot be replayed (30_encoding.md R123, 45_lz77_codec.md R281). -/

namespace Sys2Proof.Machine

/-! ### One header of a bitstream -/

/-- The bits of a header: flag, stored offset, length (30_encoding.md R110 to R112). -/
def headerBits (w b f so L : Nat) : List Bool := bitsOf 1 f ++ bitsOf (clog2 w) so ++ bitsOf (clog2 (b + 1)) L

@[simp] theorem length_headerBits (w b f so L : Nat) : (headerBits w b f so L).length = headerWidth w b := by
  simp [headerBits, headerWidth, offsetWidth, lengthWidth, Nat.add_assoc]

/-- The fields of a header fit their widths. -/
structure HeaderFits (w b f so L : Nat) : Prop where
  flag : f ≤ 1
  off : so < 2 ^ clog2 w
  len : L < 2 ^ clog2 (b + 1)

/-- The fields of a header are read back, and the character is read from what follows (45_lz77_codec.md R270). -/
theorem readTriple_headerBits {w b f so L : Nat} (h : HeaderFits w b f so L) (rest : List Bool) :
    readTriple w b (headerBits w b f so L ++ rest) = (f, so, L, readChar (headerWidth w b) rest) := by
  have hflag : f < 2 ^ 1 := Nat.lt_succ_of_le h.flag
  simp only [readTriple, headerBits, List.append_assoc, offsetWidth, lengthWidth, get_bitsOf_append _ _ _ hflag,
    get_bitsOf_append _ _ _ h.off, get_bitsOf_append _ _ _ h.len]

/-- A header that breaks a check ends the decoder. -/
theorem decodeTriples_headerBits_of_error {w b cap fuel k f so L : Nat} {rest : List Bool} {out : List Nat} {e : Raise}
    (h : HeaderFits w b f so L) (hcheck : checkTriple w b f so (decodeOffset w f so) L out.length k = some e) :
    decodeTriples w b cap (fuel + 1) k (headerBits w b f so L ++ rest) out = .error e := by
  rw [decodeTriples, if_neg (by simp [avail])]
  simp only [readTriple_headerBits h, hcheck]

/-- A header that passes the checks is replayed if its output fits (45_lz77_codec.md R270, R271). -/
theorem decodeTriples_headerBits {w b cap fuel k f so L : Nat} {rest rest' : List Bool} {c : Option Nat} {out : List Nat}
    (h : HeaderFits w b f so L) (hcheck : checkTriple w b f so (decodeOffset w f so) L out.length k = none)
    (hchr : readChar (headerWidth w b) rest = (c, rest')) :
    decodeTriples w b cap (fuel + 1) k (headerBits w b f so L ++ rest) out =
      if cap < 4 * (out.length + tripleSize L c) then .error { err := .outputOverflow, pos := k }
      else decodeTriples w b cap fuel (k + 1) rest' (replay out (decodeOffset w f so) L c) := by
  rw [decodeTriples, if_neg (by simp [avail])]
  simp only [readTriple_headerBits h, hcheck, hchr]

/-- Fewer bits than a header end the loop, whatever the fuel (45_lz77_codec.md R276). -/
theorem decodeTriples_short {w b cap fuel k : Nat} {r : List Bool} {out : List Nat} (h : r.length < headerWidth w b) :
    decodeTriples w b cap fuel k r out = endOfBits k r out := by
  cases fuel with
  | zero => rfl
  | succ fuel => exact if_pos h

/-- A byte or more that is no header is malformed (45_lz77_codec.md R276). -/
theorem decodeTriples_cut {w b cap fuel k : Nat} {r : List Bool} {out : List Nat} (hbyte : 8 ≤ r.length)
    (h : r.length < headerWidth w b) :
    decodeTriples w b cap fuel k r out = .error { err := .malformedContainer, pos := k } := by
  rw [decodeTriples_short h]
  exact if_pos hbyte

/-! ### The checks of a triple -/

/-- A broken rule on the fields alone is MalformedContainer (45_lz77_codec.md R274). -/
theorem checkTriple_malformed {w b f so o L n k : Nat}
    (h : (f = 0 ∧ (so ≠ 0 ∨ L ≠ 0)) ∨ (f = 1 ∧ L = 0) ∨ (f = 1 ∧ (w < o ∨ b < L))) :
    checkTriple w b f so o L n k = some { err := .malformedContainer, pos := k } := by
  unfold checkTriple
  split_ifs with hzero hlen hbound
  · rfl
  · rfl
  · rfl
  all_goals tauto

/-- Where the fields keep the rules, the offset alone decides (45_lz77_codec.md R274). -/
theorem checkTriple_of_fields {w b f so o L n k : Nat} (hzero : f = 0 → so = 0 ∧ L = 0)
    (hone : f = 1 → 1 ≤ L ∧ o ≤ w ∧ L ≤ b) :
    checkTriple w b f so o L n k = if n < o then some { err := .offsetOutOfRange, pos := k } else none := by
  rw [checkTriple, if_neg (by omega), if_neg (by omega), if_neg (by omega)]

/-! ### The character after a header -/

/-- A byte that is not U+0000, or that a header's bits follow, is a character (45_lz77_codec.md R273). -/
theorem readChar_some {H : Nat} {r : List Bool} (hbyte : 8 ≤ r.length)
    (h : r.take 8 ≠ List.replicate 8 false ∨ 8 + H ≤ r.length) : ∃ c r', readChar H r = (some c, r') := by
  have hkeep : ¬(ofBits (r.take 8) = 0 ∧ avail (r.drop 8) < H) := by
    rintro ⟨hzero, hlt⟩
    rcases h with hne | hle
    · have hbits := bitsOf_ofBits (r.take 8)
      rw [hzero, List.length_take, Nat.min_eq_left hbyte] at hbits
      exact hne hbits.symm
    · simp [avail] at hlt
      omega
  refine ⟨ofBits (r.take 8), r.drop 8, ?_⟩
  rw [readChar, if_neg (by simpa [avail] using hbyte)]
  exact if_neg hkeep

/-- A U+0000 without room for a header after it is dropped (45_lz77_codec.md R273). -/
theorem readChar_nul_dropped {H : Nat} {r : List Bool} (h : r.length < H) : readChar H (bitsOf 8 0 ++ r) = (none, r) := by
  rw [readChar, if_neg (by simp [avail])]
  simp only [get_bitsOf_append 8 0 r (by decide)]
  exact if_pos ⟨trivial, h⟩

/-! ### What LZ_DECOMPRESS_BITS makes of a bad stream -/

theorem tripleBits_eq_headerBits (w b : Nat) (t : Triple) :
    tripleBits w b t =
      headerBits w b (if 0 < t.len then 1 else 0) (t.off % 2 ^ clog2 w) t.len ++ charBits t.chr := rfl

theorem TripleFits.headerFits {w b n : Nat} {t : Triple} (ht : TripleFits w b n t) :
    HeaderFits w b (if 0 < t.len then 1 else 0) (t.off % 2 ^ clog2 w) t.len where
  flag := by split <;> decide
  off := Nat.mod_lt _ (Nat.two_pow_pos _)
  len := Nat.lt_of_lt_of_le (Nat.lt_succ_of_le ht.len_le) (le_two_pow_clog2 _)

theorem endsWithNul_eq_true {ts : List Triple} (h : endsWithNul ts = true) :
    ∃ as t, ts = as ++ [t] ∧ t.chr = some 0 := by
  induction ts using List.reverseRecOn with
  | nil => cases h
  | append_singleton as t _ => exact ⟨as, t, rfl, by simpa [endsWithNul_append_cons, endsWithNul_singleton] using h⟩

/-- A turn of the loop on a last triple that loses its U+0000, since fewer bits than a header follow it (45_lz77_codec.md
R273). -/
theorem decodeTriples_nul_dropped {w b cap fuel k : Nat} {t : Triple} {tail : List Bool} {out : List Nat}
    (ht : TripleFits w b out.length t) (hnul : t.chr = some 0) (hshort : tail.length < headerWidth w b)
    (hcap : 4 * (out.length + t.len) ≤ cap) :
    decodeTriples w b cap (fuel + 1) k (tripleBits w b t ++ tail) out =
      decodeTriples w b cap fuel (k + 1) tail (replay out t.off t.len none) := by
  have hcheck : checkTriple w b (if 0 < t.len then 1 else 0) (t.off % 2 ^ clog2 w)
      (decodeOffset w (if 0 < t.len then 1 else 0) (t.off % 2 ^ clog2 w)) t.len out.length k = none := by
    rw [decodeOffset_stored ht, checkTriple_fits ht]
  rw [tripleBits_eq_headerBits, hnul, List.append_assoc, charBits,
    decodeTriples_headerBits ht.headerFits hcheck (readChar_nul_dropped hshort), decodeOffset_stored ht, if_neg]
  exact Nat.not_lt.2 hcap

section
variable {w b cap : Nat} {bytes : List Byte} {ts : List Triple} {tail : List Bool}
  (hfits : StreamFits w b [] ts) (hsome : ∀ x ∈ ts, x.chr ≠ none) (hcap : 4 * (replayAll ts).length ≤ cap)
  (hbytes : readerOn bytes = streamBits w b ts ++ tail)
include hfits hsome hcap hbytes

/-- After the triples of a stream the decoder comes to the header that follows them. -/
theorem lzDecompressBits_at_header {f so L : Nat} {rest : List Bool} (htail : tail = headerBits w b f so L ++ rest) :
    ∃ fuel, lzDecompressBits w b cap bytes =
      decodeTriples w b cap (fuel + 1) ts.length (headerBits w b f so L ++ rest) (replayAll ts) := by
  have hheader : headerWidth w b ≤ tail.length := by simp [htail]
  have hpos := headerWidth_pos w b
  have havail := length_le_length_streamBits w b ts
  obtain ⟨fuel, hfuel⟩ : ∃ fuel, avail (readerOn bytes) = fuel + 1 + ts.length :=
    ⟨avail (readerOn bytes) - ts.length - 1, by rw [hbytes, avail_append]; omega⟩
  refine ⟨fuel, ?_⟩
  rw [lzDecompressBits, hfuel, hbytes, decodeTriples_streamBits hfits hsome (.inr hheader) hcap, Nat.zero_add, htail]
  rfl

/-- A header after the triples of a stream that breaks a check ends the decoder at its index. -/
theorem lzDecompressBits_header_error {f so L : Nat} {rest : List Bool} {e : Err} (h : HeaderFits w b f so L)
    (htail : tail = headerBits w b f so L ++ rest)
    (hcheck : checkTriple w b f so (decodeOffset w f so) L (replayAll ts).length ts.length =
      some { err := e, pos := ts.length }) :
    lzDecompressBits w b cap bytes = .error { err := e, pos := ts.length } := by
  obtain ⟨fuel, hrun⟩ := lzDecompressBits_at_header hfits hsome hcap hbytes htail
  rw [hrun, decodeTriples_headerBits_of_error h hcheck]

/-- A header after the triples of a stream whose copy exceeds the capacity, alone or with its character. -/
theorem lzDecompressBits_header_overflow {f so L : Nat} {rest : List Bool} (h : HeaderFits w b f so L)
    (htail : tail = headerBits w b f so L ++ rest)
    (hcheck : checkTriple w b f so (decodeOffset w f so) L (replayAll ts).length ts.length = none)
    (hover : cap < 4 * ((replayAll ts).length + L) ∨
      (∃ c rest', readChar (headerWidth w b) rest = (some c, rest')) ∧ cap < 4 * ((replayAll ts).length + L + 1)) :
    lzDecompressBits w b cap bytes = .error { err := .outputOverflow, pos := ts.length } := by
  obtain ⟨fuel, hrun⟩ := lzDecompressBits_at_header hfits hsome hcap hbytes htail
  cases hchr : readChar (headerWidth w b) rest with
  | mk c rest' =>
    rw [hrun, decodeTriples_headerBits h hcheck hchr, if_pos]
    rcases hover with hcopy | ⟨⟨c', rest'', hsome'⟩, hall⟩
    · unfold tripleSize
      omega
    · obtain ⟨rfl, -⟩ : c = some c' ∧ rest' = rest'' := by simpa [hchr] using hsome'
      exact hall

/-- After the triples of a stream a byte or more that is no header is malformed, also where the last triple loses its
U+0000. -/
theorem lzDecompressBits_cut (hbyte : 8 ≤ tail.length) (hcut : tail.length < headerWidth w b) :
    lzDecompressBits w b cap bytes = .error { err := .malformedContainer, pos := ts.length } := by
  have havail := length_le_length_streamBits w b ts
  obtain ⟨fuel, hfuel⟩ : ∃ fuel, avail (readerOn bytes) = fuel + ts.length :=
    ⟨avail (readerOn bytes) - ts.length, by rw [hbytes, avail_append]; omega⟩
  rw [lzDecompressBits, hfuel, hbytes]
  cases hnul : endsWithNul ts with
  | false =>
    rw [decodeTriples_streamBits hfits hsome (.inl hnul) hcap, decodeTriples_cut hbyte hcut, Nat.zero_add]
  | true =>
    obtain ⟨as, t, rfl, hchr⟩ := endsWithNul_eq_true hnul
    obtain ⟨has, hsomeAs, ht⟩ := hfits.of_append
    have hlen : (replayAll (as ++ [t])).length = (replayFrom [] as).length + tripleSize t.len t.chr := by
      rw [replayAll_eq_replayFrom, replayFrom_append, replayFrom_cons, replayFrom_nil, length_replay]
    have hsize : tripleSize t.len t.chr = t.len + 1 := by rw [hchr]; rfl
    have hheader := headerWidth_le_length_tripleBits w b t
    rw [List.length_append, List.length_singleton, Nat.add_comm as.length 1, ← Nat.add_assoc, streamBits_append,
      streamBits_cons, streamBits_nil, List.append_nil, List.append_assoc,
      decodeTriples_streamBits has hsomeAs (.inr (by simp; omega)) (by omega),
      decodeTriples_nul_dropped ht.head hchr hcut (by omega), decodeTriples_cut hbyte hcut]
    congr 2
    omega

end

/-! ### Numbers and tokens that are none -/

theorem takeWhile_isDigit_eq_nil {r : List Nat} (h : ¬DigitNext r) : r.takeWhile isDigit = [] := by
  cases r with
  | nil => rfl
  | cons d r =>
    have hd : isDigit d = false := by
      rw [← Bool.not_eq_true, isDigit_eq_true_iff]
      exact fun hd => h ⟨d, rfl, hd⟩
    simp [hd]

theorem takeWhile_digits {ds r : List Nat} (hds : Digits ds) (hr : ¬DigitNext r) :
    (ds ++ r).takeWhile isDigit = ds := by
  rw [List.takeWhile_append_of_pos fun d hd => (isDigit_eq_true_iff d).2 (hds.2 d hd), takeWhile_isDigit_eq_nil hr,
    List.append_nil]

theorem dropWhile_digits {ds r : List Nat} (hds : Digits ds) (hr : ¬DigitNext r) :
    (ds ++ r).dropWhile isDigit = r := by
  have h := List.takeWhile_append_dropWhile (p := isDigit) (l := ds ++ r)
  rw [takeWhile_digits hds hr] at h
  exact List.append_cancel_left h

theorem expect_eq_none {x : Nat} {r : List Nat} (h : r.head? ≠ some x) : expect x r = none := by
  cases r with
  | nil => rfl
  | cons y r => exact if_neg fun hy => h (by rw [hy]; rfl)

@[simp] theorem expect_self (x : Nat) (r : List Nat) : expect x (x :: r) = some r := if_pos rfl

/-- A bad number is read as none, or no comma follows it (30_encoding.md R123). -/
theorem parseNum_badNum {r : List Nat} (h : BadNum r) :
    parseNum r = none ∨ ∃ v r', parseNum r = some (v, r') ∧ expect 0x2C r' = none := by
  rcases h with hno | ⟨ds, r', hds, rfl, hr', hbad⟩
  · exact .inl (by rw [parseNum, takeWhile_isDigit_eq_nil hno, if_pos rfl])
  · rw [parseNum, takeWhile_digits hds hr', dropWhile_digits hds hr', if_neg hds.1, digitsValue_eq_decValue]
    by_cases hbig : 0xFFFFFFFF < decValue ds
    · exact .inl (if_pos hbig)
    · exact .inr ⟨_, _, if_neg hbig, expect_eq_none (hbad.resolve_left hbig)⟩

theorem parseTail_eq_none {r : List Nat} (h0 : r[0]? ≠ some 0x29) (h1 : r[1]? ≠ some 0x29) : parseTail r = none := by
  match r with
  | [] => rfl
  | [x] => simpa [parseTail] using h0
  | x :: y :: r =>
    simp only [List.getElem?_cons_zero, List.getElem?_cons_succ, ne_eq, Option.some.injEq] at h0 h1
    simp [parseTail, h0, h1]

/-- A text that does not begin with a token is read as none (30_encoding.md R123). -/
theorem parseToken_badToken {r : List Nat} (h : BadToken r) : parseToken r = none := by
  rcases h with hopen | ⟨r', rfl, hbad⟩ | ⟨o, v, r', ho, rfl, hbad⟩ | ⟨o, v, l, u, r', ho, hl, rfl, h0, h1⟩
  · rw [parseToken, expect_eq_none hopen]
  · rcases parseNum_badNum hbad with hnone | ⟨v, s, hsome, hcomma⟩
    · simp [parseToken, hnone]
    · simp [parseToken, hsome, hcomma]
  · rcases parseNum_badNum hbad with hnone | ⟨v, s, hsome, hcomma⟩
    · simp [parseToken, parseNum_isNum ho, hnone]
    · simp [parseToken, parseNum_isNum ho, hsome, hcomma]
  · simp [parseToken, parseNum_isNum ho, parseNum_isNum hl, parseTail_eq_none h0 h1]

/-! ### What LZ_DECOMPRESS_TEXT makes of a bad text -/

/-- Where there is no token, the token loop ends, with fuel or without. -/
theorem decodeTokens_of_none {cap fuel k : Nat} {r out : List Nat} (h : parseToken r = none) :
    decodeTokens cap fuel k r out = .error { err := .malformedContainer, pos := k } := by
  cases fuel with
  | zero => rfl
  | succ fuel => rw [decodeTokens, h]

/-- A token that reaches before the output (45_lz77_codec.md R281). -/
theorem decodeTokens_out_of_range {cap fuel k : Nat} {tok rest out : List Nat} {t : Triple} (htok : IsToken tok t)
    (hrest : t.chr = none → rest.head? ≠ some 0x29) (hoff : out.length < t.off) :
    decodeTokens cap (fuel + 1) k (tok ++ rest) out = .error { err := .offsetOutOfRange, pos := k } := by
  rw [decodeTokens, parseToken_isToken htok hrest]
  exact if_pos hoff

/-- A token with exactly one of offset and length 0 (45_lz77_codec.md R281). -/
theorem decodeTokens_half_zero {cap fuel k : Nat} {tok rest out : List Nat} {t : Triple} (htok : IsToken tok t)
    (hrest : t.chr = none → rest.head? ≠ some 0x29) (hoff : t.off ≤ out.length) (hzero : ¬(t.off = 0 ↔ t.len = 0)) :
    decodeTokens cap (fuel + 1) k (tok ++ rest) out = .error { err := .malformedContainer, pos := k } := by
  rw [decodeTokens, parseToken_isToken htok hrest]
  exact (if_neg (Nat.not_lt.2 hoff)).trans (if_pos hzero)

theorem IsToken.length_pos {tok : List Nat} {t : Triple} (h : IsToken tok t) : 0 < tok.length := by
  obtain ⟨o, l, -, -, rfl⟩ := h
  simp

/-- The last token of a text stands after those of the triples before it. -/
theorem TextOf.last {x : List Nat} {as : List Triple} {t : Triple} (h : TextOf x (as ++ [t])) :
    ∃ before tok, TextBefore before as ∧ IsToken tok t ∧ x = before ++ tok := by
  obtain ⟨toks, htoks, rfl⟩ := h
  induction as generalizing toks with
  | nil =>
    obtain ⟨tok, toks', htok, hnil, rfl⟩ := List.forall₂_cons_right_iff.1 htoks
    cases hnil
    exact ⟨[], tok, ⟨[], .nil, rfl⟩, htok, by simp⟩
  | cons a as ih =>
    obtain ⟨tok₀, toks', htok₀, htoks', rfl⟩ := List.forall₂_cons_right_iff.1 htoks
    obtain ⟨before, tok, hbefore, htok, hx⟩ := ih toks' htoks'
    have hne : toks' ≠ [] := by
      rintro rfl
      simp at htoks'
    refine ⟨tok₀ ++ 0x20 :: before, tok, hbefore.cons htok₀, htok, ?_⟩
    rw [List.intercalate_cons_of_ne_nil hne, hx]
    simp

section
variable {cap : Nat} {x before rest : List Nat} {ts : List Triple} (hne : x ≠ []) (hx : x = before ++ rest)
  (hfits : TokensFit [] ts) (hcap : 4 * (replayAll ts).length ≤ cap)
include hne hx hfits hcap

/-- After the tokens that stand before a place in the text, the decoder comes to that place. -/
theorem lzDecompressText_before (hbefore : TextBefore before ts) :
    ∃ fuel, rest.length ≤ fuel ∧ lzDecompressText cap x = decodeTokens cap fuel ts.length rest (replayAll ts) := by
  have hle := length_le_of_textBefore hbefore
  have hlen : x.length = before.length + rest.length := by rw [hx, List.length_append]
  obtain ⟨fuel, hfuel⟩ : ∃ fuel, x.length = fuel + ts.length := ⟨x.length - ts.length, by omega⟩
  refine ⟨fuel, by omega, ?_⟩
  rw [lzDecompressText, if_neg hne, hfuel, hx, decodeTokens_textBefore hbefore hfits hcap, Nat.zero_add]
  rfl

theorem lzDecompressText_badToken (hbefore : TextBefore before ts) (hbad : BadToken rest) :
    lzDecompressText cap x = .error { err := .malformedContainer, pos := ts.length } := by
  obtain ⟨fuel, -, hrun⟩ := lzDecompressText_before hne hx hfits hcap hbefore
  rw [hrun, decodeTokens_of_none (parseToken_badToken hbad)]

/-- A token after those of the triples, with fuel for its turn. -/
theorem lzDecompressText_at_token {tok tail : List Nat} {t : Triple} (hbefore : TextBefore before ts)
    (htok : IsToken tok t) (hrest : rest = tok ++ tail) :
    ∃ fuel, lzDecompressText cap x = decodeTokens cap (fuel + 1) ts.length (tok ++ tail) (replayAll ts) := by
  obtain ⟨fuel, hfuel, hrun⟩ := lzDecompressText_before hne hx hfits hcap hbefore
  have hpos := htok.length_pos
  have hlen : rest.length = tok.length + tail.length := by rw [hrest, List.length_append]
  obtain ⟨fuel', rfl⟩ : ∃ fuel', fuel = fuel' + 1 := ⟨fuel - 1, by omega⟩
  exact ⟨fuel', hrest ▸ hrun⟩

end

/-- Anything but a space after the tokens of the triples (45_lz77_codec.md R281). -/
theorem lzDecompressText_no_space {cap c : Nat} {x before tail : List Nat} {ts : List Triple} (hx : x = before ++ c :: tail)
    (hfits : TokensFit [] ts) (hcap : 4 * (replayAll ts).length ≤ cap) (hne : ts ≠ []) (hbefore : TextOf before ts)
    (hc : c ≠ 0x20) (hlast : ∀ y, ts.getLast? = some y → y.chr = none → c ≠ 0x29) :
    lzDecompressText cap x = .error { err := .malformedContainer, pos := ts.length } := by
  obtain ⟨as, t, rfl⟩ := (List.eq_nil_or_concat' ts).resolve_left hne
  obtain ⟨before', tok, hbefore', htok, rfl⟩ := hbefore.last
  obtain ⟨has, ht⟩ := hfits.of_append
  have hall : replayAll (as ++ [t]) = replay (replayAll as) t.off t.len t.chr := by
    rw [replayAll_eq_replayFrom, replayFrom_append]; rfl
  have hsize := length_replay (replayAll as) t.off t.len t.chr
  rw [hall] at hcap
  have hcap' : 4 * (replayAll as).length ≤ cap := by omega
  obtain ⟨fuel, hrun⟩ := lzDecompressText_at_token (by simp [hx]) (hx.trans (List.append_assoc _ _ _)) has hcap' hbefore'
    htok rfl
  have hfit : TokenFits (replayAll as).length t := ht.head
  rw [hrun, decodeTokens_isToken htok (fun hnone => by simpa using hlast t (by simp) hnone) hfit, if_neg (by omega)]
  simp [hc]

/-! ### The commands -/

theorem exec_lzDecompressBits_of_error {s : State} {l : Latched} {e : Err} {pos : Nat} (hready : Ready .lzDecompressBits s l)
    (h : lzDecompressBits l.operands.windowSize.toNat l.operands.bufferSize.toNat l.operands.dstCap.toNat
      (s.mem.readBytes l.operands.srcAddr.toNat l.operands.srcLen.toNat) = .error { err := e, pos := pos }) :
    ∃ u, exec .lzDecompressBits s = .next u ∧ FailedWith e pos u :=
  exec_of_body_error hready (by simp only [bodyOf, lzDecompressBitsBody, h])

theorem exec_lzDecompressText_of_error {s : State} {l : Latched} {e : Err} {pos : Nat} (hready : Ready .lzDecompressText s l)
    (h : lzDecompressText l.operands.dstCap.toNat
      (s.mem.readWords l.operands.srcAddr.toNat (l.operands.srcLen.toNat / 4)) = .error { err := e, pos := pos }) :
    ∃ u, exec .lzDecompressText s = .next u ∧ FailedWith e pos u :=
  exec_of_body_error hready (by simp only [bodyOf, lzDecompressTextBody, h])

end Sys2Proof.Machine

namespace Sys2Proof
open Machine

/-- Settles O30: the decoders come to the triple or token after `ts`, whose checks then decide; a last U+0000 that is dropped
before a cut stream changes no error. -/
theorem lzStreamErrors : Obligations.LzStreamErrors := by
  refine ⟨?_, ?_⟩
  · rintro s l ts w b tail hready rfl rfl hfits hsome hcap hbytes
    refine ⟨?_, fun hbyte hcut =>
      exec_lzDecompressBits_of_error hready (lzDecompressBits_cut hfits hsome hcap hbytes hbyte hcut)⟩
    rintro f so o L rest hf hso hL htail rfl
    have hheader : HeaderFits _ _ f so L := ⟨hf, hso, hL⟩
    refine ⟨fun hbad => ?_, fun hzero hone => ⟨fun hfar => ?_, fun hreach hover => ?_⟩⟩ <;>
      refine exec_lzDecompressBits_of_error hready ?_
    · exact lzDecompressBits_header_error hfits hsome hcap hbytes hheader htail (checkTriple_malformed hbad)
    · exact lzDecompressBits_header_error hfits hsome hcap hbytes hheader htail
        ((checkTriple_of_fields hzero hone).trans (if_pos hfar))
    · refine lzDecompressBits_header_overflow hfits hsome hcap hbytes hheader htail
        ((checkTriple_of_fields hzero hone).trans (if_neg (Nat.not_lt.2 hreach))) (hover.imp_right ?_)
      exact fun ⟨hbyte, hchr, hall⟩ => ⟨readChar_some hbyte hchr, hall⟩
  · rintro s l x before rest ts hready hfits hcap hread hne hx
    refine ⟨fun hbefore hbad => ?_, fun tok tail t hbefore htok hrest htail => ?_, ?_⟩
    · exact exec_lzDecompressText_of_error hready (hread ▸ lzDecompressText_badToken hne hx hfits hcap hbefore hbad)
    · obtain ⟨fuel, hrun⟩ := lzDecompressText_at_token hne hx hfits hcap hbefore htok hrest
      refine ⟨fun hfar => ?_, fun hreach hzero => ?_⟩ <;>
        refine exec_lzDecompressText_of_error hready (hread ▸ hrun.trans ?_)
      · exact decodeTokens_out_of_range htok htail hfar
      · exact decodeTokens_half_zero htok htail hreach hzero
    · rintro c tail htsne hbefore rfl hc hlast
      exact exec_lzDecompressText_of_error hready
        (hread ▸ lzDecompressText_no_space hx hfits hcap htsne hbefore hc hlast)

end Sys2Proof
end

section
/-! PROOFS. The bit writer and reader (40_bitio.md R141 to R148): fields are read back as they were put, and where a
container keeps each bit. -/

namespace Sys2Proof.Machine

/-! ### Putting and getting fields -/

@[simp] theorem fieldBits_cons (f : Nat × Nat) (fs : List (Nat × Nat)) :
    fieldBits (f :: fs) = bitsOf f.2 f.1 ++ fieldBits fs := rfl

/-- A writer holds the fields' digits, in order. -/
theorem putFields_eq_fieldBits (fs : List (Nat × Nat)) : putFields fs = fieldBits fs :=
  (List.flatMap_eq_foldl ..).symm

/-- Fields that fit are read back in order, and the bits after them are left. -/
theorem getFields_fieldBits_append {fs : List (Nat × Nat)} (r : List Bool) (hfit : ∀ f ∈ fs, f.1 < 2 ^ f.2) :
    getFields (fs.map Prod.snd) (fieldBits fs ++ r) = (fs.map Prod.fst, r) := by
  induction fs with
  | nil => rfl
  | cons f fs ih =>
    obtain ⟨hf, hfs⟩ := List.forall_mem_cons.1 hfit
    simp only [List.map_cons, getFields, fieldBits_cons, List.append_assoc, get_bitsOf_append _ _ _ hf, ih hfs]

/-! ### Where a container keeps each bit -/

/-- Digit `i` of `L`, most significant first, is bit `L - 1 - i` of the value (40_bitio.md R142). -/
theorem getElem?_bitsOf (v : Nat) {L i : Nat} (hi : i < L) : (bitsOf L v)[i]? = some (v.testBit (L - 1 - i)) := by
  induction L generalizing i with
  | zero => omega
  | succ L ih =>
    cases i with
    | zero => rfl
    | succ i =>
      rw [bitsOf, List.getElem?_cons_succ, ih (by omega)]
      congr 2
      omega

/-- The bit a reader sees at position `t` is bit `7 - t mod 8` of byte `t div 8` (40_bitio.md R141, R146). -/
theorem exists_byte_of_readerOn_getElem? {bs : List Byte} {t : Nat} (ht : t < 8 * bs.length) :
    ∃ y, bs[t / 8]? = some y ∧ (readerOn bs)[t]? = some (y.getLsbD (7 - t % 8)) := by
  induction bs generalizing t with
  | nil => simp at ht
  | cons b bs ih =>
    rw [readerOn_cons]
    by_cases h8 : t < 8
    · refine ⟨b, by simp [Nat.div_eq_of_lt h8], ?_⟩
      rw [List.getElem?_append_left (by simpa using h8), getElem?_bitsOf _ h8, Nat.mod_eq_of_lt h8]
      rfl
    · obtain ⟨u, rfl⟩ := Nat.exists_eq_add_of_le' (Nat.le_of_not_lt h8)
      have hu : u < 8 * bs.length := by rw [List.length_cons] at ht; omega
      obtain ⟨y, hy, hbit⟩ := ih hu
      refine ⟨y, by simpa using hy, ?_⟩
      rw [List.getElem?_append_right (by simp), length_bitsOf, Nat.add_sub_cancel, Nat.add_mod_right, hbit]

/-- A reader on a finished writer sees the bits written, and 0 at each position of the padding (40_bitio.md R143). -/
theorem readerOn_finish_getD (w : List Bool) (t : Nat) : (readerOn (finish w)).getD t false = w.getD t false := by
  rw [readerOn_finish_eq_append_padding, padding]
  by_cases ht : t < w.length
  · rw [List.getD_append _ _ _ _ ht]
  · have hle := Nat.le_of_not_lt ht
    rw [List.getD_append_right _ _ _ _ hle, List.getD_eq_default _ _ hle, List.getD_eq_getElem?_getD,
      List.getElem?_getD_replicate_default_eq]

end Sys2Proof.Machine

namespace Sys2Proof
open Machine

/-- Settles O39: what is left after the fields is the padding of `finish`. -/
theorem writerReaderLaw : Obligations.WriterReaderLaw := by
  intro fs hfit
  rw [putFields_eq_fieldBits, readerOn_finish_eq_append_padding]
  exact ⟨padding (fieldBits fs), getFields_fieldBits_append _ hfit, Nat.le_of_lt_succ (length_padding _),
    fun _ hb => List.eq_of_mem_replicate hb⟩

/-- Settles O40: a bit's place is where a reader finds it, and a reader on `finish w` sees `w` and zeros. -/
theorem packingOfBits : Obligations.PackingOfBits := by
  refine fun w => ⟨length_finish w, fun t ht => ?_⟩
  obtain ⟨y, hy, hbit⟩ := exists_byte_of_readerOn_getElem? ht
  refine ⟨y, hy, ?_⟩
  rw [← readerOn_finish_getD w t, List.getD_eq_getElem?_getD, hbit, Option.getD_some]

end Sys2Proof
end

section
/-! PROOFS. The turns of the merge loop (41_huffman_tree.md R161 to R165): which two nodes each takes, the sequence numbers, and the
lengths as the depths of one tree, with their Kraft sum (R168). -/

namespace Sys2Proof.Machine

/-! ### The priority order -/

theorem HufTree.before_iff (a b : HufTree) :
    a.before b = true ↔ a.freq < b.freq ∨ (a.freq = b.freq ∧ a.seq < b.seq) := by
  simp [HufTree.before]

theorem HufTree.before_trans {a b c : HufTree} (hab : a.before b = true) (hbc : b.before c = true) :
    a.before c = true := by
  rw [HufTree.before_iff] at *
  omega

/-- Of two nodes with different sequence numbers one is before the other. -/
theorem HufTree.before_of_not_before {a b : HufTree} (hseq : a.seq ≠ b.seq) (h : ¬b.before a = true) :
    a.before b = true := by
  rw [HufTree.before_iff] at *
  omega

/-- What `x` is before, the least node of `x :: q` is before. -/
theorem takeLeast_before_of_before {x y : HufTree} {q : List HufTree} (hxy : x.before y = true)
    (hleast : ∀ z ∈ (takeLeast x q).2, (takeLeast x q).1.before z = true) : (takeLeast x q).1.before y = true := by
  rcases List.mem_cons.1 ((takeLeast_perm x q).mem_iff.2 List.mem_cons_self) with heq | hmem
  · exact heq ▸ hxy
  · exact HufTree.before_trans (hleast x hmem) hxy

/-- With distinct sequence numbers the node taken is before every other (41_huffman_tree.md R162). -/
theorem takeLeast_before {x : HufTree} {q : List HufTree} (h : ((x :: q).map HufTree.seq).Nodup) :
    ∀ y ∈ (takeLeast x q).2, (takeLeast x q).1.before y = true := by
  induction q generalizing x with
  | nil => simp [takeLeast]
  | cons y q ih =>
    simp only [List.map_cons, List.nodup_cons, List.mem_cons, not_or] at h ih
    obtain ⟨⟨hxy, hxq⟩, hyq, hq⟩ := h
    unfold takeLeast
    split
    case isTrue hyx =>
      have hrest := ih ⟨hyq, hq⟩
      exact List.forall_mem_cons.2 ⟨takeLeast_before_of_before hyx hrest, hrest⟩
    case isFalse hyx =>
      have hrest := ih ⟨hxq, hq⟩
      have hxy := HufTree.before_of_not_before hxy hyx
      exact List.forall_mem_cons.2 ⟨takeLeast_before_of_before hxy hrest, hrest⟩

/-! ### One turn -/

/-- A turn on two nodes or more: the nodes `a`, `c` it takes, which are the least two when the sequence numbers are distinct, and
the node it puts in their place (41_huffman_tree.md R163). -/
theorem exists_mergeOnce_eq (next : Nat) {q : List HufTree} (h : 2 ≤ q.length) :
    ∃ a c rest, q.Perm (a :: c :: rest) ∧ mergeOnce next q = .node (a.freq + c.freq) next a c :: rest ∧
      ((q.map HufTree.seq).Nodup →
        (∀ x ∈ c :: rest, a.before x = true) ∧ ∀ x ∈ rest, c.before x = true) := by
  cases q with
  | nil => simp at h
  | cons x q =>
    have hx := takeLeast_perm x q
    have hleast := takeLeast_before (x := x) (q := q)
    rw [mergeOnce]
    split
    case h_1 a heq =>
      have hlen := hx.length_eq
      rw [heq] at hlen
      simp only [List.length_cons, List.length_nil] at h hlen
      omega
    case h_2 a y q' heq =>
      rw [heq] at hx hleast
      have hy := takeLeast_perm y q'
      refine ⟨a, (takeLeast y q').1, (takeLeast y q').2, hx.symm.trans (hy.symm.cons a), rfl, fun hseq => ?_⟩
      have hseq' := (hx.map HufTree.seq).nodup_iff.2 hseq
      exact ⟨fun z hz => hleast hseq z (hy.mem_iff.1 hz), takeLeast_before (List.nodup_cons.1 hseq').2⟩

theorem mergeOnce_of_length_lt_two (next : Nat) {q : List HufTree} (h : q.length < 2) : mergeOnce next q = q := by
  match q, h with
  | [], _ => rfl
  | [x], _ => rfl

/-! ### The sequence numbers -/

/-- The sequence numbers are distinct and below the next one, as the order of the nodes needs (41_huffman_tree.md R161 to R163). -/
def SeqsBelow (next : Nat) (q : List HufTree) : Prop := (q.map HufTree.seq).Nodup ∧ ∀ x ∈ q, x.seq < next

theorem SeqsBelow.mergeOnce {next : Nat} {q : List HufTree} (h : SeqsBelow next q) :
    SeqsBelow (next + 1) (mergeOnce next q) := by
  obtain ⟨hseq, hlt⟩ := h
  by_cases hlen : 2 ≤ q.length
  · obtain ⟨a, c, rest, hperm, heq, -⟩ := exists_mergeOnce_eq next hlen
    have hrest : ∀ x ∈ rest, x.seq < next := fun x hx => hlt x (hperm.mem_iff.2 (by simp [hx]))
    have hnodup := (hperm.map HufTree.seq).nodup_iff.1 hseq
    simp only [List.map_cons, List.nodup_cons] at hnodup
    rw [heq]
    refine ⟨List.nodup_cons.2 ⟨fun hmem => ?_, hnodup.2.2⟩,
      List.forall_mem_cons.2 ⟨Nat.lt_succ_self next, fun x hx => (hrest x hx).trans (Nat.lt_succ_self next)⟩⟩
    obtain ⟨x, hx, hxnext⟩ := List.mem_map.1 hmem
    exact (hrest x hx).ne hxnext
  · rw [mergeOnce_of_length_lt_two next (Nat.lt_of_not_le hlen)]
    exact ⟨hseq, fun x hx => (hlt x hx).trans (Nat.lt_succ_self next)⟩

theorem SeqsBelow.mergeLoop {next : Nat} {q : List HufTree} (h : SeqsBelow next q) (k : Nat) :
    SeqsBelow (next + k) (mergeLoop k next q) := by
  induction k generalizing next q with
  | zero => exact h
  | succ k ih => rw [← Nat.add_assoc, Nat.add_right_comm]; exact ih h.mergeOnce

/-- The last turn of the loop is one turn on what the turns before it leave. -/
theorem mergeLoop_succ (k next : Nat) (q : List HufTree) :
    mergeLoop (k + 1) next q = mergeOnce (next + k) (mergeLoop k next q) := by
  induction k generalizing next q with
  | zero => rfl
  | succ k ih =>
    calc mergeLoop (k + 1 + 1) next q
        = mergeOnce (next + 1 + k) (mergeLoop k (next + 1) (mergeOnce next q)) := ih (next + 1) (mergeOnce next q)
      _ = mergeOnce (next + (k + 1)) (mergeLoop (k + 1) next q) := by rw [Nat.add_right_comm]; rfl

/-! ### The leaves -/

theorem getElem?_leavesFrom (seq : Nat) (F : List (Nat × Nat)) (j : Nat) :
    (leavesFrom seq F)[j]? = (F[j]?).map fun p => .leaf p.1 p.2 (seq + j) := by
  induction F generalizing seq j with
  | nil => rfl
  | cons p F ih =>
    cases j with
    | zero => rfl
    | succ j => simp [leavesFrom, ih, Nat.add_right_comm, Nat.add_assoc]

theorem map_seq_leavesFrom (seq : Nat) (F : List (Nat × Nat)) :
    (leavesFrom seq F).map HufTree.seq = List.range' seq F.length := by
  induction F generalizing seq with
  | nil => rfl
  | cons p F ih => simp [leavesFrom, ih, HufTree.seq, List.range'_succ]

@[simp] theorem length_leavesOf (F : List (Nat × Nat)) : (leavesOf F).length = F.length := by
  simp [leavesOf]

theorem seqsBelow_leavesOf (F : List (Nat × Nat)) : SeqsBelow F.length (leavesOf F) := by
  have hseq : (leavesOf F).map HufTree.seq = List.range' 0 F.length := by simp [leavesOf, map_seq_leavesFrom]
  refine ⟨hseq ▸ List.nodup_range', fun x hx => ?_⟩
  have hmem := hseq ▸ List.mem_map_of_mem (f := HufTree.seq) hx
  simpa using hmem

/-- The entries of a map with distinct keys, sorted by symbol, have strictly rising symbols (41_huffman_tree.md R161). -/
theorem DistinctKeys.pairwise_insertionSort {F : List (Nat × Nat)} (h : DistinctKeys F) :
    (F.insertionSort symLe).Pairwise fun p p' => p.1 < p'.1 := by
  have htotal : Std.Total symLe := ⟨fun a b => Nat.le_total a.1 b.1⟩
  have htrans : IsTrans (Nat × Nat) symLe := ⟨fun _ _ _ => Nat.le_trans⟩
  have hkeys := ((List.perm_insertionSort symLe F).map Prod.fst).nodup_iff.2 h
  exact ((List.pairwise_insertionSort symLe F).and (List.pairwise_map.1 hkeys)).imp
    fun ⟨hle, hne⟩ => Nat.lt_of_le_of_ne hle hne

/-- The leaves do not depend on the order the map is listed in (41_huffman_tree.md R161, R167). -/
theorem leavesOf_perm {F G : List (Nat × Nat)} (hperm : F.Perm G) (h : DistinctKeys F) : leavesOf F = leavesOf G := by
  have hG : DistinctKeys G := (hperm.map Prod.fst).nodup_iff.1 h
  have hsort : (F.insertionSort symLe).Perm (G.insertionSort symLe) :=
    (List.perm_insertionSort symLe F).trans (hperm.trans (List.perm_insertionSort symLe G).symm)
  have heq := hsort.eq_of_pairwise (fun _ _ _ _ hab hba => absurd hba (Nat.lt_asymm hab)) h.pairwise_insertionSort
    hG.pairwise_insertionSort
  rw [leavesOf, leavesOf, heq]

/-! ### The tree left -/

/-- The loop leaves one root (41_huffman_tree.md R160, R163). -/
theorem exists_mergeLoop_eq_root {F : List (Nat × Nat)} (h : F ≠ []) :
    ∃ T, mergeLoop (F.length - 1) F.length (leavesOf F) = [T] := by
  have hpos := List.length_pos_of_ne_nil h
  have hlen := length_mergeLoop (F.length - 1) F.length (q := leavesOf F) (by simp; omega)
  rw [length_leavesOf] at hlen
  exact List.length_eq_one_iff.1 (by omega)

/-- The leaves of the root are the symbols of the map (41_huffman_tree.md R160). -/
theorem syms_root_perm {F : List (Nat × Nat)} {T : HufTree}
    (hT : mergeLoop (F.length - 1) F.length (leavesOf F) = [T]) : T.syms.Perm (F.map Prod.fst) := by
  have hperm := flatMap_syms_mergeLoop_perm (F.length - 1) F.length (leavesOf F)
  rw [hT, List.flatMap_singleton, leavesOf, flatMap_syms_leavesFrom] at hperm
  exact hperm.trans ((List.perm_insertionSort symLe F).map Prod.fst)

/-- The lengths of two symbols or more are the depths below the root (41_huffman_tree.md R165). -/
theorem treeLengths_of_root {F : List (Nat × Nat)} {T : HufTree} (h : 2 ≤ F.length)
    (hT : mergeLoop (F.length - 1) F.length (leavesOf F) = [T]) : treeLengths F = T.depths 0 := by
  unfold treeLengths
  split
  · simp at h
  · rw [hT, List.flatMap_singleton]

/-! ### Kraft's equality -/

/-- The leaves below a node at depth `d` fill its part of the code space. -/
theorem kraftSum_depths (T : HufTree) (d : Nat) : kraftSum (T.depths d) = (1 / 2) ^ d := by
  induction T generalizing d with
  | leaf s f q => simp [kraftSum, HufTree.depths]
  | node f q l r ihl ihr =>
    calc kraftSum ((HufTree.node f q l r).depths d)
        = kraftSum (l.depths (d + 1)) + kraftSum (r.depths (d + 1)) := by simp [kraftSum, HufTree.depths]
      _ = (1 / 2) ^ (d + 1) + (1 / 2) ^ (d + 1) := by rw [ihl, ihr]
      _ = (1 / 2) ^ d := by ring

end Sys2Proof.Machine

namespace Sys2Proof
open Machine

/-- Settles O32: the loop keeps the symbols, and of two nodes or more it leaves one. -/
theorem treeLeavesAreTheSymbols : Obligations.TreeLeavesAreTheSymbols := by
  intro F hF
  obtain ⟨T, hT⟩ := exists_mergeLoop_eq_root hF
  exact ⟨⟨T, hT, by rw [HufTree.map_fst_depths]; exact syms_root_perm hT⟩, map_fst_treeLengths_perm F,
    fun p hp => one_le_of_mem_treeLengths hp⟩

/-- Settles O33: what one turn takes, and the sequence numbers as an invariant of the turns. -/
theorem mergeTakesTheTwoLeast : Obligations.MergeTakesTheTwoLeast := by
  refine ⟨fun F hF => ?_, fun next q hlen hseq => ?_, fun next q hseq hlt => SeqsBelow.mergeOnce ⟨hseq, hlt⟩,
    fun k next q => ⟨rfl, mergeLoop_succ k next q⟩, fun F k => ?_, fun F hF => ?_, fun x n => rfl⟩
  · exact ⟨F.insertionSort symLe, List.perm_insertionSort symLe F, hF.pairwise_insertionSort, fun j => by
      rw [leavesOf, getElem?_leavesFrom, Nat.zero_add]⟩
  · obtain ⟨a, c, rest, hperm, heq, hleast⟩ := exists_mergeOnce_eq next hlen
    exact ⟨a, c, rest, hperm, (hleast hseq).1, (hleast hseq).2, heq⟩
  · obtain ⟨hseq, hlt⟩ := (seqsBelow_leavesOf F).mergeLoop k
    refine ⟨hseq, hlt, fun hk => ?_⟩
    have hlen := length_mergeLoop k F.length (q := leavesOf F) (by simpa using hk)
    rw [length_leavesOf] at hlen
    omega
  · obtain ⟨T, hT⟩ := exists_mergeLoop_eq_root (List.ne_nil_of_length_pos (Nat.zero_lt_of_lt hF))
    exact ⟨T, hT, treeLengths_of_root hF hT⟩

/-- Settles O34: the lengths are the depths of one tree, whose leaves fill the code space. -/
theorem kraftEquality : Obligations.KraftEquality := by
  refine ⟨fun F => ⟨fun hF => ?_, fun hF => ?_⟩, by decide⟩
  · obtain ⟨T, hT⟩ := treeLengths_eq_depths hF
    rw [hT, kraftSum_depths, pow_zero]
  · obtain ⟨⟨s, f⟩, rfl⟩ := List.length_eq_one_iff.1 hF
    simp [treeLengths, kraftSum]

/-- Settles O35: the lengths are computed from the leaves and their number, which the listing's order does not change. -/
theorem treeDependsOnTheMapOnly : Obligations.TreeDependsOnTheMapOnly := by
  intro F G hperm hkeys
  match F, hperm with
  | [], hperm => rw [hperm.nil_eq]
  | [p], hperm => rw [List.singleton_perm.1 hperm]
  | x :: y :: F, hperm =>
    obtain ⟨T, hT⟩ := exists_mergeLoop_eq_root (F := x :: y :: F) (by simp)
    have hTG : mergeLoop (G.length - 1) G.length (leavesOf G) = [T] := by
      rw [← hperm.length_eq, ← leavesOf_perm hperm hkeys, hT]
    have hlen : 2 ≤ (x :: y :: F).length := by simp
    rw [treeLengths_of_root hlen hT, treeLengths_of_root (hperm.length_eq ▸ hlen) hTG]

end Sys2Proof
end

section
/-! PROOFS. The table commands: the first bad entry of a table (41_huffman_tree.md R166, 42_huffman_canonical.md R183, R186), codes that
do not fit (R181), and the length table HUF_LENGTHS writes (41_huffman_tree.md R166). -/

namespace Sys2Proof.Machine

/-! ### The entry loops -/

/-- What is wrong with an entry of the table of HUF_CANON, or else of HUF_LENGTHS, when the entries before it gave the map `F`
(41_huffman_tree.md R166, 42_huffman_canonical.md R186). -/
def entryError (i : Instr) (F : List (Nat × Nat)) (p : Nat × Nat) : Option Err :=
  if 0xFFFF < p.1 then some .unrepresentableSymbol
  else if isKey F p.1 then some .invalidInput
  else if p.2 = 0 then some .invalidInput
  else if i = .hufCanon ∧ 31 < p.2 then some .codeLengthOverflow
  else none

/-- The entry loop of HUF_CANON, or else of HUF_LENGTHS. -/
def readEntriesOf (i : Instr) : Nat → List (Nat × Nat) → List (Nat × Nat) → Except Raise (List (Nat × Nat)) :=
  if i = .hufCanon then readLengths else readFrequencies

theorem readEntriesOf_nil (i : Instr) (k : Nat) (F : List (Nat × Nat)) : readEntriesOf i k F [] = .ok F := by
  unfold readEntriesOf
  split <;> rfl

/-- A bad entry ends the loop with its error and its index; a good one joins the map. -/
theorem readEntriesOf_cons (i : Instr) (k : Nat) (F rest : List (Nat × Nat)) (p : Nat × Nat) :
    readEntriesOf i k F (p :: rest) =
      (entryError i F p).elim (readEntriesOf i (k + 1) (F ++ [p]) rest) fun e => .error { err := e, pos := k } := by
  obtain ⟨x, n⟩ := p
  by_cases hi : i = .hufCanon
  · simp only [readEntriesOf, entryError, hi, if_true, true_and, readLengths]
    split_ifs <;> rfl
  · simp only [readEntriesOf, entryError, hi, if_false, false_and, readFrequencies]
    split_ifs <;> rfl

theorem entryError_eq_none {i : Instr} {F : List (Nat × Nat)} {p : Nat × Nat} (hkey : isKey F p.1 = false)
    (hgood : p.1 ≤ 0xFFFF ∧ 1 ≤ p.2 ∧ (i = .hufCanon → p.2 ≤ 31)) : entryError i F p = none := by
  obtain ⟨hsym, hpos, hlen⟩ := hgood
  rw [entryError, if_neg (by omega), hkey, if_neg Bool.false_ne_true, if_neg (by omega), if_neg]
  exact fun hover => absurd (hlen hover.1) (by omega)

/-- The loop reads good entries into its map. -/
theorem readEntriesOf_append_of_good {i : Instr} {k : Nat} {F good : List (Nat × Nat)} (rest : List (Nat × Nat))
    (hkeys : DistinctKeys (F ++ good)) (hgood : ∀ p ∈ good, p.1 ≤ 0xFFFF ∧ 1 ≤ p.2 ∧ (i = .hufCanon → p.2 ≤ 31)) :
    readEntriesOf i k F (good ++ rest) = readEntriesOf i (k + good.length) (F ++ good) rest := by
  induction good generalizing k F with
  | nil => simp
  | cons p good ih =>
    obtain ⟨hp, hgood⟩ := List.forall_mem_cons.1 hgood
    rw [List.cons_append, readEntriesOf_cons, entryError_eq_none hkeys.isKey_eq_false hp, Option.elim_none,
      ih (by simpa using hkeys) hgood, List.append_assoc, List.singleton_append, List.length_cons, Nat.add_assoc,
      Nat.add_comm 1]

/-! ### The commands on a bad table -/

/-- An empty table ends the command with InvalidInput (41_huffman_tree.md R166, 42_huffman_canonical.md R186). -/
theorem exec_of_empty_table {i : Instr} {s : State} {l : Latched} (hi : i ∈ ([.hufLengths, .hufCanon] : List Instr))
    (hready : Ready i s l) (hF : s.mem.readPairs l.operands.srcAddr.toNat (l.operands.srcLen.toNat / 8) = []) :
    ∃ u, exec i s = .next u ∧ FailedWith .invalidInput 0 u := by
  refine exec_of_body_error hready ?_
  simp only [List.mem_cons, List.not_mem_nil, or_false] at hi
  rcases hi with rfl | rfl
  · simp only [bodyOf, hufLengthsBody, hF, lengthTable, if_true, raise0]
  · simp only [bodyOf, hufCanonBody, hF, codeTable, if_true, raise0]

/-- An error of the entry loop ends the command. -/
theorem exec_of_readEntriesOf_error {i : Instr} {s : State} {l : Latched} {e : Err} {pos : Nat}
    (hi : i ∈ ([.hufLengths, .hufCanon] : List Instr)) (hready : Ready i s l)
    (hread : readEntriesOf i 0 [] (s.mem.readPairs l.operands.srcAddr.toNat (l.operands.srcLen.toNat / 8)) =
      .error { err := e, pos := pos }) :
    ∃ u, exec i s = .next u ∧ FailedWith e pos u := by
  have hne : s.mem.readPairs l.operands.srcAddr.toNat (l.operands.srcLen.toNat / 8) ≠ [] := fun hnil => by
    rw [hnil, readEntriesOf_nil] at hread
    cases hread
  refine exec_of_body_error hready ?_
  simp only [List.mem_cons, List.not_mem_nil, or_false] at hi
  rcases hi with rfl | rfl
  · rw [readEntriesOf, if_neg (by decide)] at hread
    simp only [bodyOf, hufLengthsBody, lengthTable, if_neg hne, hread]
  · rw [readEntriesOf, if_pos rfl] at hread
    simp only [bodyOf, hufCanonBody, codeTable, if_neg hne, hread]

/-- After good entries the first bad one ends the command with its error and its index. -/
theorem exec_of_bad_entry {i : Instr} {s : State} {l : Latched} {good rest : List (Nat × Nat)} {p : Nat × Nat} {e : Err}
    (hi : i ∈ ([.hufLengths, .hufCanon] : List Instr)) (hready : Ready i s l)
    (hF : s.mem.readPairs l.operands.srcAddr.toNat (l.operands.srcLen.toNat / 8) = good ++ p :: rest)
    (hkeys : DistinctKeys good) (hgood : ∀ p ∈ good, p.1 ≤ 0xFFFF ∧ 1 ≤ p.2 ∧ (i = .hufCanon → p.2 ≤ 31))
    (hbad : entryError i good p = some e) : ∃ u, exec i s = .next u ∧ FailedWith e good.length u := by
  refine exec_of_readEntriesOf_error hi hready ?_
  rw [hF, readEntriesOf_append_of_good _ (by simpa using hkeys) hgood, List.nil_append, Nat.zero_add, readEntriesOf_cons,
    hbad, Option.elim_some]

/-! ### Codes that do not fit -/

/-- The interval of a code begins where that of the code before it ends. -/
theorem CodeEntry.Next.scaled_code {e e' : CodeEntry} (h : e.Next e') :
    (e'.code : ℚ) * (1 / 2) ^ e'.len = (e.code + 1) * (1 / 2) ^ e.len := by
  obtain ⟨hlen, hcode⟩ := h
  obtain ⟨d, hd⟩ := Nat.exists_eq_add_of_le hlen
  have hpow : (2 : ℚ) ^ d * (1 / 2) ^ d = 1 := by rw [← mul_pow]; norm_num
  rw [hcode, hd, Nat.add_sub_cancel_left, pow_add]
  push_cast
  linear_combination ((e.code : ℚ) + 1) * (1 / 2) ^ e.len * hpow

/-- Along the recurrence some code's interval, the last one's, ends at the Kraft sum of the whole. -/
theorem next_chain_exists_code_eq (e : CodeEntry) (T : List CodeEntry) (hT : (e :: T).IsChain CodeEntry.Next) :
    ∃ x ∈ e :: T, ((x.code : ℚ) + 1) * (1 / 2) ^ x.len =
      e.code * (1 / 2) ^ e.len + ((e :: T).map fun y => (1 / 2 : ℚ) ^ y.len).sum := by
  induction T generalizing e with
  | nil => exact ⟨e, List.mem_cons_self, by simp [add_mul]⟩
  | cons e' T ih =>
    obtain ⟨hnext, hchain⟩ := List.isChain_cons_cons.1 hT
    obtain ⟨x, hx, heq⟩ := ih e' hchain
    refine ⟨x, List.mem_cons_of_mem e hx, ?_⟩
    rw [heq, hnext.scaled_code, List.map_cons (a := e), List.sum_cons]
    ring

/-- Codes that fit have a Kraft sum of at most 1 (42_huffman_canonical.md R181). -/
theorem kraftSum_le_one_of_codesFit {len : List (Nat × Nat)} (h : codesFit (canon len) = true) : kraftSum len ≤ 1 := by
  rw [codesFit_iff] at h
  rw [kraftSum_eq_sum_canon]
  have hchain := canon_isChain len
  cases hT : canon len with
  | nil => simp
  | cons e T =>
    rw [hT] at h hchain
    obtain ⟨x, hx, heq⟩ := next_chain_exists_code_eq e T hchain
    rw [canon_head_code hT, Nat.cast_zero, zero_mul, zero_add] at heq
    have hcode : (x.code : ℚ) + 1 ≤ 2 ^ x.len := by exact_mod_cast h x hx
    calc ((e :: T).map fun y => (1 / 2 : ℚ) ^ y.len).sum
        = (x.code + 1) * (1 / 2) ^ x.len := heq.symm
      _ ≤ 2 ^ x.len * (1 / 2) ^ x.len := by gcongr
      _ = 1 := by rw [← mul_pow]; norm_num

/-- HUF_CANON on good entries whose codes do not fit (42_huffman_canonical.md R186). -/
theorem codeTable_of_overfull {F : List (Nat × Nat)} (cap : Nat) (hkeys : DistinctKeys F)
    (h : ∀ p ∈ F, p.1 ≤ 0xFFFF ∧ 1 ≤ p.2 ∧ p.2 ≤ 31) (hkraft : 1 < kraftSum F) :
    codeTable F cap = .error (raise0 .invalidInput) := by
  have hfit : codesFit (canon F) = false := by
    rw [← Bool.not_eq_true]
    exact fun hfit => (kraftSum_le_one_of_codesFit hfit).not_gt hkraft
  have hread := readLengths_of_good F [] 0 (by simpa using hkeys) h
  rw [List.nil_append] at hread
  simp only [codeTable, hread, hfit, Bool.not_false, if_true, ite_self]

/-! ### The length table written -/

theorem HufTree.length_syms_pos (T : HufTree) : 0 < T.syms.length := by
  induction T with
  | leaf s f q => exact Nat.zero_lt_one
  | node f q l r ihl ihr => rw [HufTree.syms, List.length_append]; omega

/-- A leaf is fewer edges below the root than there are leaves. -/
theorem HufTree.lt_of_mem_depths {T : HufTree} {d : Nat} {p : Nat × Nat} (h : p ∈ T.depths d) :
    p.2 < d + T.syms.length := by
  induction T generalizing d with
  | leaf s f q =>
    rw [List.mem_singleton.1 h]
    simp [HufTree.syms]
  | node f q l r ihl ihr =>
    have hl := l.length_syms_pos
    have hr := r.length_syms_pos
    simp only [HufTree.syms, List.length_append]
    rcases List.mem_append.1 h with h | h
    · have := ihl h
      omega
    · have := ihr h
      omega

/-- No length is above the number of symbols. -/
theorem le_length_of_mem_treeLengths {F : List (Nat × Nat)} {p : Nat × Nat} (h : p ∈ treeLengths F) : p.2 ≤ F.length := by
  match F with
  | [] => simpa using List.length_pos_of_mem h
  | [(s, f)] => rw [List.mem_singleton.1 h]; rfl
  | x :: y :: F =>
    obtain ⟨T, hT⟩ := treeLengths_eq_depths (F := x :: y :: F) (by simp)
    have hlen : T.syms.length = (x :: y :: F).length := by
      rw [← T.map_fst_depths 0, List.length_map, ← hT, length_treeLengths]
    have := HufTree.lt_of_mem_depths (hT ▸ h)
    omega

theorem Memory.readPairs_of_readWords {m : Memory} {a : Nat} {L : List (Nat × Nat)}
    (h : m.readWords a (2 * L.length) = L.flatMap fun p => [p.1, p.2]) : m.readPairs a L.length = L := by
  induction L generalizing a with
  | nil => rfl
  | cons p L ih =>
    simp only [List.length_cons, Nat.mul_add, Memory.readWords, List.flatMap_cons, List.cons_append, List.nil_append,
      List.cons.injEq] at h
    obtain ⟨hfst, hsnd, hrest⟩ := h
    rw [List.length_cons, Memory.readPairs, hfst, hsnd, ih hrest]

/-- A table of two-word entries written is read back. -/
theorem Memory.readPairs_writeBytes_pairsBytes {L : List (Nat × Nat)} (m : Memory) (a : Nat)
    (h : ∀ p ∈ L, p.1 < 4294967296 ∧ p.2 < 4294967296) : (m.writeBytes a (pairsBytes L)).readPairs a L.length = L := by
  have hwords : ∀ v ∈ L.flatMap (fun p => [p.1, p.2]), v < 4294967296 := fun v hv => by
    obtain ⟨p, hp, hv⟩ := List.mem_flatMap.1 hv
    obtain ⟨hfst, hsnd⟩ := h p hp
    rcases List.mem_pair.1 hv with rfl | rfl
    · exact hfst
    · exact hsnd
  have hlen : (L.flatMap fun p => [p.1, p.2]).length = 2 * L.length := by simp [Nat.mul_comm]
  refine Memory.readPairs_of_readWords ?_
  rw [← hlen]
  exact Memory.readWords_writeBytes_wordsBytes _ m a hwords

/-- HUF_LENGTHS past its checks, on a good frequency table with enough capacity (41_huffman_tree.md R166). -/
theorem exec_hufLengths_of_good {s : State} {l : Latched} {F : List (Nat × Nat)} (hready : Ready .hufLengths s l)
    (hF : F = s.mem.readPairs l.operands.srcAddr.toNat (l.operands.srcLen.toNat / 8)) (hne : F ≠ []) (hkeys : DistinctKeys F)
    (hgood : ∀ p ∈ F, p.1 ≤ 0xFFFF ∧ 1 ≤ p.2) (hcap : 8 * F.length ≤ l.operands.dstCap.toNat) :
    exec .hufLengths s =
      .next (completeOk { dst := pairsBytes (canonSort (treeLengths F)), dst2 := [], orig := 0, comp := 0 } l.operands s) := by
  rw [exec_eq_runCommand]
  refine runCommand_of_ok hready.1 hready.2 ?_
  simp only [bodyOf, hufLengthsBody, ← hF]
  rw [lengthTable_of_good _ hne hkeys hgood, if_neg (Nat.not_lt.2 hcap)]

end Sys2Proof.Machine

namespace Sys2Proof
open Machine

/-- Settles O25: the command succeeds with the tree's lengths, whose symbols and lengths each fit a word. -/
theorem hufLengthsResult : Obligations.HufLengthsResult := by
  intro s l F hready hF hne hkeys hgood hcap
  have hlen : (canonSort (treeLengths F)).length = F.length := by simp
  have hbytes : (pairsBytes (canonSort (treeLengths F))).length = 8 * F.length := by rw [length_pairsBytes, hlen]
  have hword := l.operands.dstCap.isLt
  have hfits : ∀ p ∈ canonSort (treeLengths F), p.1 < 4294967296 ∧ p.2 < 4294967296 := fun p hp => by
    have hmem := (canonSort_perm _).mem_iff.1 hp
    obtain ⟨q, hq, hqp⟩ := List.mem_map.1 ((map_fst_treeLengths_perm F).mem_iff.1 (List.mem_map_of_mem hmem))
    have hsym := (hgood q hq).1
    have hdepth := le_length_of_mem_treeLengths hmem
    omega
  refine ⟨_, exec_hufLengths_of_good hready hF hne hkeys hgood hcap, succeeded_completeOk _ _ _,
    sameOutside_completeOk _ _ _, ?_, rfl, ?_, fun a ha => ?_, rfl, rfl⟩
  · rw [completeOk_dstLen, hbytes, BitVec.toNat_ofNat, Nat.mod_eq_of_lt (by omega)]
  · rw [completeOk_mem, Memory.writeBytes_nil, ← hlen, Memory.readPairs_writeBytes_pairsBytes _ _ hfits]
  · rw [completeOk_mem, Memory.writeBytes_nil, Memory.read_writeBytes_outside _ _ _ _ (hbytes ▸ ha)]

/-- Settles O27: the loop reads the good entries, and the first bad one, or the sum of the lengths, ends the command. -/
theorem tableEntryErrors : Obligations.TableEntryErrors := by
  rintro i s l F hi hready hF
  refine ⟨fun hnil => exec_of_empty_table hi hready (hF ▸ hnil), fun good x n rest hsplit hkeys hgood => ?_,
    fun hcanon hkeys hgood hkraft => ?_⟩
  · have hbad {e : Err} (h : entryError i good (x, n) = some e) :=
      exec_of_bad_entry hi hready (hF ▸ hsplit) hkeys hgood h
    refine ⟨fun hx => hbad ?_, fun hx hn => hbad ?_, fun hx hnew hn hcanon => hbad ?_⟩
    · exact if_pos hx
    · rw [entryError, if_neg (Nat.not_lt.2 hx)]
      rcases hn with hn | rfl
      · exact if_pos ((isKey_eq_true_iff good x).2 hn)
      · simp
    · rw [entryError, if_neg (Nat.not_lt.2 hx), (isKey_eq_false_iff good x).2 hnew, if_neg Bool.false_ne_true,
        if_neg (by omega), if_pos ⟨hcanon, hn⟩]
  · subst hcanon
    refine exec_of_body_error hready ?_
    simp only [bodyOf, hufCanonBody, ← hF]
    rw [codeTable_of_overfull _ hkeys hgood hkraft]
    rfl

end Sys2Proof
end

section
/-! PROOFS. The canonical codes (42_huffman_canonical.md): the order and the recurrence (R180), when codes fit (R181), that no code
is a prefix of another (R182), and the table HUF_CANON writes (R186). -/

namespace Sys2Proof.Machine

/-! ### Codes that fit -/

/-- A code that fits is below the power of every bound on its length. -/
theorem CodeEntry.code_lt_two_pow {e : CodeEntry} {n : Nat} (hfit : e.code < 2 ^ e.len) (hlen : e.len ≤ n) :
    e.code < 2 ^ n :=
  hfit.trans_le (Nat.pow_le_pow_right Nat.two_pos hlen)

/-- The code after one that does not fit does not fit (42_huffman_canonical.md R181). -/
theorem CodeEntry.Next.two_pow_le_code {e e' : CodeEntry} (h : e.Next e') (hover : 2 ^ e.len ≤ e.code) :
    2 ^ e'.len ≤ e'.code := by
  obtain ⟨hlen, hcode⟩ := h
  calc 2 ^ e'.len = 2 ^ e.len * 2 ^ (e'.len - e.len) := (pow_mul_pow_sub 2 hlen).symm
    _ ≤ (e.code + 1) * 2 ^ (e'.len - e.len) := Nat.mul_le_mul_right _ (Nat.le_succ_of_le hover)
    _ = e'.code := hcode.symm

/-- Each code of the table is the next one after that before it. -/
theorem canon_next_of_getElem? {len : List (Nat × Nat)} {k : Nat} {e e' : CodeEntry} (he : (canon len)[k]? = some e)
    (he' : (canon len)[k + 1]? = some e') : e.Next e' := by
  obtain ⟨_, rfl⟩ := List.getElem?_eq_some_iff.1 he
  obtain ⟨hk, rfl⟩ := List.getElem?_eq_some_iff.1 he'
  exact List.isChain_iff_getElem.1 (canon_isChain len) k hk

/-! ### Prefixes -/

/-- A code is no prefix of one above it: the bits after it would be worth less than one of its own last place. -/
theorem CodeEntry.Below.not_prefix {e e' : CodeEntry} (h : e.Below e') (hfit : e.code < 2 ^ e.len)
    (hfit' : e'.code < 2 ^ e'.len) : ¬e.bits <+: e'.bits := by
  rintro ⟨t, ht⟩
  have hlen : e'.len - e.len = t.length := by
    have := congrArg List.length ht
    rw [List.length_append, e.length_bits, e'.length_bits] at this
    omega
  have hvalue : e'.code = e.code * 2 ^ t.length + ofBits t := by
    have := congrArg ofBits ht
    rwa [ofBits_append, bits, bits, ofBits_bitsOf _ _ hfit, ofBits_bitsOf _ _ hfit', eq_comm] at this
  have hstep := h.2
  rw [hlen, hvalue, Nat.add_mul, Nat.one_mul] at hstep
  have := ofBits_lt t
  omega

/-- A code is no prefix of one below it: it is not shorter, and at equal lengths the prefix would go the other way too. -/
theorem CodeEntry.Below.not_prefix_swap {e e' : CodeEntry} (h : e.Below e') (hfit : e.code < 2 ^ e.len)
    (hfit' : e'.code < 2 ^ e'.len) : ¬e'.bits <+: e.bits := by
  intro hpre
  have hlen : e.bits.length ≤ e'.bits.length := by simpa using h.1
  exact h.not_prefix hfit hfit' (hpre.eq_of_length_le hlen ▸ List.prefix_rfl)

/-! ### The code table written -/

/-- HUF_CANON past its checks, on a good length table whose codes fit with enough capacity (42_huffman_canonical.md R186). -/
theorem exec_hufCanon_of_good {s : State} {l : Latched} {F : List (Nat × Nat)} (hready : Ready .hufCanon s l)
    (hF : F = s.mem.readPairs l.operands.srcAddr.toNat (l.operands.srcLen.toNat / 8)) (hne : F ≠ []) (hkeys : DistinctKeys F)
    (hgood : ∀ p ∈ F, p.1 ≤ 0xFFFF ∧ 1 ≤ p.2 ∧ p.2 ≤ 31) (hfit : codesFit (canon F) = true)
    (hcap : 12 * F.length ≤ l.operands.dstCap.toNat) :
    exec .hufCanon s =
      .next (completeOk { dst := codesBytes (canon F), dst2 := [], orig := 0, comp := 0 } l.operands s) := by
  rw [exec_eq_runCommand]
  refine runCommand_of_ok hready.1 hready.2 ?_
  simp only [bodyOf, hufCanonBody, ← hF]
  rw [codeTable_of_good _ hne hkeys hgood hfit, if_neg (Nat.not_lt.2 hcap)]

/-- A table of three-word entries written is read back. -/
theorem Memory.readWords_writeBytes_codesBytes {T : List CodeEntry} (m : Memory) (a : Nat)
    (h : ∀ e ∈ T, e.sym < 4294967296 ∧ e.len < 4294967296 ∧ e.code < 4294967296) :
    (m.writeBytes a (codesBytes T)).readWords a (3 * T.length) = T.flatMap fun e => [e.sym, e.len, e.code] := by
  have hwords : ∀ v ∈ T.flatMap (fun e => [e.sym, e.len, e.code]), v < 4294967296 := fun v hv => by
    obtain ⟨e, he, hv⟩ := List.mem_flatMap.1 hv
    obtain ⟨hsym, hlen, hcode⟩ := h e he
    simp only [List.mem_cons, List.not_mem_nil, or_false] at hv
    rcases hv with rfl | rfl | rfl
    · exact hsym
    · exact hlen
    · exact hcode
  have hlen : (T.flatMap fun e => [e.sym, e.len, e.code]).length = 3 * T.length := by simp [Nat.mul_comm]
  rw [← hlen]
  exact Memory.readWords_writeBytes_wordsBytes _ m a hwords

end Sys2Proof.Machine

namespace Sys2Proof
open Machine

/-- Settles O36: the table is the sorted one, and its codes are a chain of the recurrence that begins at 0. -/
theorem canonRecurrence : Obligations.CanonRecurrence := by
  intro len
  refine ⟨canonSort_perm len, pairwise_canonSort len, canon_map len, fun e he => ?_,
    fun k e e' he he' => canon_next_of_getElem? he he', fun e _ hlen hfit => CodeEntry.code_lt_two_pow hfit hlen⟩
  obtain ⟨T, hT⟩ := List.head?_eq_some_iff.1 (List.head?_eq_getElem?.trans he)
  exact canon_head_code hT

/-- Settles O37: the last code's interval ends at the Kraft sum, which for a tree is at most 1. -/
theorem codesFitExactlyByKraft : Obligations.CodesFitExactlyByKraft := by
  refine ⟨fun len => ⟨kraftSum_le_one_of_codesFit, codesFit_of_kraftSum_le_one⟩,
    fun F => codesFit_of_kraftSum_le_one ?_,
    fun len k e e' he he' => (canon_next_of_getElem? he he').two_pow_le_code⟩
  obtain ⟨htwo, hone⟩ := kraftEquality.1 F
  match F with
  | [] => simp [treeLengths, kraftSum, mergeLoop, leavesOf, leavesFrom]
  | [p] => rw [hone rfl]; norm_num
  | x :: y :: F => exact (htwo (by simp)).le

/-- Settles O38: of two codes the later one, cut to the length of the earlier one, is above it. -/
theorem canonicalCodesArePrefixFree : Obligations.CanonicalCodesArePrefixFree := by
  intro len hfit
  rw [codesFit_iff] at hfit
  exact (canon_pairwise_below len).imp_of_mem fun he he' hbelow =>
    ⟨hbelow.not_prefix (hfit _ he) (hfit _ he'), hbelow.not_prefix_swap (hfit _ he) (hfit _ he')⟩

/-- Settles O26: the command succeeds with the canonical codes, which fit by the Kraft sum, so that each field fits a word. -/
theorem hufCanonResult : Obligations.HufCanonResult := by
  intro s l F hready hF hne hkeys hgood hkraft hcap
  have hfit := codesFit_of_kraftSum_le_one hkraft
  have hbytes : (codesBytes (canon F)).length = 12 * F.length := by rw [length_codesBytes, length_canon]
  have hword := l.operands.dstCap.isLt
  have hfits : ∀ e ∈ canon F, e.sym < 4294967296 ∧ e.len < 4294967296 ∧ e.code < 4294967296 := fun e he => by
    obtain ⟨hsym, -, hlen⟩ := hgood _ (mem_of_mem_canon he)
    have hcode : e.code < 2 ^ 31 := CodeEntry.code_lt_two_pow ((codesFit_iff _).1 hfit e he) hlen
    exact ⟨by omega, by omega, by omega⟩
  refine ⟨_, exec_hufCanon_of_good hready hF hne hkeys hgood hfit hcap, succeeded_completeOk _ _ _,
    sameOutside_completeOk _ _ _, ?_, rfl, ?_, fun a ha => ?_, rfl, rfl⟩
  · rw [completeOk_dstLen, hbytes, BitVec.toNat_ofNat, Nat.mod_eq_of_lt (by omega)]
  · rw [completeOk_mem, Memory.writeBytes_nil, ← length_canon F, Memory.readWords_writeBytes_codesBytes _ _ hfits]
  · rw [completeOk_mem, Memory.writeBytes_nil, Memory.read_writeBytes_outside _ _ _ _ (hbytes ▸ ha)]

end Sys2Proof
end

section
/-! PROOFS. The Huffman container commands (43_huffman_codec.md): what HUF_COMPRESS writes and which limits of the format
it checks (R200 to R205), what HUF_DECOMPRESS makes of a container and of a defective one (R210 to R214), and the round trip
(R215). -/

namespace Sys2Proof.Machine

/-! ### A command that succeeds -/

/-- Past its checks, a command whose processing succeeds completes with its results. -/
theorem exec_of_body_ok {i : Instr} {s : State} {l : Latched} {r : Results} (hready : Ready i s l)
    (hbody : bodyOf i l.operands s.mem = .ok r) : exec i s = .next (completeOk r l.operands s) := by
  rw [exec_eq_runCommand]
  exact runCommand_of_ok hready.1 hready.2 hbody

theorem u8_le_four (c : Nat) : u8 c ≤ 4 := by
  unfold u8
  split_ifs <;> omega

/-- The UTF-8 size of a text is at most its size in memory (60_exceptions.md R320, 20_memory.md R64). -/
theorem utf8size_le (t : List Nat) : utf8size t ≤ 4 * t.length := by
  have h := List.sum_le_card_nsmul (t.map u8) 4 fun n hn => by
    obtain ⟨c, -, rfl⟩ := List.mem_map.1 hn
    exact u8_le_four c
  rwa [List.length_map, smul_eq_mul, Nat.mul_comm] at h

/-- A number below `2^32` is what a register set to it holds. -/
theorem toNat_ofNat_word {n : Nat} (h : n < 4294967296) : (BitVec.ofNat 32 n).toNat = n := by
  rw [BitVec.toNat_ofNat, Nat.mod_eq_of_lt h]

/-- The results of a decoder: the text, and the statistics of 60_exceptions.md R320 with `comp` for its source. -/
def textResults (out : List Nat) (comp : Nat) : Results :=
  { dst := wordsBytes out, dst2 := [], orig := utf8size out, comp := comp }

/-- A decoder that succeeds leaves its text in destination 1, its size, and nothing else (20_memory.md R64, R69). -/
theorem completeOk_textResults {o : Operands} {out : List Nat} (comp : Nat) (s : State)
    (hcap : 4 * out.length ≤ o.dstCap.toNat) (hwords : ∀ c ∈ out, c < 4294967296) :
    (completeOk (textResults out comp) o s).dstLen.toNat = 4 * out.length ∧
      (completeOk (textResults out comp) o s).mem.readWords o.dstAddr.toNat out.length = out ∧
      SameMemoryOutside s.mem (completeOk (textResults out comp) o s).mem o.dstAddr.toNat (4 * out.length) ∧
      (completeOk (textResults out comp) o s).statOrig.toNat = utf8size out := by
  have hword := o.dstCap.isLt
  have hsize := utf8size_le out
  have hmem : (completeOk (textResults out comp) o s).mem = s.mem.writeBytes o.dstAddr.toNat (wordsBytes out) := rfl
  rw [hmem]
  refine ⟨?_, Memory.readWords_writeBytes_wordsBytes out _ _ hwords, fun a ha => ?_, ?_⟩
  · rw [completeOk_dstLen, textResults, length_wordsBytes, toNat_ofNat_word (by omega)]
  · exact Memory.read_writeBytes_outside _ _ _ _ (by rwa [length_wordsBytes])
  · exact toNat_ofNat_word (n := utf8size out) (by omega)

/-! ### What HUF_COMPRESS makes of a text -/

/-- The results of HUF_COMPRESS: the container, and the statistics of 60_exceptions.md R320 for the text. -/
def containerResults (t : List Nat) (bytes : List Byte) : Results :=
  { dst := bytes, dst2 := [], orig := utf8size t, comp := bytes.length }

theorem hufCompressBody_of_ok {o : Operands} {m : Memory} {t : List Nat} {bytes : List Byte}
    (ht : t = m.readWords o.srcAddr.toNat (o.srcLen.toNat / 4)) (h : hufCompress t o.dstCap.toNat = .ok bytes) :
    hufCompressBody o m = .ok (containerResults t bytes) := by
  subst ht
  simp only [hufCompressBody, h]
  rfl

theorem hufCompressBody_of_error {o : Operands} {m : Memory} {t : List Nat} {e : Raise}
    (ht : t = m.readWords o.srcAddr.toNat (o.srcLen.toNat / 4)) (h : hufCompress t o.dstCap.toNat = .error e) :
    hufCompressBody o m = .error e := by
  subst ht
  simp only [hufCompressBody, h]

/-- HUF_COMPRESS that succeeds leaves its container in destination 1, its size, and nothing else (43_huffman_codec.md R204,
20_memory.md R69). -/
theorem completeOk_containerResults {o : Operands} {t : List Nat} {w : List Bool} (s : State)
    (hcap : nbytes w ≤ o.dstCap.toNat) (ht : 4 * t.length ≤ o.srcLen.toNat) :
    (completeOk (containerResults t (finish w)) o s).dstLen.toNat = nbytes w ∧
      readerOn ((completeOk (containerResults t (finish w)) o s).mem.readBytes o.dstAddr.toNat (nbytes w)) =
        w ++ padding w ∧
      SameMemoryOutside s.mem (completeOk (containerResults t (finish w)) o s).mem o.dstAddr.toNat (nbytes w) ∧
      (completeOk (containerResults t (finish w)) o s).statOrig.toNat = utf8size t := by
  have hdst := o.dstCap.isLt
  have hsrc := o.srcLen.isLt
  have hsize := utf8size_le t
  have hmem : (completeOk (containerResults t (finish w)) o s).mem = s.mem.writeBytes o.dstAddr.toNat (finish w) := rfl
  rw [← length_finish] at hcap ⊢
  rw [hmem]
  refine ⟨toNat_ofNat_word (n := (finish w).length) (by omega), ?_, Memory.read_writeBytes_outside _ _ _,
    toNat_ofNat_word (n := utf8size t) (by omega)⟩
  rw [Memory.readBytes_writeBytes, readerOn_finish_eq_append_padding]

/-- More distinct symbols than the count field holds (43_huffman_codec.md R205). -/
theorem encodeContainer_too_many_symbols {t : List Nat} {F : List (Nat × Nat)} (cap : Nat) (len : List (Nat × Nat))
    (h : 65535 < F.length) : encodeContainer t cap F len = .error (raise0 .formatLimit) :=
  if_pos h

/-- A code longer than the length field holds (43_huffman_codec.md R205, 42_huffman_canonical.md R183). -/
theorem encodeContainer_long_code {t : List Nat} {F len : List (Nat × Nat)} (cap : Nat) (hF : F.length ≤ 65535)
    (h : ∃ p ∈ len, 31 < p.2) : encodeContainer t cap F len = .error (raise0 .codeLengthOverflow) := by
  rw [encodeContainer, if_neg (Nat.not_lt.2 hF), if_pos (by simpa using h)]

/-- More code bits than the bit count field holds (43_huffman_codec.md R205). -/
theorem encodeContainer_too_many_bits {t : List Nat} {F len : List (Nat × Nat)} (cap : Nat) (hF : F.length ≤ 65535)
    (hlens : ∀ p ∈ len, p.2 ≤ 31) (h : 0xFFFFFFFF < codeBits len t) :
    encodeContainer t cap F len = .error (raise0 .formatLimit) := by
  rw [encodeContainer, if_neg (Nat.not_lt.2 hF), if_neg (by simpa using hlens), if_pos h]

/-! ### What HUF_DECOMPRESS makes of a container -/

theorem hufDecompressBody_of_ok {o : Operands} {m : Memory} {out : List Nat}
    (h : hufDecompress (m.readBytes o.srcAddr.toNat o.srcLen.toNat) o.dstCap.toNat = .ok out) :
    hufDecompressBody o m = .ok (textResults out o.srcLen.toNat) := by
  simp only [hufDecompressBody, h]
  rfl

theorem hufDecompressBody_of_error {o : Operands} {m : Memory} {e : Raise}
    (h : hufDecompress (m.readBytes o.srcAddr.toNat o.srcLen.toNat) o.dstCap.toNat = .error e) :
    hufDecompressBody o m = .error e := by
  simp only [hufDecompressBody, h]

theorem hufDecompress_nil (cap : Nat) : hufDecompress [] cap = .ok [] := rfl

/-! ### The table of a defective container -/

/-- The reader of the table after good entries (43_huffman_codec.md R211). -/
theorem readEntries_tableBits_append {good len : List (Nat × Nat)} (n : Nat) (r : List Bool)
    (hkeys : DistinctKeys (len ++ good)) (h : ∀ p ∈ good, p.1 ≤ 0xFFFF ∧ 1 ≤ p.2 ∧ p.2 ≤ 31) :
    readEntries (good.length + n) len (tableBits good ++ r) = readEntries n (len ++ good) r := by
  induction good generalizing len with
  | nil => simp [tableBits]
  | cons p good ih =>
    obtain ⟨⟨hsym, hlow, hhigh⟩, hrest⟩ := List.forall_mem_cons.1 h
    have havail : ¬avail (bitsOf 16 p.1 ++ (bitsOf 5 p.2 ++ (tableBits good ++ r))) < 21 := by
      simp [avail]
      omega
    rw [List.length_cons, Nat.add_right_comm, tableBits_cons, List.append_assoc, List.append_assoc, readEntries,
      if_neg havail]
    simp only [get_bitsOf_append 16 p.1 _ (by omega), get_bitsOf_append 5 p.2 _ (by omega)]
    rw [if_neg (by omega), hkeys.isKey_eq_false, if_neg Bool.false_ne_true, ih (by simpa using hkeys) hrest,
      List.append_assoc, List.singleton_append]

/-- Too few bits for an entry (43_huffman_codec.md R211). -/
theorem readEntries_short {len : List (Nat × Nat)} {r : List Bool} (n : Nat) (h : r.length < 21) :
    readEntries (n + 1) len r = .error (raise0 .malformedContainer) :=
  if_pos h

/-- An entry of length 0, or of a symbol already seen (43_huffman_codec.md R211). -/
theorem readEntries_bad_entry {len : List (Nat × Nat)} {x m : Nat} (n : Nat) (r : List Bool) (hx : x ≤ 0xFFFF) (hm : m ≤ 31)
    (hbad : m = 0 ∨ x ∈ len.map Prod.fst) :
    readEntries (n + 1) len (bitsOf 16 x ++ bitsOf 5 m ++ r) = .error (raise0 .malformedContainer) := by
  rw [List.append_assoc, readEntries, if_neg (by simp [avail]; omega)]
  simp only [get_bitsOf_append 16 x _ (by omega), get_bitsOf_append 5 m _ (by omega)]
  rcases hbad with rfl | hkey
  · rw [if_pos rfl]
  · rw [(isKey_eq_true_iff len x).2 hkey]
    exact ite_self _

/-- An error of the entries is the table's (43_huffman_codec.md R211). -/
theorem readTable_of_readEntries_error {n : Nat} {r : List Bool} (hn : n ≤ 65535)
    (h : readEntries n [] r = .error (raise0 .malformedContainer)) :
    readTable (bitsOf 16 n ++ r) = .error (raise0 .malformedContainer) := by
  rw [readTable, if_neg (by simp [avail])]
  simp only [get_bitsOf_append 16 n _ (show n < 2 ^ 16 by omega), h]
  exact ite_self _

/-- No entries at all (43_huffman_codec.md R211). -/
theorem readTable_no_entries (r : List Bool) : readTable (bitsOf 16 0 ++ r) = .error (raise0 .malformedContainer) := by
  rw [readTable, if_neg (by simp [avail])]
  simp only [get_bitsOf_append 16 0 _ (by decide)]
  rfl

section Entries
variable {good : List (Nat × Nat)} (hkeys : DistinctKeys good) (hgood : ∀ p ∈ good, p.1 ≤ 0xFFFF ∧ 1 ≤ p.2 ∧ p.2 ≤ 31)
  (hcount : good.length ≤ 65535)
include hkeys hgood hcount

/-- Too few bits for the bit count after the entries (43_huffman_codec.md R211). -/
theorem readTable_short_count {r : List Bool} (h : r.length < 32) :
    readTable (bitsOf 16 good.length ++ (tableBits good ++ r)) = .error (raise0 .malformedContainer) := by
  have hread := readEntries_tableBits good [] r (by simpa using hkeys) hgood
  rw [readTable, if_neg (by simp [avail])]
  simp only [get_bitsOf_append 16 good.length _ (show good.length < 2 ^ 16 by omega), hread]
  rw [if_pos (show avail r < 32 from h), ite_self]

/-- The table after its entries and its bit count: it stands if there are entries, the code bits are there and the codes fit
(43_huffman_codec.md R211). -/
theorem readTable_entries {B : Nat} (code : List Bool) (hB : B ≤ 0xFFFFFFFF) :
    readTable (bitsOf 16 good.length ++ (tableBits good ++ (bitsOf 32 B ++ code))) =
      if good = [] ∨ code.length < B ∨ codesFit (canon good) = false then .error (raise0 .malformedContainer)
      else .ok (canon good, B, code) := by
  have hread := readEntries_tableBits good [] (bitsOf 32 B ++ code) (by simpa using hkeys) hgood
  rw [readTable, if_neg (by simp [avail])]
  simp only [get_bitsOf_append 16 good.length _ (show good.length < 2 ^ 16 by omega), hread]
  rw [if_neg (show ¬avail (bitsOf 32 B ++ code) < 32 by simp [avail])]
  simp only [get_bitsOf_append 32 B _ (show B < 2 ^ 32 by omega), avail, List.nil_append, Bool.not_eq_true',
    List.length_eq_zero_iff]
  rw [ite_or, ite_or]

end Entries

/-! ### Code bits that are no code -/

/-- Code bits that no entry's code begins match none (43_huffman_codec.md R212). -/
theorem matchCode_eq_none {T : List CodeEntry} {bs : List Bool} (h : ∀ e ∈ T, e.bits ≠ bs) :
    matchCode T bs.length (ofBits bs) = none := by
  refine List.find?_eq_none.2 fun e he hm => h e he ?_
  obtain ⟨hlen, hcode⟩ : e.len = bs.length ∧ e.code = ofBits bs := by simpa using hm
  rw [CodeEntry.bits, hlen, hcode, bitsOf_ofBits]

/-- The walk over bits that no code is a prefix of, after `seen` of them (43_huffman_codec.md R210, R212). -/
theorem walkBits_no_code {T : List CodeEntry} (cap : Nat) (seen bs : List Bool) (out : List Nat) (hne : seen ++ bs ≠ [])
    (h : ∀ e ∈ T, ¬e.bits <+: seen ++ bs) :
    walkBits T cap bs (ofBits seen) seen.length out = .error (raise0 .malformedContainer) := by
  induction bs generalizing seen with
  | nil => exact if_pos (by simpa using hne)
  | cons b bs ih =>
    have hsplit : seen ++ b :: bs = (seen ++ [b]) ++ bs := by simp
    have hacc : 2 * ofBits seen + b.toNat = ofBits (seen ++ [b]) := by simp [ofBits]
    have halen : seen.length + 1 = (seen ++ [b]).length := by simp
    rw [hsplit] at hne h
    have hnone : matchCode T (seen ++ [b]).length (ofBits (seen ++ [b])) = none :=
      matchCode_eq_none fun e he heq => h e he (heq ▸ List.prefix_append _ _)
    rw [walkBits, hacc, halen, hnone]
    simp only [ih _ hne h, ite_self]

/-- The walk over the code bits of a text that fits goes on after them. -/
theorem walkBits_textBits_append {T : List CodeEntry} {cap : Nat} {out : List Nat} (hT : T.Pairwise CodeEntry.Below)
    (hlens : ∀ e ∈ T, 1 ≤ e.len) (hfit : codesFit T = true) (t : List Nat) (rest : List Bool)
    (hmem : ∀ c ∈ t, c ∈ T.map CodeEntry.sym) (hcap : 4 * (out.length + t.length) ≤ cap) :
    walkBits T cap (textBits T t ++ rest) 0 0 out = walkBits T cap rest 0 0 (out ++ t) := by
  induction t generalizing out with
  | nil => simp
  | cons s t ih =>
    obtain ⟨hs, ht⟩ := List.forall_mem_cons.1 hmem
    obtain ⟨e, hentry, he, rfl⟩ := exists_entryOf hs
    rw [List.length_cons] at hcap
    rw [textBits_cons_of_entry hentry, List.append_assoc,
      walkBits_code cap hT he (hlens e he) ((codesFit_iff T).1 hfit e he), if_neg (by omega),
      ih ht (by simp; omega), List.append_assoc, List.singleton_append]

/-! ### The command on a defective container -/

theorem hufDecompress_of_readTable_error {bytes : List Byte} {e : Raise} (cap : Nat) (hne : bytes ≠ [])
    (h : readTable (readerOn bytes) = .error e) : hufDecompress bytes cap = .error e := by
  rw [hufDecompress, if_neg hne, h]

/-- Code bits that are a text's codes and then none (43_huffman_codec.md R212). -/
theorem hufDecompress_no_code {bytes : List Byte} {T : List CodeEntry} {out : List Nat} {cap : Nat} {part extra : List Bool}
    (hne : bytes ≠ [])
    (htable : readTable (readerOn bytes) =
      .ok (T, (textBits T out).length + part.length, textBits T out ++ part ++ extra))
    (hT : T.Pairwise CodeEntry.Below) (hlens : ∀ e ∈ T, 1 ≤ e.len) (hfit : codesFit T = true)
    (hmem : ∀ c ∈ out, c ∈ T.map CodeEntry.sym) (hcap : 4 * out.length ≤ cap) (hpart : part ≠ [])
    (hcode : ∀ e ∈ T, ¬e.bits <+: part) : hufDecompress bytes cap = .error (raise0 .malformedContainer) := by
  rw [hufDecompress, if_neg hne, htable]
  simp only [← List.length_append, List.take_left]
  rw [walkBits_textBits_append hT hlens hfit out part hmem (by simpa using hcap)]
  exact walkBits_no_code cap [] part _ hpart hcode

/-! ### The round trip -/

/-- Every symbol of a text has a length (43_huffman_codec.md R201, 41_huffman_tree.md R160). -/
theorem mem_map_fst_treeLengths_frequencies {t : List Nat} {c : Nat} (h : c ∈ t) :
    c ∈ (treeLengths (frequencies t)).map Prod.fst :=
  (map_fst_treeLengths_perm _).mem_iff.2 (List.mem_map_of_mem (mem_frequencies_iff.2 ⟨h, rfl⟩))

end Sys2Proof.Machine

namespace Sys2Proof
open Machine

/-- Settles O20: the empty text builds no tree; else the limits decide in their order, and within them the fields are written. -/
theorem hufCompressResult : Obligations.HufCompressResult := by
  rintro s l t E hready ht rfl
  have hkeys := distinctKeys_treeLengths (distinctKeys_frequencies t)
  have hlens {p : Nat × Nat} := (canonSort_perm (treeLengths (frequencies t))).mem_iff (a := p)
  simp only [hlens, canon_canonSort, length_textBits_canon hkeys]
  refine ⟨fun hnil => ?_, fun hne hsyms hcount hlen hbits hcap => ?_, fun hne hsyms => ?_⟩
  · have hbody := hufCompressBody_of_ok (o := l.operands) ht (by rw [hnil]; rfl)
    rw [hnil] at hbody
    exact ⟨_, exec_of_body_ok hready hbody, succeeded_completeOk _ _ _, sameOutside_completeOk _ _ _, rfl, rfl, rfl, rfl, rfl⟩
  · have hcontainer := encodeContainer_of_limits l.operands.dstCap.toNat (length_treeLengths _).symm hkeys
      (by simpa using hcount) hlen hbits
    rw [if_neg (Nat.not_lt.2 hcap), ← hufCompress_of_le _ hne hsyms] at hcontainer
    have hsrc : 4 * t.length ≤ l.operands.srcLen.toNat := by rw [ht, Memory.length_readWords]; omega
    obtain ⟨hdst, hread, hframe, horig⟩ := completeOk_containerResults s hcap hsrc
    refine ⟨_, exec_of_body_ok hready (hufCompressBody_of_ok ht hcontainer), succeeded_completeOk _ _ _,
      sameOutside_completeOk _ _ _, hdst, ?_, rfl, hread, hframe, horig, rfl⟩
    rw [hdst, nbytes_containerFields hkeys, length_treeLengths, length_frequencies]
  · have hraise {e : Err}
        (h : encodeContainer t l.operands.dstCap.toNat (frequencies t) (treeLengths (frequencies t)) = .error (raise0 e)) :
        ∃ u, exec .hufCompress s = .next u ∧ FailedWith e 0 u :=
      exec_of_body_error hready (hufCompressBody_of_error ht ((hufCompress_of_le _ hne hsyms).trans h))
    rw [← length_frequencies]
    exact ⟨fun hcount => hraise (encodeContainer_too_many_symbols _ _ hcount),
      fun hcount hlong => hraise (encodeContainer_long_code _ hcount hlong),
      fun hcount hlen hbits => hraise (encodeContainer_too_many_bits _ hcount hlen hbits)⟩

/-- Settles O21: no bytes are the empty text, and the bit walk over a container's code bits gives its text. -/
theorem hufDecompressResult : Obligations.HufDecompressResult := by
  intro s l hready
  refine ⟨fun hlen => ?_, fun entries out extra hne hcount hkeys hentries hfit hmem hbits hcap hbytes => ?_⟩
  · have hbody := hufDecompressBody_of_ok (o := l.operands) (m := s.mem) (out := []) (by rw [hlen]; rfl)
    refine ⟨_, exec_of_body_ok hready hbody, succeeded_completeOk _ _ _, sameOutside_completeOk _ _ _, rfl, rfl, rfl, rfl, ?_⟩
    rw [hlen]
    rfl
  · have hwords : ∀ c ∈ out, c < 4294967296 := fun c hc => by
      obtain ⟨p, hp, rfl⟩ := List.mem_map.1 (hmem c hc)
      have := (hentries p hp).1
      omega
    have hout := hufDecompress_containerFields l.operands.dstCap.toNat hne hcount hkeys hentries hfit hmem hbits hbytes
    rw [if_neg (Nat.not_lt.2 hcap)] at hout
    obtain ⟨hdst, htext, hframe, horig⟩ := completeOk_textResults l.operands.srcLen.toNat s hcap hwords
    exact ⟨_, exec_of_body_ok hready (hufDecompressBody_of_ok hout), succeeded_completeOk _ _ _, sameOutside_completeOk _ _ _,
      hdst, rfl, htext, hframe, horig, BitVec.ofNat_toNat ..⟩

/-- Settles O43: what was written is a well-formed container with its padding after it, which decodes to the text. -/
theorem huffmanRoundTrip : Obligations.HuffmanRoundTrip := by
  intro t cap cap' bytes h hcap
  obtain ⟨hempty, hfields⟩ := containerLayout.2.2 t cap bytes _ h rfl
  by_cases hne : t = []
  · rw [hempty hne, hne, hufDecompress_nil]
  · obtain ⟨hpos, hcount, hentries, hbits, hbytes⟩ := hfields hne
    have hkeys := ((canonSort_perm _).map Prod.fst).nodup_iff.2 (distinctKeys_treeLengths (distinctKeys_frequencies t))
    have hfit := codesFitExactlyByKraft.2.1 (frequencies t)
    rw [← canon_canonSort] at hfit
    have hmem : ∀ c ∈ t, c ∈ (canonSort (treeLengths (frequencies t))).map Prod.fst := fun c hc =>
      ((canonSort_perm _).map Prod.fst).mem_iff.2 (mem_map_fst_treeLengths_frequencies hc)
    rw [hufDecompress_containerFields cap' (List.ne_nil_of_length_pos hpos) hcount hkeys hentries hfit hmem hbits hbytes,
      if_neg (Nat.not_lt.2 hcap)]

/-- Settles O29: the reader of the table comes to the defect past good entries, or the walk past the text's codes. -/
theorem hufContainerErrors : Obligations.HufContainerErrors := by
  rintro s l bits hready hlen rfl
  have hne : s.mem.readBytes l.operands.srcAddr.toNat l.operands.srcLen.toNat ≠ [] := fun hnil => by
    have hzero := congrArg List.length hnil
    rw [Memory.length_readBytes] at hzero
    exact hlen (BitVec.eq_of_toNat_eq hzero)
  have hdecode (h : hufDecompress (s.mem.readBytes l.operands.srcAddr.toNat l.operands.srcLen.toNat)
        l.operands.dstCap.toNat = .error (raise0 .malformedContainer)) :
      ∃ u, exec .hufDecompress s = .next u ∧ FailedWith .malformedContainer 0 u :=
    exec_of_body_error hready (hufDecompressBody_of_error h)
  have htable (h : readTable (readerOn (s.mem.readBytes l.operands.srcAddr.toNat l.operands.srcLen.toNat)) =
      .error (raise0 .malformedContainer)) := hdecode (hufDecompress_of_readTable_error _ hne h)
  refine ⟨fun hshort => htable (if_pos hshort), fun n good rest hn hbits hle hkeys hgood => ?_⟩
  rw [List.append_assoc] at hbits
  have hentries {k : Nat} (hk : good.length + (k + 1) = n)
      (h : readEntries (k + 1) good rest = .error (raise0 .malformedContainer)) :
      ∃ u, exec .hufDecompress s = .next u ∧ FailedWith .malformedContainer 0 u := by
    refine htable (hbits ▸ readTable_of_readEntries_error hn ?_)
    rw [← hk, readEntries_tableBits_append _ _ (by simpa using hkeys) hgood, List.nil_append, h]
  refine ⟨?_, fun hlt hshort => ?_, fun x m rest' hlt hrest hx hm hbad => ?_, ?_, ?_, ?_⟩
  · rintro rfl
    exact htable (hbits ▸ readTable_no_entries _)
  · exact hentries (k := n - good.length - 1) (by omega) (readEntries_short _ hshort)
  · exact hentries (k := n - good.length - 1) (by omega) (hrest ▸ readEntries_bad_entry _ _ hx hm hbad)
  · rintro rfl hshort
    exact htable (hbits ▸ readTable_short_count hkeys hgood hn hshort)
  · rintro B code rfl rfl hB hbad
    refine htable (hbits ▸ (readTable_entries hkeys hgood hn code hB).trans (if_pos (.inr ?_)))
    refine hbad.imp_right fun hkraft => ?_
    rw [← Bool.not_eq_true]
    exact fun hfit => (kraftSum_le_one_of_codesFit hfit).not_gt hkraft
  · rintro out part extra rfl rfl hB hmem hcap hpart hcode
    rw [List.append_assoc, List.append_assoc] at hbits
    have hread := readTable_entries hkeys hgood hn (textBits (canon good) out ++ (part ++ extra)) hB
    rw [← hbits] at hread
    split_ifs at hread with hdefect
    · exact htable hread
    · rw [not_or, not_or, Bool.not_eq_false] at hdefect
      exact hdecode (hufDecompress_no_code hne (by rwa [List.append_assoc]) (canon_pairwise_below good)
        (fun e he => (hgood _ (mem_of_mem_canon he)).2.1) hdefect.2.2
        (fun c hc => (map_sym_canon_perm good).mem_iff.2 (hmem c hc)) hcap hpart hcode)

end Sys2Proof
end

section
/-! PROOFS. The first symbol a format cannot carry: HUF_COMPRESS's (43_huffman_codec.md R203) and the bitstream form's
(45_lz77_codec.md R262), with the place of a triple in its text (44_lz77_match.md R244, R245). -/

namespace Sys2Proof.Machine

/-! ### The symbol HUF_COMPRESS cannot carry -/

theorem firstAbove_append_cons {bound c : Nat} {good : List Nat} (k : Nat) (rest : List Nat) (h : ∀ x ∈ good, x ≤ bound)
    (hc : bound < c) : firstAbove bound k (good ++ c :: rest) = some (k + good.length) := by
  induction good generalizing k with
  | nil => exact if_pos hc
  | cons x good ih =>
    obtain ⟨hx, hgood⟩ := List.forall_mem_cons.1 h
    rw [List.cons_append, firstAbove, if_neg (Nat.not_lt.2 hx), ih _ hgood, List.length_cons]
    congr 1
    omega

theorem hufCompress_wide_symbol {good rest : List Nat} {c : Nat} (cap : Nat) (h : ∀ x ∈ good, x ≤ 0xFFFF) (hc : 0xFFFF < c) :
    hufCompress (good ++ c :: rest) cap = .error { err := .unrepresentableSymbol, pos := good.length } := by
  rw [hufCompress, firstAbove_append_cons 0 rest h hc, Nat.zero_add]

/-! ### The place of a triple in its text -/

/-- A triple's character is the symbol after its copy, and it has none where the copy ends the text (44_lz77_match.md R244). -/
theorem tripleAt_chr (t : List Nat) (w b i : Nat) : (tripleAt t w b i).chr = t[i + (tripleAt t w b i).len]? := by
  unfold tripleAt
  split
  split_ifs with hlen hend
  · rfl
  · exact (List.getElem?_eq_none (Nat.le_of_not_lt hend)).symm
  · rfl

/-- A character's index is where it stands in the text (44_lz77_match.md R244). -/
theorem tripleAt_cpos {t : List Nat} {w b i c : Nat} (h : (tripleAt t w b i).chr = some c) :
    (tripleAt t w b i).cpos = some (i + (tripleAt t w b i).len) := by
  unfold tripleAt at h ⊢
  cases hbest : bestMatch t w b i with
  | mk o L =>
    rw [hbest] at h
    dsimp only at h ⊢
    split_ifs at h ⊢
    · rfl
    · rfl

/-- A triple of the scan is that of its position, inside the text, and the scan goes on after its character
(44_lz77_match.md R245). -/
theorem triplesFrom_eq_cons {t : List Nat} {w b fuel i : Nat} {y : Triple} {ts : List Triple}
    (h : triplesFrom t w b fuel i = y :: ts) :
    i < t.length ∧ y = tripleAt t w b i ∧ ∃ fuel', triplesFrom t w b fuel' (i + y.len + 1) = ts := by
  cases fuel with
  | zero => cases h
  | succ fuel =>
    rw [triplesFrom] at h
    split_ifs at h with hi
    cases h
    exact ⟨hi, rfl, fuel, rfl⟩

/-- The position of a triple of the scan is the number of symbols that the triples before it produce, each of which has a
character (44_lz77_match.md R244, R245). -/
theorem triplesFrom_eq_append_cons {t : List Nat} {w b fuel : Nat} {good rest : List Triple} {x : Triple} {out : List Nat}
    (h : triplesFrom t w b fuel out.length = good ++ x :: rest) : x = tripleAt t w b (replayFrom out good).length := by
  induction good generalizing fuel out with
  | nil => exact (triplesFrom_eq_cons h).2.1
  | cons y good ih =>
    obtain ⟨-, hy, fuel', hrest⟩ := triplesFrom_eq_cons h
    obtain ⟨z, zs, hz⟩ := List.exists_cons_of_ne_nil (List.append_ne_nil_of_right_ne_nil good (List.cons_ne_nil x rest))
    have hnext : out.length + y.len + 1 < t.length := (triplesFrom_eq_cons (hrest.trans hz)).1
    obtain ⟨c, hc⟩ : ∃ c, t[out.length + y.len]? = some c := ⟨_, List.getElem?_eq_getElem (by omega)⟩
    have hchr : y.chr = some c := by rw [hy, tripleAt_chr, ← hy, hc]
    have hlen : (replay out y.off y.len y.chr).length = out.length + y.len + 1 := by
      rw [length_replay, hchr]
      rfl
    exact ih (hlen ▸ hrest)

/-- The character of a triple of a text is the text's symbol after the triples before it and its copy, at that index
(44_lz77_match.md R244). -/
theorem getElem?_and_cpos_of_triples {t : List Nat} {w b c : Nat} {good rest : List Triple} {x : Triple}
    (h : triples t w b = good ++ x :: rest) (hchr : x.chr = some c) :
    t[(replayAll good).length + x.len]? = some c ∧ x.cpos = some ((replayAll good).length + x.len) := by
  obtain rfl := triplesFrom_eq_append_cons (out := []) h
  rw [← replayAll_eq_replayFrom] at hchr ⊢
  exact ⟨(tripleAt_chr t w b _).symm.trans hchr, tripleAt_cpos hchr⟩

/-! ### The triple LZ_COMPRESS cannot carry -/

theorem emitBits_of_fits {w b cap : Nat} {wbits : List Bool} {y : Triple} (hnarrow : ∀ c, y.chr = some c → c ≤ 0xFF)
    (hcap : nbytes (wbits ++ tripleBits w b y) ≤ cap) : emitBits w b cap wbits y = .ok (wbits ++ tripleBits w b y) := by
  have hwide : wideChar y.chr = false := by
    cases hc : y.chr with
    | none => rfl
    | some c => simpa [wideChar] using hnarrow c hc
  rw [emitBits, hwide, if_neg Bool.false_ne_true, putTriple_eq, if_neg (Nat.not_lt.2 hcap)]

theorem emitText_of_fits {cap2 k : Nat} {tx : List Nat} {y : Triple} (hcap2 : 4 * (addToken k tx y).length ≤ cap2) :
    emitText cap2 k tx y = .ok (addToken k tx y) :=
  if_neg (Nat.not_lt.2 hcap2)

theorem nbytes_le_nbytes_append (as bs : List Bool) : nbytes as ≤ nbytes (as ++ bs) := by
  unfold nbytes ceilDiv
  rw [List.length_append]
  omega

theorem length_le_length_emittedText (k : Nat) (tx : List Nat) (ts : List Triple) :
    tx.length ≤ (emittedText k tx ts).length := by
  induction ts generalizing k tx with
  | nil => exact le_rfl
  | cons y ts ih =>
    have hadd : tx.length ≤ (addToken k tx y).length := by
      unfold addToken
      split <;> simp
    exact hadd.trans (ih _ _)

/-- The loop over triples whose characters and parts fit emits them, and goes on (45_lz77_codec.md R260). -/
theorem emitTriples_append {e : Emit} {w b cap cap2 k : Nat} {wbits : List Bool} {tx : List Nat} {good : List Triple}
    (ts : List Triple) (hnarrow : e.bits = true → Narrow good)
    (hcap : e.bits = true → nbytes (wbits ++ streamBits w b good) ≤ cap)
    (hcap2 : e.text = true → 4 * (emittedText k tx good).length ≤ cap2) :
    emitTriples e w b cap cap2 k wbits tx (good ++ ts) =
      emitTriples e w b cap cap2 (k + good.length) (if e.bits then wbits ++ streamBits w b good else wbits)
        (if e.text then emittedText k tx good else tx) ts := by
  induction good generalizing k wbits tx with
  | nil => simp [emittedText]
  | cons y good ih =>
    have hbits : (if e.bits then emitBits w b cap wbits y else .ok wbits) =
        .ok (if e.bits then wbits ++ tripleBits w b y else wbits) := by
      split
      case isTrue he =>
        refine emitBits_of_fits (hnarrow he y List.mem_cons_self) ((nbytes_le_nbytes_append _ (streamBits w b good)).trans ?_)
        simpa using hcap he
      case isFalse => rfl
    have htext : (if e.text then emitText cap2 k tx y else .ok tx) = .ok (if e.text then addToken k tx y else tx) := by
      split
      case isTrue he =>
        exact emitText_of_fits ((Nat.mul_le_mul_left 4 (length_le_length_emittedText _ _ _)).trans (hcap2 he))
      case isFalse => rfl
    rw [List.cons_append, emitTriples, hbits]
    simp only [htext]
    rw [ih (fun he z hz => hnarrow he z (List.mem_cons_of_mem _ hz)) (fun he => by simpa [he] using hcap he)
      (fun he => by simpa [he, emittedText] using hcap2 he), List.length_cons, Nat.add_right_comm k, Nat.add_assoc k]
    congr 1
    · cases e.bits <;> simp
    · cases e.text <;> rfl

/-- The loop stops at a triple whose character is too wide for the bitstream (45_lz77_codec.md R262). -/
theorem emitTriples_wide {e : Emit} {w b cap cap2 k c : Nat} {wbits : List Bool} {tx : List Nat} {x : Triple}
    (rest : List Triple) (he : e.bits = true) (hchr : x.chr = some c) (hc : 0xFF < c) :
    emitTriples e w b cap cap2 k wbits tx (x :: rest) =
      .error { err := .unrepresentableSymbol, pos := x.cpos.getD 0 } := by
  simp [emitTriples, emitBits, wideChar, he, hchr, hc]

/-- LZ_COMPRESS with the bitstream form stops at the first character too wide for it, if the triples before fit the capacities
in use (45_lz77_codec.md R260, R262). -/
theorem lzCompress_wide {e : Emit} {w b cap cap2 c : Nat} {t : List Nat} {good rest : List Triple} {x : Triple}
    (he : e.bits = true) (h : triples t w b = good ++ x :: rest) (hnarrow : Narrow good) (hchr : x.chr = some c)
    (hc : 0xFF < c) (hcap : nbytes (streamBits w b good) ≤ cap)
    (hcap2 : e.text = true → 4 * (tripleText good).length ≤ cap2) :
    lzCompress e w b cap cap2 t =
      .error { err := .unrepresentableSymbol, pos := (replayAll good).length + x.len } := by
  have hemit := emitTriples_append (e := e) (w := w) (b := b) (cap := cap) (cap2 := cap2) (k := 0) (wbits := []) (tx := [])
    (x :: rest) (fun _ => hnarrow) (fun _ => hcap) (by rwa [emittedText_zero])
  rw [emitTriples_wide rest he hchr hc, (getElem?_and_cpos_of_triples h hchr).2, Option.getD_some] at hemit
  rw [lzCompress, h, hemit]

theorem lzCompressBody_of_error {e : Emit} {o : Operands} {m : Memory} {x : Raise}
    (h : lzCompress e o.windowSize.toNat o.bufferSize.toNat o.dstCap.toNat o.dst2Cap.toNat
      (m.readWords o.srcAddr.toNat (o.srcLen.toNat / 4)) = .error x) : lzCompressBody e o m = .error x := by
  simp only [lzCompressBody, h]

end Sys2Proof.Machine

namespace Sys2Proof
open Machine

/-- Settles O28: the whole text is checked first, and the triple loop comes to the character past triples that fit. -/
theorem unrepresentableSymbolErrors : Obligations.UnrepresentableSymbolErrors := by
  refine ⟨fun s l good c rest hready ht hgood hc => ?_, ?_⟩
  · exact exec_of_body_error hready (hufCompressBody_of_error ht.symm (hufCompress_wide_symbol _ hgood hc))
  · rintro i s l t good x rest c pos hi hready rfl htriples hnarrow hchr hc rfl hcap hcap2
    refine ⟨(getElem?_and_cpos_of_triples htriples hchr).1, exec_of_body_error hready ?_⟩
    simp only [List.mem_cons, List.not_mem_nil, or_false] at hi
    rcases hi with rfl | rfl
    · exact lzCompressBody_of_error (lzCompress_wide rfl htriples hnarrow hchr hc hcap nofun)
    · exact lzCompressBody_of_error (lzCompress_wide rfl htriples hnarrow hchr hc hcap fun _ => hcap2 rfl)

end Sys2Proof
end

section
/-! PROOFS. The LZ77 match finder and triple generator (44_lz77_match.md R242 to R246): the match length is the longest run, the
window scan keeps the longest run and the most distant of the longest, and the replay of a text's triples (45_lz77_codec.md R265)
grows along the text itself. -/

namespace Sys2Proof.Machine

/-! ### The common run -/

@[simp] theorem commonRun_nil_left (cap : Nat) (ys : List Nat) : commonRun cap [] ys = 0 := by
  rw [commonRun]
  nofun

@[simp] theorem commonRun_nil_right (cap : Nat) (xs : List Nat) : commonRun cap xs [] = 0 := by
  cases xs <;> rfl

theorem commonRun_le (cap : Nat) (xs ys : List Nat) : commonRun cap xs ys ≤ min cap ys.length := by
  induction xs generalizing cap ys with
  | nil => simp
  | cons x xs ih =>
    cases ys with
    | nil => simp
    | cons y ys =>
      have htail := ih (cap - 1) ys
      rw [commonRun, List.length_cons]
      split_ifs <;> omega

theorem getElem?_eq_of_lt_commonRun {cap q : Nat} {xs ys : List Nat} (h : q < commonRun cap xs ys) : xs[q]? = ys[q]? := by
  induction xs generalizing cap ys q with
  | nil => simp at h
  | cons x xs ih =>
    cases ys with
    | nil => simp at h
    | cons y ys =>
      rw [commonRun] at h
      split_ifs at h with hcap hxy
      · omega
      · cases q with
        | zero => simp [hxy]
        | succ q => simpa using ih (Nat.lt_of_succ_lt_succ h)
      · omega

/-- The run ends only at the bound, at the end of the second sequence, or where the two differ. -/
theorem getElem?_commonRun_ne {cap : Nat} {xs ys : List Nat} (h : commonRun cap xs ys < min cap ys.length) :
    xs[commonRun cap xs ys]? ≠ ys[commonRun cap xs ys]? := by
  induction xs generalizing cap ys with
  | nil =>
    rw [commonRun_nil_left] at h ⊢
    simpa using List.length_pos_iff.1 (Nat.lt_min.1 h).2
  | cons x xs ih =>
    cases ys with
    | nil => simp at h
    | cons y ys =>
      rw [commonRun, List.length_cons] at h
      rw [commonRun]
      split_ifs at h ⊢ with hcap hxy
      · omega
      · simpa using ih (cap := cap - 1) (ys := ys) (by omega)
      · simpa using hxy

/-! ### The match length -/

theorem matchLength_le (t : List Nat) (b i j : Nat) : matchLength t b i j ≤ min b (t.length - i) := by
  simpa [matchLength] using commonRun_le b (t.drop j) (t.drop i)

theorem getElem?_eq_of_lt_matchLength {t : List Nat} {b i j q : Nat} (h : q < matchLength t b i j) :
    t[j + q]? = t[i + q]? := by
  simpa using getElem?_eq_of_lt_commonRun h

theorem getElem?_matchLength_ne {t : List Nat} {b i j : Nat} (h : matchLength t b i j < min b (t.length - i)) :
    t[j + matchLength t b i j]? ≠ t[i + matchLength t b i j]? := by
  rw [← List.length_drop] at h
  simpa [matchLength] using getElem?_commonRun_ne h

/-! ### The window scan -/

/-- `best` is the longest match of position `i` over the window positions in `[lo, hi)`, the first of the longest; offset 0 and
length 0 where none matches (44_lz77_match.md R243). -/
structure IsBestOver (t : List Nat) (b i lo hi : Nat) (best : Nat × Nat) : Prop where
  longest : ∀ j, lo ≤ j → j < hi → matchLength t b i j ≤ best.2
  off_eq_zero : best.2 = 0 → best.1 = 0
  first : 0 < best.2 → ∃ j, lo ≤ j ∧ j < hi ∧ best.1 = i - j ∧ matchLength t b i j = best.2 ∧
    ∀ j', lo ≤ j' → j' < j → matchLength t b i j' < best.2

theorem isBestOver_empty (t : List Nat) (b i lo : Nat) : IsBestOver t b i lo lo (0, 0) :=
  ⟨fun _ hlo hhi => absurd hlo (Nat.not_le.2 hhi), fun _ => rfl, nofun⟩

/-- One more window position keeps the best: strict improvement only, so an earlier position wins a tie. -/
theorem IsBestOver.succ {t : List Nat} {b i lo hi : Nat} {best : Nat × Nat} (h : IsBestOver t b i lo hi best)
    (hle : lo ≤ hi) : IsBestOver t b i lo (hi + 1) (improve t b i best hi) := by
  unfold improve
  split_ifs with hlt
  · have hold : ∀ j, lo ≤ j → j < hi → matchLength t b i j < matchLength t b i hi := fun j hlo hhi =>
      (h.longest j hlo hhi).trans_lt hlt
    refine ⟨fun j hlo hhi => ?_, fun h0 => absurd h0 (Nat.ne_of_gt (Nat.zero_lt_of_lt hlt)),
      fun _ => ⟨hi, hle, Nat.lt_succ_self hi, rfl, rfl, hold⟩⟩
    rcases Nat.lt_succ_iff_lt_or_eq.1 hhi with hhi | rfl
    · exact (hold j hlo hhi).le
    · exact le_rfl
  · refine ⟨fun j hlo hhi => ?_, h.off_eq_zero, fun hpos => ?_⟩
    · rcases Nat.lt_succ_iff_lt_or_eq.1 hhi with hhi | rfl
      · exact h.longest j hlo hhi
      · exact Nat.le_of_not_lt hlt
    · obtain ⟨j, hlo, hhi, hrest⟩ := h.first hpos
      exact ⟨j, hlo, Nat.lt_succ_of_lt hhi, hrest⟩

theorem isBestOver_foldl_range' (t : List Nat) (b i lo n : Nat) :
    IsBestOver t b i lo (lo + n) ((List.range' lo n).foldl (improve t b i) (0, 0)) := by
  induction n with
  | zero => exact isBestOver_empty t b i lo
  | succ n ih =>
    rw [List.range'_1_concat, List.foldl_append]
    exact ih.succ (Nat.le_add_right lo n)

theorem isBestOver_bestMatch (t : List Nat) (w b i : Nat) : IsBestOver t b i (i - w) i (bestMatch t w b i) := by
  have h := isBestOver_foldl_range' t b i (i - w) (i - (i - w))
  rwa [Nat.add_sub_cancel' (Nat.sub_le i w)] at h

/-- A match that is not empty stands in the window at its offset, and every more distant match is shorter
(44_lz77_match.md R243). -/
theorem bestMatch_off {t : List Nat} {w b i : Nat} (h : 0 < (bestMatch t w b i).2) :
    1 ≤ (bestMatch t w b i).1 ∧ (bestMatch t w b i).1 ≤ min i w ∧
      matchLength t b i (i - (bestMatch t w b i).1) = (bestMatch t w b i).2 ∧
      ∀ j, i - w ≤ j → j < i - (bestMatch t w b i).1 → matchLength t b i j < (bestMatch t w b i).2 := by
  obtain ⟨j, hlo, hhi, hoff, hlen, hfirst⟩ := (isBestOver_bestMatch t w b i).first h
  have hj : i - (bestMatch t w b i).1 = j := by omega
  exact ⟨by omega, by omega, hj ▸ hlen, hj ▸ hfirst⟩

theorem bestMatch_off_le (t : List Nat) (w b i : Nat) : (bestMatch t w b i).1 ≤ min i w := by
  rcases Nat.eq_zero_or_pos (bestMatch t w b i).2 with h | h
  · rw [(isBestOver_bestMatch t w b i).off_eq_zero h]
    exact Nat.zero_le _
  · obtain ⟨-, hoff, -⟩ := bestMatch_off h
    exact hoff

theorem bestMatch_len_le (t : List Nat) (w b i : Nat) : (bestMatch t w b i).2 ≤ min b (t.length - i) := by
  rcases Nat.eq_zero_or_pos (bestMatch t w b i).2 with h | h
  · rw [h]
    exact Nat.zero_le _
  · obtain ⟨-, -, hlen, -⟩ := bestMatch_off h
    exact hlen ▸ matchLength_le t b i _

/-! ### The triple of a position -/

/-- A triple's copy is the best match of its position, the empty one too (44_lz77_match.md R244). -/
theorem tripleAt_copy (t : List Nat) (w b i : Nat) :
    ((tripleAt t w b i).off, (tripleAt t w b i).len) = bestMatch t w b i := by
  have hzero := (isBestOver_bestMatch t w b i).off_eq_zero
  unfold tripleAt
  cases hbest : bestMatch t w b i with
  | mk o L =>
    rw [hbest] at hzero
    dsimp only at hzero ⊢
    split_ifs with hlen hend
    · rfl
    · rfl
    · obtain rfl := Nat.eq_zero_of_not_pos hlen
      rw [hzero rfl]

theorem tripleAt_off (t : List Nat) (w b i : Nat) : (tripleAt t w b i).off = (bestMatch t w b i).1 :=
  congrArg Prod.fst (tripleAt_copy t w b i)

theorem tripleAt_len (t : List Nat) (w b i : Nat) : (tripleAt t w b i).len = (bestMatch t w b i).2 :=
  congrArg Prod.snd (tripleAt_copy t w b i)

theorem tripleAt_len_eq_zero_iff (t : List Nat) (w b i : Nat) :
    (tripleAt t w b i).len = 0 ↔ (tripleAt t w b i).off = 0 := by
  rw [tripleAt_len, tripleAt_off]
  refine ⟨(isBestOver_bestMatch t w b i).off_eq_zero, fun hoff => ?_⟩
  by_contra hlen
  obtain ⟨hpos, -⟩ := bestMatch_off (Nat.pos_of_ne_zero hlen)
  omega

/-- A triple of a text position without a character has no index either. -/
theorem tripleAt_cpos_of_chr_eq_none {t : List Nat} {w b i : Nat} (hi : i < t.length)
    (h : (tripleAt t w b i).chr = none) : (tripleAt t w b i).cpos = none := by
  unfold tripleAt at h ⊢
  split at h
  split_ifs at h ⊢ with hlen hend
  · exact absurd h (by simp [hend])
  · rfl
  · exact absurd h (by simp [hi])

/-! ### The replay along the text -/

/-- Copying from an earlier place of the text that reads as the text at the write cursor continues the text, also where the copy
runs past the cursor (44_lz77_match.md R242, 45_lz77_codec.md R265). -/
theorem copyBack_take {t : List Nat} {o L i : Nat} (ho : 1 ≤ o) (hoi : o ≤ i) (hL : i + L ≤ t.length)
    (h : ∀ q, q < L → t[i - o + q]? = t[i + q]?) : copyBack o L (t.take i) = t.take (i + L) := by
  induction L generalizing i with
  | zero => rfl
  | succ L ih =>
    have hi : i < t.length := by omega
    have hsym : (t.take i).getD ((t.take i).length - o) 0 = t[i] := by
      have h0 : t[i - o]? = some t[i] := (h 0 L.succ_pos).trans (List.getElem?_eq_getElem hi)
      rw [List.length_take_of_le hi.le, List.getD_eq_getElem?_getD, List.getElem?_take_of_lt (by omega), h0, Option.getD_some]
    have hnext : ∀ q, q < L → t[i + 1 - o + q]? = t[i + 1 + q]? := fun q hq => by
      have hq := h (q + 1) (Nat.succ_lt_succ hq)
      rwa [show i - o + (q + 1) = i + 1 - o + q by omega, show i + (q + 1) = i + 1 + q by omega] at hq
    rw [copyBack, hsym, ← List.take_succ_eq_append_getElem hi, ih (by omega) (by omega) hnext, Nat.add_assoc, Nat.add_comm 1]

/-- The triple of position `i` extends the text before `i` by its copy and its character (44_lz77_match.md R244, R245). -/
theorem replay_tripleAt {t : List Nat} {w b i : Nat} (hi : i < t.length) :
    replay (t.take i) (tripleAt t w b i).off (tripleAt t w b i).len (tripleAt t w b i).chr =
      t.take (i + (tripleAt t w b i).len + 1) := by
  have hcopy : copyBack (tripleAt t w b i).off (tripleAt t w b i).len (t.take i) = t.take (i + (tripleAt t w b i).len) := by
    rw [tripleAt_off, tripleAt_len]
    rcases Nat.eq_zero_or_pos (bestMatch t w b i).2 with hlen | hlen
    · rw [hlen]
      rfl
    · obtain ⟨hpos, hoff, hmatch, -⟩ := bestMatch_off hlen
      have hle := bestMatch_len_le t w b i
      exact copyBack_take hpos (by omega) (by omega) fun q hq => getElem?_eq_of_lt_matchLength (hmatch ▸ hq)
  rw [replay, hcopy, tripleAt_chr, List.take_add_one]

theorem triplesFrom_of_length_le {t : List Nat} {w b i : Nat} (fuel : Nat) (h : t.length ≤ i) :
    triplesFrom t w b fuel i = [] := by
  cases fuel with
  | zero => rfl
  | succ fuel => exact if_neg (Nat.not_lt.2 h)

/-- With turns enough for the rest of the text, the scan ends only at the end of the text. -/
theorem length_le_of_triplesFrom_eq_nil {t : List Nat} {w b fuel i : Nat} (hfuel : t.length ≤ i + fuel)
    (h : triplesFrom t w b fuel i = []) : t.length ≤ i := by
  cases fuel with
  | zero => exact hfuel
  | succ fuel =>
    by_contra hi
    rw [triplesFrom, if_pos (Nat.lt_of_not_le hi)] at h
    cases h

/-- The first triples of a scan replay to the text up to some position, and the triples left are the scan's from there, with
turns enough for the rest of the text (44_lz77_match.md R245). -/
theorem exists_position_of_triplesFrom_eq_append {t : List Nat} {w b fuel i : Nat} {good rest : List Triple}
    (hfuel : t.length ≤ i + fuel) (h : triplesFrom t w b fuel i = good ++ rest) :
    ∃ fuel' j, t.length ≤ j + fuel' ∧ replayFrom (t.take i) good = t.take j ∧ triplesFrom t w b fuel' j = rest := by
  induction good generalizing fuel i with
  | nil => exact ⟨fuel, i, hfuel, rfl, h⟩
  | cons y good ih =>
    cases fuel with
    | zero => cases h
    | succ fuel =>
      rw [triplesFrom] at h
      split_ifs at h with hi
      · obtain ⟨rfl, htail⟩ := List.cons.inj h
        rw [replayFrom_cons, replay_tripleAt hi]
        exact ih (by omega) htail
      · cases h

/-- A triple of a text is that of the position in the text up to which the triples before it replay, and it is the last where its
copy reaches the end of the text (44_lz77_match.md R244, R245). -/
theorem exists_position_of_triples {t : List Nat} {w b : Nat} {good rest : List Triple} {x : Triple}
    (h : triples t w b = good ++ x :: rest) :
    ∃ i, i < t.length ∧ x = tripleAt t w b i ∧ replayAll good = t.take i ∧ (t.length ≤ i + x.len → rest = []) := by
  obtain ⟨fuel, i, -, hreplay, hscan⟩ := exists_position_of_triplesFrom_eq_append (t.length.le_add_left 0) h
  obtain ⟨hi, hx, fuel', hrest⟩ := triplesFrom_eq_cons hscan
  refine ⟨i, hi, hx, hreplay, fun hend => ?_⟩
  rw [← hrest, triplesFrom_of_length_le fuel' (Nat.le_succ_of_le hend)]

end Sys2Proof.Machine

namespace Sys2Proof
open Machine

/-- Settles O46: the triples replay to the text up to the position where the scan ends, and it ends at the end of the text. -/
theorem replayOfTriples : Obligations.ReplayOfTriples := by
  intro t w b
  obtain ⟨fuel, i, hfuel, hreplay, hend⟩ := exists_position_of_triplesFrom_eq_append (t.length.le_add_left 0)
    (List.append_nil (triples t w b)).symm
  exact hreplay.trans (List.take_of_length_le (length_le_of_triplesFrom_eq_nil hfuel hend))

/-- Settles O44: the run ends only where it must, and the scan's invariant at the end of the window. -/
theorem bestMatchIsLongestMostDistant : Obligations.BestMatchIsLongestMostDistant := by
  refine ⟨fun t b i j _ => ⟨matchLength_le t b i j, fun q => getElem?_eq_of_lt_matchLength, getElem?_matchLength_ne⟩,
    fun t w b i o L hbest => ?_⟩
  have hscan := isBestOver_bestMatch t w b i
  have hoff := bestMatch_off (t := t) (w := w) (b := b) (i := i)
  rw [hbest] at hscan hoff
  exact ⟨hscan.longest, hscan.off_eq_zero, hoff⟩

/-- Settles O45: the triple of index `k` is that of the position up to which the triples before it replay the text. -/
theorem tripleInvariants : Obligations.TripleInvariants := by
  intro t w b k x hx
  obtain ⟨hk, rfl⟩ := List.getElem?_eq_some_iff.1 hx
  have hsplit : triples t w b = (triples t w b).take k ++ (triples t w b)[k] :: (triples t w b).drop (k + 1) := by
    rw [List.getElem_cons_drop, List.take_append_drop]
  have hchar := fun c => getElem?_and_cpos_of_triples (c := c) hsplit
  obtain ⟨i, hi, hx, hreplay, hlast⟩ := exists_position_of_triples hsplit
  rw [hreplay, List.length_take_of_le hi.le] at hchar ⊢
  have hoff := tripleAt_off t w b i ▸ bestMatch_off_le t w b i
  have hlen := tripleAt_len t w b i ▸ bestMatch_len_le t w b i
  rw [hx] at hchar hlast ⊢
  refine ⟨tripleAt_len_eq_zero_iff t w b i, by omega, by omega, by omega, fun hnone => ?_, hchar⟩
  have hend : t.length ≤ i + (tripleAt t w b i).len := List.getElem?_eq_none_iff.1 ((tripleAt_chr t w b i).symm.trans hnone)
  have hdrop := List.drop_eq_nil_iff.1 (hlast hend)
  exact ⟨by omega, tripleAt_cpos_of_chr_eq_none hi hnone, by omega⟩

end Sys2Proof
end

section
/-! PROOFS. What the LZ77 decoders make of a well-formed bitstream (45_lz77_codec.md R270 to R276) and of a well-formed triple text
(R280 to R282, 30_encoding.md R122): the replay of its triples. -/

namespace Sys2Proof.Machine

/-! ### The symbols of a replay -/

/-- A copy appends symbols of its output; 0 stands for a place before the output, which no triple that fits reaches. -/
theorem mem_copyBack {o L x : Nat} {out : List Nat} (h : x ∈ copyBack o L out) : x ∈ out ∨ x = 0 := by
  induction L generalizing out with
  | zero => exact .inl h
  | succ L ih =>
    rcases ih h with h | h
    · rcases List.mem_append.1 h with h | h
      · exact .inl h
      · rw [List.mem_singleton.1 h, List.getD_eq_getElem?_getD]
        cases hget : out[out.length - o]? with
        | none => exact .inr rfl
        | some y => exact .inl (List.mem_of_getElem? hget)
    · exact .inr h

/-- Symbols below a bound replay to symbols below it. -/
theorem lt_of_mem_replayFrom {N x : Nat} {out : List Nat} {ts : List Triple} (hN : 0 < N) (hout : ∀ y ∈ out, y < N)
    (hchr : ∀ t ∈ ts, ∀ c, t.chr = some c → c < N) (h : x ∈ replayFrom out ts) : x < N := by
  induction ts generalizing out with
  | nil => exact hout x h
  | cons t ts ih =>
    obtain ⟨ht, hts⟩ := List.forall_mem_cons.1 hchr
    refine ih (fun y hy => ?_) hts h
    rcases List.mem_append.1 hy with hy | hy
    · rcases mem_copyBack hy with hy | rfl
      · exact hout y hy
      · exact hN
    · exact ht y (Option.mem_toList.1 hy)

theorem lt_of_mem_replayAll {N x : Nat} {ts : List Triple} (hN : 0 < N) (hchr : ∀ t ∈ ts, ∀ c, t.chr = some c → c < N)
    (h : x ∈ replayAll ts) : x < N :=
  lt_of_mem_replayFrom hN (fun _ hy => absurd hy List.not_mem_nil) hchr h

theorem replayAll_append_singleton (as : List Triple) (t : Triple) :
    replayAll (as ++ [t]) = replay (replayAll as) t.off t.len t.chr := by
  rw [replayAll_eq_replayFrom, replayFrom_append]
  rfl

/-! ### The bits after the last triple -/

theorem headerBits_zero (w b : Nat) : headerBits w b 0 0 0 = List.replicate (headerWidth w b) false := by
  have hbits : ∀ L, bitsOf L 0 = List.replicate L false := fun L => by
    induction L with
    | zero => rfl
    | succ L ih => rw [bitsOf, ih, Nat.zero_testBit, List.replicate_succ]
  simp only [headerBits, hbits, List.replicate_append_replicate, headerWidth, offsetWidth, lengthWidth]

/-- Bits after the last triple, fewer than a character, append nothing: they are no header, or zeros that each time stand for a
literal without a character (45_lz77_codec.md R275, R276). -/
theorem decodeTriples_leftover {w b cap fuel k : Nat} {r : List Bool} {out : List Nat} (hbyte : r.length < 8)
    (hr : r.length < headerWidth w b ∨ ∀ y ∈ r, y = false) (hcap : 4 * out.length ≤ cap) :
    decodeTriples w b cap fuel k r out = .ok out := by
  induction fuel generalizing k r with
  | zero => exact if_neg (Nat.not_le.2 hbyte)
  | succ fuel ih =>
    by_cases hshort : r.length < headerWidth w b
    · rw [decodeTriples_short hshort]
      exact if_neg (Nat.not_le.2 hbyte)
    · have hzero := hr.resolve_left hshort
      obtain ⟨n, hn⟩ := Nat.exists_eq_add_of_le (Nat.le_of_not_lt hshort)
      have hsplit : r = headerBits w b 0 0 0 ++ List.replicate n false := by
        rw [headerBits_zero, List.replicate_append_replicate, ← hn]
        exact List.eq_replicate_of_mem hzero
      have hn8 : n < 8 := by omega
      have hfits : HeaderFits w b 0 0 0 := ⟨Nat.zero_le 1, Nat.two_pow_pos _, Nat.two_pow_pos _⟩
      have hchr : readChar (headerWidth w b) (List.replicate n false) = (none, List.replicate n false) :=
        if_pos (by simpa [avail] using hn8)
      have hout : replay out (decodeOffset w 0 0) 0 none = out := List.append_nil out
      rw [hsplit, decodeTriples_headerBits hfits (by simp [checkTriple, decodeOffset]) hchr,
        if_neg (by simpa [tripleSize] using hcap), hout]
      exact ih (by simpa using hn8) (.inr fun y hy => List.eq_of_mem_replicate hy)

/-! ### A well-formed bitstream -/

theorem StreamFits.narrow {w b : Nat} {out : List Nat} {ts : List Triple} (h : StreamFits w b out ts) : Narrow ts := by
  induction ts generalizing out with
  | nil => exact fun _ hx => absurd hx List.not_mem_nil
  | cons t ts ih =>
    obtain ⟨-, -, -, -, hchr, -, hrest⟩ := h
    exact List.forall_mem_cons.2 ⟨hchr, ih hrest⟩

/-- What a bitstream's decoder makes of its triples and the bits after them: their replay, less a final U+0000 that fewer bits
than a header follow (45_lz77_codec.md R273). -/
def streamText (w b : Nat) (ts : List Triple) (extra : List Bool) : List Nat :=
  if endsWithNul ts = true ∧ extra.length < headerWidth w b then (replayAll ts).dropLast else replayAll ts

theorem mem_replayAll_of_mem_streamText {w b x : Nat} {ts : List Triple} {extra : List Bool}
    (h : x ∈ streamText w b ts extra) : x ∈ replayAll ts := by
  unfold streamText at h
  split at h
  · exact List.mem_of_mem_dropLast h
  · exact h

theorem length_streamText_le (w b : Nat) (ts : List Triple) (extra : List Bool) :
    (streamText w b ts extra).length ≤ (replayAll ts).length := by
  unfold streamText
  split
  · rw [List.length_dropLast]
    exact Nat.sub_le _ _
  · exact le_rfl

/-- The character that the decoder reads for the last triple (45_lz77_codec.md R273). -/
def lastChr (w b : Nat) (t : Triple) (extra : List Bool) : Option Nat :=
  if t.chr = some 0 ∧ extra.length < headerWidth w b then none else t.chr

theorem streamText_append_singleton (w b : Nat) (as : List Triple) (t : Triple) (extra : List Bool) :
    streamText w b (as ++ [t]) extra = replay (replayAll as) t.off t.len (lastChr w b t extra) := by
  have hnul : endsWithNul (as ++ [t]) = (t.chr == some 0) := endsWithNul_append_cons as t []
  simp only [streamText, lastChr, hnul, beq_iff_eq, replayAll_append_singleton]
  split_ifs with hdrop
  · rw [hdrop.1]
    simp [replay]
  · rfl

/-- The last turn of the decoder's loop, on the last triple of a stream (45_lz77_codec.md R273). -/
theorem decodeTriples_last {w b cap fuel k : Nat} {t : Triple} {extra : List Bool} {out : List Nat}
    (ht : TripleFits w b out.length t) (hbyte : extra.length < 8)
    (hextra : extra.length < headerWidth w b ∨ ∀ y ∈ extra, y = false)
    (hcap : 4 * (replay out t.off t.len (lastChr w b t extra)).length ≤ cap) :
    decodeTriples w b cap (fuel + 1) k (tripleBits w b t ++ extra) out =
      .ok (replay out t.off t.len (lastChr w b t extra)) := by
  unfold lastChr at hcap ⊢
  split_ifs at hcap ⊢ with hdrop
  · obtain ⟨hchr, hshort⟩ := hdrop
    rw [decodeTriples_nul_dropped ht hchr hshort (length_replay out t.off t.len none ▸ hcap),
      decodeTriples_leftover hbyte hextra hcap]
  · have hkept : ChrKept w b t extra :=
      ⟨fun hchr => Nat.le_of_not_lt fun hshort => hdrop ⟨hchr, hshort⟩, fun _ => hbyte⟩
    rw [decodeTriples_tripleBits ht hkept, if_neg (Nat.not_lt.2 hcap), decodeTriples_leftover hbyte hextra hcap]

/-- LZ_DECOMPRESS_BITS on the bitstream of a triple sequence (45_lz77_codec.md R270 to R276). -/
theorem lzDecompressBits_stream {w b cap : Nat} {bytes : List Byte} {ts : List Triple} {extra : List Bool}
    (hfits : StreamFits w b [] ts) (hbytes : readerOn bytes = streamBits w b ts ++ extra) (hbyte : extra.length < 8)
    (hextra : extra.length < headerWidth w b ∨ ∀ y ∈ extra, y = false)
    (hcap : 4 * (streamText w b ts extra).length ≤ cap) :
    lzDecompressBits w b cap bytes = .ok (streamText w b ts extra) := by
  rcases List.eq_nil_or_concat' ts with rfl | ⟨as, t, rfl⟩
  · rw [lzDecompressBits, hbytes]
    exact decodeTriples_leftover hbyte hextra hcap
  · obtain ⟨has, hsome, ht⟩ := hfits.of_append
    rw [streamText_append_singleton] at hcap ⊢
    have hprefix : 4 * (replayAll as).length ≤ cap := by
      rw [length_replay] at hcap
      omega
    rw [streamBits_append, streamBits_cons, streamBits_nil, List.append_nil, List.append_assoc] at hbytes
    obtain ⟨fuel, hrun⟩ := lzDecompressBits_at_header has hsome hprefix hbytes
      (by rw [tripleBits_eq_headerBits, List.append_assoc])
    rw [hrun, ← List.append_assoc, ← tripleBits_eq_headerBits]
    exact decodeTriples_last ht.head hbyte hextra hcap

/-! ### A well-formed triple text -/

/-- The characters of a text's triples are symbols of it (30_encoding.md R122). -/
theorem TextOf.chr_mem {x : List Nat} {ts : List Triple} {t : Triple} {c : Nat} (h : TextOf x ts) (ht : t ∈ ts)
    (hc : t.chr = some c) : c ∈ x := by
  obtain ⟨as, bs, rfl⟩ := List.append_of_mem ht
  obtain ⟨before, tok, rest, -, ⟨o, l, -, -, rfl⟩, rfl, -⟩ := h.split
  simp [hc]

/-- LZ_DECOMPRESS_TEXT on a text of the grammar (45_lz77_codec.md R280, R281). -/
theorem lzDecompressText_textOf {cap : Nat} {x : List Nat} {ts : List Triple} (hfits : TokensFit [] ts) (hx : TextOf x ts)
    (hcap : 4 * (replayAll ts).length ≤ cap) : lzDecompressText cap x = .ok (replayAll ts) := by
  rcases List.eq_nil_or_concat' ts with rfl | ⟨as, t, rfl⟩
  · obtain ⟨toks, htoks, rfl⟩ := hx
    cases htoks
    rfl
  · obtain ⟨before, tok, hbefore, htok, rfl⟩ := hx.last
    obtain ⟨has, ht⟩ := hfits.of_append
    rw [replayAll_append_singleton] at hcap ⊢
    have hprefix : 4 * (replayAll as).length ≤ cap := by
      rw [length_replay] at hcap
      omega
    have hne : before ++ tok ≠ [] := List.append_ne_nil_of_right_ne_nil _ (List.ne_nil_of_length_pos htok.length_pos)
    have hfit : TokenFits (replayAll as).length t := ht.head
    obtain ⟨fuel, hrun⟩ := lzDecompressText_at_token hne rfl has hprefix hbefore htok (List.append_nil tok).symm
    rw [hrun, decodeTokens_isToken htok (fun _ => by simp) hfit, if_neg (Nat.not_lt.2 hcap)]

/-! ### The commands -/

theorem lzDecompressBitsBody_of_ok {o : Operands} {m : Memory} {out : List Nat}
    (h : lzDecompressBits o.windowSize.toNat o.bufferSize.toNat o.dstCap.toNat
      (m.readBytes o.srcAddr.toNat o.srcLen.toNat) = .ok out) :
    lzDecompressBitsBody o m = .ok (textResults out o.srcLen.toNat) := by
  simp only [lzDecompressBitsBody, h]
  rfl

theorem lzDecompressTextBody_of_ok {o : Operands} {m : Memory} {x out : List Nat}
    (hx : x = m.readWords o.srcAddr.toNat (o.srcLen.toNat / 4)) (h : lzDecompressText o.dstCap.toNat x = .ok out) :
    lzDecompressTextBody o m = .ok (textResults out (utf8size x)) := by
  subst hx
  simp only [lzDecompressTextBody, h]
  rfl

/-- The UTF-8 size of a source text fits a register. -/
theorem toNat_utf8size_readWords (m : Memory) (a : Nat) (len : Word) :
    (BitVec.ofNat 32 (utf8size (m.readWords a (len.toNat / 4)))).toNat = utf8size (m.readWords a (len.toNat / 4)) := by
  have hsize := utf8size_le (m.readWords a (len.toNat / 4))
  rw [Memory.length_readWords] at hsize
  exact toNat_ofNat_word (by omega)

end Sys2Proof.Machine

namespace Sys2Proof
open Machine

/-- Settles O23: the loop replays the triples before the last, then the last with the character its leftover bits leave it, and
the leftover bits append nothing. -/
theorem lzDecompressBitsResult : Obligations.LzDecompressBitsResult := by
  rintro s l w b ts extra out hready rfl rfl hfits hbytes hbyte hextra hout hcap
  change out = streamText _ _ ts extra at hout
  subst hout
  have hwords : ∀ c ∈ replayAll ts, c < 4294967296 := fun c =>
    lt_of_mem_replayAll (by decide) fun t ht d hd => Nat.lt_of_le_of_lt (hfits.narrow t ht d hd) (by decide)
  have hrun := lzDecompressBits_stream hfits hbytes hbyte hextra hcap
  obtain ⟨hdst, htext, hframe, horig⟩ := completeOk_textResults l.operands.srcLen.toNat s hcap fun c hc =>
    hwords c (mem_replayAll_of_mem_streamText hc)
  exact ⟨_, exec_of_body_ok hready (lzDecompressBitsBody_of_ok hrun), succeeded_completeOk _ _ _, sameOutside_completeOk _ _ _,
    hdst, rfl, htext, hframe, horig, BitVec.ofNat_toNat ..⟩

/-- Settles O24: the loop replays the tokens before the last, then the last, after which the text ends. -/
theorem lzDecompressTextResult : Obligations.LzDecompressTextResult := by
  intro s l x ts hready hfits hread hx hcap
  have hwords : ∀ c ∈ replayAll ts, c < 4294967296 := fun c =>
    lt_of_mem_replayAll (by decide) fun t ht d hd => s.mem.readWords_lt _ _ d (hread ▸ hx.chr_mem ht hd)
  have hrun := lzDecompressText_textOf hfits hx hcap
  obtain ⟨hdst, htext, hframe, horig⟩ := completeOk_textResults (utf8size x) s hcap hwords
  exact ⟨_, exec_of_body_ok hready (lzDecompressTextBody_of_ok hread hrun), succeeded_completeOk _ _ _,
    sameOutside_completeOk _ _ _, hdst, rfl, htext, hframe, horig, hread ▸ toNat_utf8size_readWords _ _ _⟩

end Sys2Proof
end

section
/-! PROOFS. The round trips of LZ_COMPRESS (45_lz77_codec.md R290, R291): the triples of a text fit both forms, and each form
decodes to the text. -/

namespace Sys2Proof.Machine

/-! ### The triples of a text fit both forms -/

theorem tripleAt_off_le (t : List Nat) (w b i : Nat) : (tripleAt t w b i).off ≤ min i w :=
  tripleAt_off t w b i ▸ bestMatch_off_le t w b i

theorem tripleAt_len_le (t : List Nat) (w b i : Nat) : (tripleAt t w b i).len ≤ min b (t.length - i) :=
  tripleAt_len t w b i ▸ bestMatch_len_le t w b i

/-- What holds of no triples, and of a position's triple before triples of which it holds after the replay, holds of every scan
after the text before its position (44_lz77_match.md R245). -/
theorem triplesFrom_induction {t : List Nat} {w b : Nat} {P : List Nat → List Triple → Prop} (hnil : ∀ out, P out [])
    (hcons : ∀ i ts, i < t.length → ((tripleAt t w b i).chr = none → ts = []) →
      P (replay (t.take i) (tripleAt t w b i).off (tripleAt t w b i).len (tripleAt t w b i).chr) ts →
      P (t.take i) (tripleAt t w b i :: ts))
    (fuel i : Nat) : P (t.take i) (triplesFrom t w b fuel i) := by
  induction fuel generalizing i with
  | zero => exact hnil _
  | succ fuel ih =>
    rw [triplesFrom]
    split_ifs with hi
    · refine hcons i _ hi (fun hnone => triplesFrom_of_length_le _ ?_) ?_
      · have hend := List.getElem?_eq_none_iff.1 ((tripleAt_chr t w b i).symm.trans hnone)
        omega
      · rw [replay_tripleAt hi]
        exact ih _
    · exact hnil _

/-- The triples of a text whose symbols are bytes keep the wire contract (44_lz77_match.md R246, 45_lz77_codec.md R274). -/
theorem streamFits_triples {t : List Nat} (w b : Nat) (ht : ∀ c ∈ t, c ≤ 0xFF) : StreamFits w b [] (triples t w b) := by
  refine triplesFrom_induction (P := StreamFits w b) (fun _ => trivial) (fun i ts hi hlast hrest => ?_) t.length 0
  have hoff := tripleAt_off_le t w b i
  have hlen := tripleAt_len_le t w b i
  have hreach : (t.take i).length = i := List.length_take_of_le hi.le
  refine ⟨(tripleAt_len_eq_zero_iff t w b i).symm, by omega, by omega, by omega, fun c hc => ?_, hlast, hrest⟩
  exact ht c (List.mem_of_getElem? ((tripleAt_chr t w b i).symm.trans hc))

/-- The triples of a text of at most `2^32 - 1` symbols can be tokens (30_encoding.md R122, 45_lz77_codec.md R281). -/
theorem tokensFit_triples {t : List Nat} (w b : Nat) (ht : t.length ≤ 0xFFFFFFFF) : TokensFit [] (triples t w b) := by
  refine triplesFrom_induction (P := TokensFit) (fun _ => trivial) (fun i ts hi _ hrest => ?_) t.length 0
  have hoff := tripleAt_off_le t w b i
  have hlen := tripleAt_len_le t w b i
  have hreach : (t.take i).length = i := List.length_take_of_le hi.le
  exact ⟨(tripleAt_len_eq_zero_iff t w b i).symm, by omega, by omega, by omega, hrest⟩

/-! ### The triple text is of the grammar -/

theorem isNum_dec {v : Nat} (hv : v ≤ 0xFFFFFFFF) : IsNum (dec v) v := by
  obtain ⟨hval, hdigits, hne, -⟩ := decimalRendering v
  exact ⟨⟨hne, hdigits⟩, digitsValue_eq_decValue (dec v) ▸ hval, hv⟩

theorem TokensFit.isToken {out : List Nat} {ts : List Triple} (h : TokensFit out ts) :
    List.Forall₂ IsToken (ts.map token) ts := by
  induction ts generalizing out with
  | nil => exact .nil
  | cons t ts ih =>
    obtain ⟨-, hoff, hlen, -, hrest⟩ := h
    exact .cons ⟨dec t.off, dec t.len, isNum_dec hoff, isNum_dec hlen, rfl⟩ (ih hrest)

theorem TokensFit.textOf_tripleText {ts : List Triple} (h : TokensFit [] ts) : TextOf (tripleText ts) ts :=
  ⟨ts.map token, h.isToken, rfl⟩

end Sys2Proof.Machine

namespace Sys2Proof
open Machine

/-- Settles O48: the triple text of a text is a text of the grammar, whose triples replay to the text. -/
theorem textFormRoundTrip : Obligations.TextFormRoundTrip := by
  intro e t w b cap cap2 cap' bytes tx _ _ hlen he h hcap
  have hfits := tokensFit_triples w b hlen
  have hreplay := replayOfTriples t w b
  obtain ⟨-, htx, -⟩ := lzCompress_ok h
  rw [htx, if_pos he, lzDecompressText_textOf hfits hfits.textOf_tripleText (hreplay.symm ▸ hcap), hreplay]

/-- Settles O49: the bitstream of a text is followed by its padding, whose length decides whether a last U+0000 is kept. -/
theorem bitstreamRoundTrip : Obligations.BitstreamRoundTrip := by
  intro e t w b cap cap2 cap' bytes tx _ _ ht he h hcap
  have hreplay := replayOfTriples t w b
  obtain ⟨hbytes, -⟩ := lzCompress_ok h
  rw [if_pos he] at hbytes
  have hlen : (padding (streamBits w b (triples t w b))).length = 8 * bytes.length - (streamBits w b (triples t w b)).length := by
    rw [hbytes, length_finish, padding, List.length_replicate]
  have hout := length_streamText_le w b (triples t w b) (padding (streamBits w b (triples t w b)))
  rw [hreplay] at hout
  rw [lzDecompressBits_stream (streamFits_triples w b ht) (hbytes ▸ readerOn_finish_eq_append_padding _) (length_padding _)
    (.inr fun y hy => List.eq_of_mem_replicate hy) (by omega), streamText, hlen, hreplay]

end Sys2Proof
end

section
/-! PROOFS. What LZ_COMPRESS leaves in its destinations (45_lz77_codec.md R260 to R263): the forms its FLAGS select, which do not
overlap (20_memory.md R68). -/

namespace Sys2Proof.Machine

/-! ### The symbols of a triple text -/

theorem chr_mem_of_mem_triples {t : List Nat} {w b c : Nat} {x : Triple} (hx : x ∈ triples t w b) (hc : x.chr = some c) :
    c ∈ t := by
  obtain ⟨good, rest, h⟩ := List.append_of_mem hx
  exact List.mem_of_getElem? (getElem?_and_cpos_of_triples h hc).1

theorem le_of_mem_dec {v d : Nat} (h : d ∈ dec v) : d ≤ 0x39 := by
  obtain ⟨-, hdigits, -⟩ := decimalRendering v
  exact (hdigits d h).2

/-- The symbols of a token are its triple's character, and symbols of ASCII (30_encoding.md R120). -/
theorem mem_token {x : Triple} {d : Nat} (h : d ∈ token x) : x.chr = some d ∨ d ≤ 0x39 := by
  simp only [token, List.mem_append, List.mem_singleton, Option.mem_toList] at h
  rcases h with (((((hopen | hoff) | hcomma) | hlen) | hcomma') | hchr) | hclose
  · exact .inr (by omega)
  · exact .inr (le_of_mem_dec hoff)
  · exact .inr (by omega)
  · exact .inr (le_of_mem_dec hlen)
  · exact .inr (by omega)
  · exact .inl hchr
  · exact .inr (by omega)

/-- The symbols of a triple text are characters of its triples, and symbols of ASCII (30_encoding.md R120). -/
theorem mem_tripleText {ts : List Triple} {d : Nat} (h : d ∈ tripleText ts) : (∃ x ∈ ts, x.chr = some d) ∨ d ≤ 0x39 := by
  cases ts with
  | nil => cases h
  | cons x ts =>
    rw [tripleText, List.map_cons, intercalate_space_cons, List.flatMap_map, List.mem_append, List.mem_flatMap] at h
    rcases h with h | ⟨y, hy, h⟩
    · exact (mem_token h).imp_left fun hx => ⟨x, List.mem_cons_self, hx⟩
    · rcases List.mem_cons.1 h with rfl | h
      · exact .inr (by decide)
      · exact (mem_token h).imp_left fun hc => ⟨y, List.mem_cons_of_mem x hy, hc⟩

/-! ### The three forms -/

/-- The commands of LZ_COMPRESS and what each emits (30_encoding.md R92). -/
abbrev compressForms : List (Instr × Emit) :=
  [(.lzCompressBits, { bits := true, text := false }), (.lzCompressText, { bits := false, text := true }),
    (.lzCompressBitsText, { bits := true, text := true })]

/-- Each command's processing is that of its forms, it has one at least, and one command has both. -/
theorem compressForm_cases {i : Instr} {e : Emit} (h : (i, e) ∈ compressForms) :
    bodyOf i = lzCompressBody e ∧ (e.bits = false → e.text = true) ∧
      (e.bits = true → e.text = true → i = .lzCompressBitsText) := by
  simp only [List.mem_cons, List.not_mem_nil, or_false, Prod.mk.injEq] at h
  rcases h with ⟨rfl, rfl⟩ | ⟨rfl, rfl⟩ | ⟨rfl, rfl⟩
  · exact ⟨rfl, nofun, nofun⟩
  · exact ⟨rfl, fun _ => rfl, nofun⟩
  · exact ⟨rfl, nofun, fun _ _ => rfl⟩

theorem Range.overlaps_of_has {r q : Range} {a : Nat} (hr : r.has a = true) (hq : q.has a = true) : r.overlaps q = true := by
  rw [Range.has_iff] at hr hq
  simp only [Range.overlaps, Bool.and_eq_true, decide_eq_true_eq]
  omega

/-- Past the checks, LZ_COMPRESS with both forms has destinations that share no byte (20_memory.md R68). -/
theorem destinations_disjoint {c : Config} {o : Operands} (h : commonChecks (useOf .lzCompressBitsText) c o = none) {a : Nat}
    (hdst : InBytes a o.dstAddr.toNat o.dstCap.toNat) : ¬InBytes a o.dst2Addr.toNat o.dst2Cap.toNat := by
  unfold commonChecks at h
  split_ifs at h with _ _ _ hoverlap
  intro hdst2
  have hshare := Range.overlaps_of_has ((Range.has_iff (dstRange o) a).2 hdst) ((Range.has_iff (dst2Range o) a).2 hdst2)
  exact hoverlap (by simp [anyOverlap, usedRanges, dstRanges, useOf, hshare])

/-! ### What LZ_COMPRESS writes -/

/-- The bits that a form emits for a triple sequence. -/
def Emit.stream (e : Emit) (w b : Nat) (ts : List Triple) : List Bool := if e.bits then streamBits w b ts else []

/-- The text that a form emits for a triple sequence. -/
def Emit.tokens (e : Emit) (ts : List Triple) : List Nat := if e.text then tripleText ts else []

theorem nbytes_stream (e : Emit) (w b : Nat) (ts : List Triple) :
    nbytes (e.stream w b ts) = if e.bits then nbytes (streamBits w b ts) else 0 := by
  unfold Emit.stream
  split <;> rfl

theorem length_tokens (e : Emit) (ts : List Triple) : (e.tokens ts).length = if e.text then (tripleText ts).length else 0 := by
  unfold Emit.tokens
  split <;> rfl

theorem lt_of_mem_tokens {e : Emit} {w b d : Nat} {t : List Nat} (ht : ∀ c ∈ t, c < 4294967296)
    (h : d ∈ e.tokens (triples t w b)) : d < 4294967296 := by
  unfold Emit.tokens at h
  split at h
  · rcases mem_tripleText h with ⟨x, hx, hc⟩ | hle
    · exact ht d (chr_mem_of_mem_triples hx hc)
    · omega
  · cases h

/-- LZ_COMPRESS on a text whose triples the forms asked for carry within their capacities (45_lz77_codec.md R260). -/
theorem lzCompress_of_fits {e : Emit} {w b cap cap2 : Nat} {t : List Nat}
    (hnarrow : e.bits = true → Narrow (triples t w b)) (hcap : nbytes (e.stream w b (triples t w b)) ≤ cap)
    (hcap2 : 4 * (e.tokens (triples t w b)).length ≤ cap2) :
    lzCompress e w b cap cap2 t = .ok (finish (e.stream w b (triples t w b)), e.tokens (triples t w b)) := by
  have hbits : e.bits = true → nbytes (streamBits w b (triples t w b)) ≤ cap := fun he => by
    rwa [Emit.stream, if_pos he] at hcap
  have htext : e.text = true → 4 * (tripleText (triples t w b)).length ≤ cap2 := fun he => by
    rwa [Emit.tokens, if_pos he] at hcap2
  have hemit := emitTriples_append (e := e) (k := 0) (wbits := []) (tx := []) [] hnarrow hbits (by rwa [emittedText_zero])
  rw [List.append_nil, emittedText_zero] at hemit
  rw [lzCompress, hemit]
  rfl

/-- The results of LZ_COMPRESS on `t`: its forms, and the statistics of 60_exceptions.md R320. -/
def compressResults (e : Emit) (t : List Nat) (bits : List Bool) (tx : List Nat) : Results :=
  { dst := finish bits, dst2 := wordsBytes tx, orig := utf8size t, comp := if e.bits then nbytes bits else utf8size tx }

theorem lzCompressBody_of_ok {e : Emit} {o : Operands} {m : Memory} {t tx : List Nat} {bits : List Bool}
    (ht : t = m.readWords o.srcAddr.toNat (o.srcLen.toNat / 4))
    (h : lzCompress e o.windowSize.toNat o.bufferSize.toNat o.dstCap.toNat o.dst2Cap.toNat t = .ok (finish bits, tx)) :
    lzCompressBody e o m = .ok (compressResults e t bits tx) := by
  subst ht
  simp only [lzCompressBody, h, compressResults, length_finish]

/-- A success leaves the bytes of both destinations and nothing else, where their bytes do not overlap (20_memory.md R69). -/
theorem mem_completeOk_of_disjoint {r : Results} {o : Operands} (s : State)
    (h : ∀ a, InBytes a o.dstAddr.toNat r.dst.length → ¬InBytes a o.dst2Addr.toNat r.dst2.length) :
    (completeOk r o s).mem.readBytes o.dstAddr.toNat r.dst.length = r.dst ∧
      ∀ a, ¬InBytes a o.dstAddr.toNat r.dst.length → ¬InBytes a o.dst2Addr.toNat r.dst2.length →
        (completeOk r o s).mem.read a = s.mem.read a := by
  have hframe2 : ∀ a, ¬InBytes a o.dst2Addr.toNat r.dst2.length →
      (completeOk r o s).mem.read a = (s.mem.writeBytes o.dstAddr.toNat r.dst).read a := fun a ha =>
    Memory.read_writeBytes_outside _ _ _ _ (by unfold InBytes at ha; omega)
  refine ⟨?_, fun a ha ha2 => ?_⟩
  · rw [Memory.readBytes_congr _ _ _ _ fun a hlow hhigh => hframe2 a (h a ⟨hlow, hhigh⟩), Memory.readBytes_writeBytes]
  · rw [hframe2 a ha2]
    exact Memory.read_writeBytes_outside _ _ _ _ (by unfold InBytes at ha; omega)

/-- The bytes of the two forms do not overlap: one has none, or the checks keep the destinations apart. -/
theorem compressForm_disjoint {i : Instr} {e : Emit} {s : State} {l : Latched} {w b a : Nat} {ts : List Triple}
    (hi : (i, e) ∈ compressForms) (hready : Ready i s l) (hcap : nbytes (e.stream w b ts) ≤ l.operands.dstCap.toNat)
    (hcap2 : 4 * (e.tokens ts).length ≤ l.operands.dst2Cap.toNat)
    (hdst : InBytes a l.operands.dstAddr.toNat (nbytes (e.stream w b ts))) :
    ¬InBytes a l.operands.dst2Addr.toNat (4 * (e.tokens ts).length) := by
  rintro ⟨hlow2, hhigh2⟩
  obtain ⟨hlow, hhigh⟩ := hdst
  have hbits : e.bits = true := by
    by_contra hb
    rw [nbytes_stream, if_neg hb] at hhigh
    omega
  have htext : e.text = true := by
    by_contra ht
    rw [length_tokens, if_neg ht] at hhigh2
    omega
  obtain ⟨-, -, hboth⟩ := compressForm_cases hi
  obtain rfl := hboth hbits htext
  exact destinations_disjoint hready.2 (a := a) ⟨hlow, by omega⟩ ⟨hlow2, by omega⟩

/-- The result registers after LZ_COMPRESS. -/
theorem completeOk_compressResults {o : Operands} {t tx : List Nat} {bits : List Bool} (e : Emit) (s : State)
    (hcap : nbytes bits ≤ o.dstCap.toNat) (hcap2 : 4 * tx.length ≤ o.dst2Cap.toNat) (ht : 4 * t.length ≤ o.srcLen.toNat) :
    (completeOk (compressResults e t bits tx) o s).dstLen.toNat = nbytes bits ∧
      (completeOk (compressResults e t bits tx) o s).dst2Len.toNat = 4 * tx.length ∧
      (completeOk (compressResults e t bits tx) o s).statOrig.toNat = utf8size t ∧
      (completeOk (compressResults e t bits tx) o s).statComp.toNat = if e.bits then nbytes bits else utf8size tx := by
  have hdst := o.dstCap.isLt
  have hdst2 := o.dst2Cap.isLt
  have hsrc := o.srcLen.isLt
  have hsize := utf8size_le t
  have hsize2 := utf8size_le tx
  simp only [completeOk_dstLen, completeOk_dst2Len, completeOk_statOrig, completeOk_statComp, compressResults, length_finish,
    length_wordsBytes]
  refine ⟨toNat_ofNat_word (by omega), toNat_ofNat_word (by omega), toNat_ofNat_word (by omega), toNat_ofNat_word ?_⟩
  split <;> omega

/-- The memory after LZ_COMPRESS: each form is at its destination, where the two do not overlap. -/
theorem mem_completeOk_compressResults {o : Operands} {tx : List Nat} {bits : List Bool} (e : Emit) (t : List Nat) (s : State)
    (htx : ∀ d ∈ tx, d < 4294967296)
    (h : ∀ a, InBytes a o.dstAddr.toNat (nbytes bits) → ¬InBytes a o.dst2Addr.toNat (4 * tx.length)) :
    readerOn ((completeOk (compressResults e t bits tx) o s).mem.readBytes o.dstAddr.toNat (nbytes bits)) =
        bits ++ padding bits ∧
      (completeOk (compressResults e t bits tx) o s).mem.readWords o.dst2Addr.toNat tx.length = tx ∧
      ∀ a, ¬InBytes a o.dstAddr.toNat (nbytes bits) → ¬InBytes a o.dst2Addr.toNat (4 * tx.length) →
        (completeOk (compressResults e t bits tx) o s).mem.read a = s.mem.read a := by
  rw [← length_finish, ← length_wordsBytes] at h ⊢
  obtain ⟨hread, hframe⟩ := mem_completeOk_of_disjoint (r := compressResults e t bits tx) s h
  refine ⟨?_, Memory.readWords_writeBytes_wordsBytes _ _ _ htx, hframe⟩
  exact (congrArg readerOn hread).trans (readerOn_finish_eq_append_padding _)

end Sys2Proof.Machine

namespace Sys2Proof
open Machine

/-- Settles O22: the triple loop carries every triple, and the bytes of the two forms stand apart in the memory. -/
theorem lzCompressResult : Obligations.LzCompressResult := by
  rintro i e s l t ts nb nt hi hready ht rfl hnb hnt hnarrow hcap hcap2
  rw [← nbytes_stream] at hnb
  rw [← length_tokens] at hnt
  subst hnb hnt
  obtain ⟨hbody, htext, -⟩ := compressForm_cases hi
  have hrun := lzCompress_of_fits hnarrow hcap hcap2
  have hsrc : 4 * t.length ≤ l.operands.srcLen.toNat := by rw [ht, Memory.length_readWords]; omega
  have hsymbols : ∀ c ∈ t, c < 4294967296 := fun c hc => s.mem.readWords_lt _ _ c (ht ▸ hc)
  obtain ⟨hdst, hdst2, horig, hcomp⟩ := completeOk_compressResults e s hcap hcap2 hsrc
  obtain ⟨hread, hread2, hframe⟩ := mem_completeOk_compressResults e t s (fun d => lt_of_mem_tokens hsymbols) fun a =>
    compressForm_disjoint hi hready hcap hcap2
  refine ⟨_, exec_of_body_ok hready (hbody ▸ lzCompressBody_of_ok ht hrun), succeeded_completeOk _ _ _,
    sameOutside_completeOk _ _ _, hdst, hdst2, fun he => ?_, fun he => ?_, hframe, horig, ?_⟩
  · rw [hread, Emit.stream, if_pos he]
  · rw [hread2, Emit.tokens, if_pos he]
  · rw [hcomp]
    cases he : e.bits with
    | true => rfl
    | false => rw [Emit.tokens, if_pos (htext he)]

end Sys2Proof
end

section
/-! PROOFS. The common checks (60_exceptions.md R302 to R305): each check of the model says what its rule says, and the first that
fails ends the command. -/

namespace Sys2Proof.Machine

/-! ### What each check says -/

theorem badParameter_iff (v : Word) (max : Nat) : badParameter v max = true ↔ v.toNat = 0 ∨ max < v.toNat := by
  simp [badParameter]

theorem useOf_lz_iff (i : Instr) : (useOf i).lz = true ↔ i ∈ lzCommands := by
  cases i <;> decide

theorem parameterCheck_iff (i : Instr) (c : Config) (o : Operands) :
    ((useOf i).lz && (badParameter o.windowSize c.wMax || badParameter o.bufferSize c.bMax)) = true ↔
      BadParameters i c o := by
  rw [Bool.and_eq_true, Bool.or_eq_true, useOf_lz_iff, badParameter_iff, badParameter_iff, or_assoc, BadParameters]

/-- The alignment rule by the shapes of the table of 20_memory.md R65. -/
theorem alignmentCheck_iff (i : Instr) (o : Operands) :
    (!(srcAligned (useOf i).src (srcRange o) && dstAligned (useOf i).dst (dstRange o) &&
        dstAligned (useOf i).dst2 (dst2Range o))) = true ↔ Misaligned i o := by
  cases i <;>
    simp [useOf, srcAligned, dstAligned, srcRange, dstRange, dst2Range, Misaligned, dst2Commands, or_assoc]

/-- What holds of every used range: the source, and each destination that the command uses. -/
theorem forall_mem_usedRanges_iff (i : Instr) (o : Operands) (p : Range → Prop) :
    (∀ r ∈ usedRanges (useOf i) o, p r) ↔
      p (srcRange o) ∧ (i ∈ dstCommands → p (dstRange o)) ∧ (i ∈ dst2Commands → p (dst2Range o)) := by
  cases i <;> simp [usedRanges, dstRanges, useOf, dstCommands, dst2Commands]

theorem Range.valid_iff (r : Range) (n : Nat) : r.valid n = true ↔ ¬(0 < r.len ∧ n < r.addr + r.len) := by
  simp only [Range.valid, Bool.or_eq_true, beq_iff_eq, decide_eq_true_eq]
  omega

theorem rangeCheck_iff (i : Instr) (c : Config) (o : Operands) :
    (!((usedRanges (useOf i) o).all fun r => r.valid c.memBytes)) = true ↔ PastMemory i c o := by
  rw [Bool.not_eq_true', ← Bool.not_eq_true, List.all_eq_true, forall_mem_usedRanges_iff, PastMemory]
  simp only [Range.valid_iff, srcRange, dstRange, dst2Range]
  tauto

/-- Two ranges overlap exactly where they share a byte: the later of their first bytes (20_memory.md R68). -/
theorem Range.overlaps_iff (r q : Range) :
    r.overlaps q = true ↔ ∃ a, InBytes a r.addr r.len ∧ InBytes a q.addr q.len := by
  simp only [Range.overlaps, Bool.and_eq_true, decide_eq_true_eq, InBytes]
  constructor
  · intro h
    exact ⟨max r.addr q.addr, by omega, by omega⟩
  · rintro ⟨a, hr, hq⟩
    omega

/-- The pairs of used ranges: the source with each used destination, and both destinations. -/
theorem anyOverlap_usedRanges_iff (i : Instr) (o : Operands) :
    anyOverlap (usedRanges (useOf i) o) = true ↔
      (i ∈ dstCommands ∧ (srcRange o).overlaps (dstRange o) = true) ∨
        (i ∈ dst2Commands ∧ (srcRange o).overlaps (dst2Range o) = true) ∨
        (i ∈ dstCommands ∧ i ∈ dst2Commands ∧ (dstRange o).overlaps (dst2Range o) = true) := by
  cases i <;> simp [anyOverlap, usedRanges, dstRanges, useOf, dstCommands, dst2Commands, or_assoc]

theorem overlapCheck_iff (i : Instr) (o : Operands) : anyOverlap (usedRanges (useOf i) o) = true ↔ ShareAByte i o := by
  simp only [anyOverlap_usedRanges_iff, Range.overlaps_iff, ShareAByte, exists_or, exists_and_left]
  rfl

open Classical in
/-- The common checks by their rules, in the order of 60_exceptions.md R305, steps 2 to 5. -/
theorem commonChecks_eq (i : Instr) (c : Config) (o : Operands) :
    commonChecks (useOf i) c o =
      if BadParameters i c o then some .badParameter
      else if Misaligned i o then some .alignmentError
      else if PastMemory i c o then some .addressRange
      else if ShareAByte i o then some .bufferOverlap
      else none := by
  simp only [commonChecks, parameterCheck_iff, alignmentCheck_iff, rangeCheck_iff, overlapCheck_iff]

/-! ### The outcome of the checks -/

/-- A command that fails a check completes with its error at 0, and memory is unchanged (60_exceptions.md R305, R307). -/
theorem exec_of_check {i : Instr} {s : State} {l : Latched} {e : Err} (hl : s.running = some l)
    (hc : commonChecks (useOf i) s.config l.operands = some e) :
    ∃ t, exec i s = .next t ∧ FailedWith e 0 t ∧ t.mem = s.mem :=
  ⟨_, by rw [exec_eq_runCommand]; exact runCommand_of_check hl hc, failedWith_completeErr (raise0 e) s, rfl⟩

/-! ### The commands that ignore WINDOW_SIZE and BUFFER_SIZE -/

theorem commonChecks_ignores_parameters {i : Instr} (hi : i ∉ lzCommands) (c : Config) (o : Operands) (w b : Word) :
    commonChecks (useOf i) c { o with windowSize := w, bufferSize := b } = commonChecks (useOf i) c o := by
  rw [← useOf_lz_iff, Bool.not_eq_true] at hi
  simp only [commonChecks, hi, Bool.false_and]
  rfl

theorem bodyOf_ignores_parameters {i : Instr} (hi : i ∉ lzCommands) (o : Operands) (m : Memory) (w b : Word) :
    bodyOf i { o with windowSize := w, bufferSize := b } m = bodyOf i o m := by
  cases i
  case hufCompress | hufDecompress | hufLengths | hufCanon => rfl
  all_goals exact absurd (by decide) hi

end Sys2Proof.Machine

namespace Sys2Proof
open Machine

/-- Settles O18: each check says what its rule says, and the first that fails decides; WINDOW_SIZE and BUFFER_SIZE are read by
the LZ77 commands' check and processing only. -/
theorem commonChecksInOrder : Obligations.CommonChecksInOrder := by
  refine ⟨fun i s l hl => ⟨fun hbad => ?_, fun hbad hal => ?_, fun hbad hal hpast => ?_, fun hbad hal hpast hshare => ?_,
    fun hbad hal hpast hshare => ?_⟩, fun i s l w b hi => ?_⟩
  · exact exec_of_check hl (by rw [commonChecks_eq, if_pos hbad])
  · exact exec_of_check hl (by rw [commonChecks_eq, if_neg hbad, if_pos hal])
  · exact exec_of_check hl (by rw [commonChecks_eq, if_neg hbad, if_neg hal, if_pos hpast])
  · exact exec_of_check hl (by rw [commonChecks_eq, if_neg hbad, if_neg hal, if_neg hpast, if_pos hshare])
  · exact ⟨hl, by rw [commonChecks_eq, if_neg hbad, if_neg hal, if_neg hpast, if_neg hshare]⟩
  · simp only [exec_eq_runCommand, runCommand, commonChecks_ignores_parameters hi, bodyOf_ignores_parameters hi]
    rfl

end Sys2Proof
end

section
/-! PROOFS. The turns of a step (60_exceptions.md R313), and what a step does to DONE, to the interrupt line and to ERR_CODE
(60_exceptions.md R301, R308, R312). -/

namespace Sys2Proof.Machine

/-! ### Whose turn a step is -/

theorem step_of_engine_turn {s : State} {rest : List Agent} (h : s.schedule = .engine :: rest) :
    step s = engineStep { s with schedule := rest } := by
  simp [step, nextTurn, h, turnOf]

theorem step_of_host_turn {s : State} {rest : List Agent} (h : s.schedule = .host :: rest) :
    step s = hostStep { s with schedule := rest } := by
  simp [step, nextTurn, h, turnOf]

/-- With an empty schedule the engine moves while BUSY (log 1). -/
theorem step_of_busy {s : State} (h : s.schedule = []) (hb : s.running ≠ none) : step s = engineStep s := by
  simp [step, nextTurn, h, State.busy_eq_true_iff.2 hb, turnOf]

/-- With an empty schedule the host moves while IDLE (log 1). -/
theorem step_of_idle {s : State} (h : s.schedule = []) (hi : s.running = none) : step s = hostStep s := by
  simp [step, nextTurn, h, State.busy_eq_false_iff.2 hi, turnOf]

theorem engineStep_of_idle {s : State} (h : s.running = none) : engineStep s = .next s := by
  simp [engineStep, h]

theorem hostStep_of_nil {s : State} (h : s.host = []) : hostStep s = .next s := by
  simp [hostStep, h]

theorem hostStep_of_cons {s : State} {op : HostOp} {ops : List HostOp} (h : s.host = op :: ops) :
    hostStep s = hostOperation op { s with host := ops } := by
  simp [hostStep, h]

/-! ### DONE and the interrupt line -/

@[simp] theorem softReset_done (s : State) : (softReset s).done = false := by
  unfold softReset; split <;> rfl

@[simp] theorem softReset_irqEn (s : State) : (softReset s).irqEn = false := by
  unfold softReset; split <;> rfl

/-- No register write raises DONE. -/
theorem writeReg_done {r : Reg} {v : Word} {s : State} (h : (writeReg r v s).done = true) : s.done = true := by
  rcases writeReg_cases r v s with hw | hw | hw | ⟨-, hw⟩ | ⟨-, -, hw⟩ | ⟨-, hw⟩ | hw | ⟨-, o, hw⟩ <;> rw [hw] at h
  case inr.inl => simp at h
  case inr.inr.inr.inr.inl => simp at h
  case inr.inr.inr.inr.inr.inr.inl =>
    rw [writeStatus_done, Bool.and_eq_true] at h
    exact h.1
  all_goals exact h

/-- DONE rises in a completion only (60_exceptions.md R308). -/
theorem step_raises_done {s t : State} (h : step s = .next t) (hs : s.done = false) (ht : t.done = true) :
    s.running ≠ none ∧ t.running = none := by
  obtain ⟨sch, ⟨-, hstep⟩ | ⟨-, hstep⟩⟩ := step_turn s <;> rw [hstep] at h
  · rcases engineStep_next h with ⟨-, rfl⟩ | ⟨hr, hidle, -⟩
    · exact absurd (hs.symm.trans ht) Bool.false_ne_true
    · exact ⟨hr, hidle⟩
  · have hdone : s.done = true := by
      rcases hostStep_next h with ⟨r, v, rest, -, rfl⟩ | ⟨rest, -, rfl⟩ | ⟨m, ops, w, bs, rfl⟩
      · exact (writeReg_done ht :)
      · exact absurd ht Bool.false_ne_true
      · exact ht
    exact absurd (hs.symm.trans hdone) Bool.false_ne_true

theorem exec_next_irqEn {i : Instr} {s t : State} (h : exec i s = .next t) : t.irqEn = s.irqEn := by
  rw [exec_eq_runCommand] at h
  rcases runCommand_cases (useOf i) (bodyOf i) s with
    ⟨-, hr⟩ | ⟨l, e, -, -, hr⟩ | ⟨l, e, -, -, -, hr⟩ | ⟨l, r, -, -, -, hr⟩ <;> rw [hr] at h <;> cases h <;> rfl

theorem irq_of_done_eq_false {s : State} (h : s.done = false) : s.irq = false := by simp [State.irq, h]

/-! ### ERR_CODE -/

theorem errCodeOf_le (e : Err) : (errCodeOf e).toNat ≤ 12 := by cases e <;> decide

theorem legalErrCode_completeErr (e : Raise) (s : State) : (completeErr e s).legalErrCode = true :=
  decide_eq_true (errCodeOf_le e.err)

theorem legalErrCode_engineStep {s t : State} (hs : s.legalErrCode = true) (h : engineStep s = .next t) :
    t.legalErrCode = true := by
  rcases engineStep_cases s with ⟨-, he⟩ | ⟨l, e, -, -, he⟩ | ⟨l, i, hl, -, he⟩ <;> rw [he] at h
  · cases h; exact hs
  · cases h; exact legalErrCode_completeErr _ s
  · rcases exec_completes i hl with ⟨e, m, -, hx⟩ | ⟨r, -, hx⟩ <;> rw [hx] at h <;> cases h
    · exact legalErrCode_completeErr e _
    · rfl

/-- A register write keeps ERR_CODE or clears it. -/
theorem writeReg_errCode (r : Reg) (v : Word) (s : State) :
    (writeReg r v s).errCode = s.errCode ∨ (writeReg r v s).errCode = 0#8 := by
  rcases writeReg_cases r v s with h | h | h | ⟨-, h⟩ | ⟨-, -, h⟩ | ⟨-, h⟩ | h | ⟨-, o, h⟩ <;> rw [h]
  case inr.inl =>
    obtain ⟨m, d, hreset⟩ := softReset_eq_resetRegisters s
    exact .inr (by rw [hreset]; rfl)
  case inr.inr.inr.inr.inl => exact .inr rfl
  all_goals exact .inl rfl

theorem legalErrCode_writeReg (r : Reg) (v : Word) {s : State} (hs : s.legalErrCode = true) :
    (writeReg r v s).legalErrCode = true := by
  unfold State.legalErrCode at hs ⊢
  rcases writeReg_errCode r v s with h | h <;> rw [h]
  · exact hs
  · rfl

theorem legalErrCode_hostStep {s t : State} (hs : s.legalErrCode = true) (h : hostStep s = .next t) :
    t.legalErrCode = true := by
  rcases hostStep_next h with ⟨r, v, rest, -, rfl⟩ | ⟨rest, -, rfl⟩ | ⟨m, ops, w, bs, rfl⟩
  · exact legalErrCode_writeReg r v (s := { s with host := rest }) hs
  · rfl
  · exact hs

end Sys2Proof.Machine

namespace Sys2Proof
open Machine

/-- Settles O50: the schedule names the agent, and its turn is that of the engine or of the host. -/
theorem stepRunsTheDecodedCommand : Obligations.StepRunsTheDecodedCommand := by
  refine ⟨fun s l i hl hd => ⟨fun h => ?_, fun rest h => ?_⟩, fun s l e hl hd => ⟨fun h => ?_, fun rest h => ?_⟩,
    fun s op ops hops => ⟨fun h hi => ?_, fun rest h => ?_⟩, fun s rest h hi => ?_, fun s rest h hh => ?_, fun s hh hi => ?_⟩
  · rw [step_of_busy h (by simp [hl]), engineStep_of_decoded hl hd]
  · rw [step_of_engine_turn h]
    exact engineStep_of_decoded hl hd
  · rw [step_of_busy h (by simp [hl]), engineStep_of_illegal hl hd]
  · rw [step_of_engine_turn h]
    exact engineStep_of_illegal hl hd
  · rw [step_of_idle h hi, hostStep_of_cons hops]
  · rw [step_of_host_turn h]
    exact hostStep_of_cons hops
  · rw [step_of_engine_turn h]
    exact engineStep_of_idle hi
  · rw [step_of_host_turn h]
    exact hostStep_of_nil hh
  · obtain ⟨sch, hs | hs⟩ := step_cases s
    · exact ⟨sch, hs.trans (engineStep_of_idle hi)⟩
    · exact ⟨sch, hs.trans (hostStep_of_nil hh)⟩

/-- Settles O12: the line follows DONE, which only a completion raises and each acknowledgement, GO and reset clears. -/
theorem interruptLine : Obligations.InterruptLine := by
  refine ⟨fun s => rfl, fun s n => ?_, fun i s t h => ?_, fun s t h hs ht => ?_, fun s v => ⟨fun h1 => ⟨?_, ?_⟩,
    fun h0 h1 => ?_, fun hi hgo => ?_⟩, fun s => rfl⟩
  · simp [State.irqOnLine]
  · simp [State.irq, exec_next_irqEn h, (exec_next_completed h).2]
  · rw [State.busy_eq_true_iff, State.busy_eq_false_iff]
    exact step_raises_done h hs ht
  · exact irq_of_done_eq_false (by rw [writeReg, writeStatus_done, h1, Bool.not_true, Bool.and_false])
  · exact irq_of_done_eq_false (by rw [writeReg_ctrl_reset s h1, softReset_done])
  · rw [writeReg_ctrl_enable s h1, h0]
    exact ⟨rfl, rfl⟩
  · exact irq_of_done_eq_false (by rw [writeReg_cmd_go hi hgo, acceptGo_done])

/-- Settles O59: a completion writes 0 or the number of an error, and every other step keeps ERR_CODE or clears it. -/
theorem stepKeepsLegalErrorCode : Obligations.StepKeepsLegalErrorCode := by
  refine ⟨rfl, fun s t hs h => ?_⟩
  obtain ⟨sch, hstep | hstep⟩ := step_cases s <;> rw [hstep] at h
  · exact legalErrCode_engineStep (s := { s with schedule := sch }) hs h
  · exact legalErrCode_hostStep (s := { s with schedule := sch }) hs h

end Sys2Proof
end

section
/-! PROOFS. The state after a command (60_exceptions.md R307) and its statistics (R320): what a success and an error leave, and the
text or the bytes that each statistic counts. -/

namespace Sys2Proof.Machine

/-! ### A success and an error, told apart by ERR_CODE -/

section outcome

variable {i : Instr} {s t : State} {l : Latched}

theorem exec_next_of_success (hl : s.running = some l) (h : exec i s = .next t) (ht : t.errCode = 0#8) :
    ∃ r, bodyOf i l.operands s.mem = .ok r ∧ t = completeOk r l.operands s := by
  rcases exec_completes i hl with ⟨e, m, -, hx⟩ | ⟨r, hbody, hx⟩ <;> rw [hx] at h <;> cases h
  · exact absurd ht (errCodeOf_ne_zero e.err)
  · exact ⟨r, hbody, rfl⟩

theorem exec_next_of_failure (hl : s.running = some l) (h : exec i s = .next t) (ht : t.errCode ≠ 0#8) :
    ∃ e m, t = completeErr e { s with mem := m } := by
  rcases exec_completes i hl with ⟨e, m, -, hx⟩ | ⟨r, -, hx⟩ <;> rw [hx] at h <;> cases h
  · exact ⟨e, m, rfl⟩
  · exact absurd rfl ht

theorem exec_next_statCycles (hl : s.running = some l) (h : exec i s = .next t) :
    t.statCycles = Config.freeCycles s.draws := by
  rcases exec_completes i hl with ⟨e, m, -, hx⟩ | ⟨r, -, hx⟩ <;> rw [hx] at h <;> cases h <;> rfl

/-- No outcome changes a byte outside the used destination ranges. -/
theorem exec_next_read_outside (hl : s.running = some l) (h : exec i s = .next t) {a : Nat}
    (ha : inRanges (dstRanges (useOf i) l.operands) a = false) : t.mem.read a = s.mem.read a := by
  rcases exec_next_mem h with hmem | ⟨l', ⟨hl', -⟩, hmem⟩
  · rw [hmem]
  · obtain rfl : l' = l := by simpa [hl'] using hl
    exact hmem.read_outside ha

end outcome

/-- The lengths that a success reports are those of its results, which the capacities keep below `2^32`. -/
theorem FitsDestinations.lengths {i : Instr} {o : Operands} {r : Results} (h : FitsDestinations i o r) (s : State) :
    (completeOk r o s).dstLen.toNat = r.dst.length ∧ (completeOk r o s).dst2Len.toNat = r.dst2.length :=
  ⟨toNat_ofNat_word (Nat.lt_of_le_of_lt h.dst o.dstCap.isLt), toNat_ofNat_word (Nat.lt_of_le_of_lt h.dst2 o.dst2Cap.isLt)⟩

/-- A success changes no byte but those of its results. -/
theorem read_completeOk_outside (r : Results) (o : Operands) (s : State) {a : Nat}
    (h : ¬InBytes a o.dstAddr.toNat r.dst.length) (h2 : ¬InBytes a o.dst2Addr.toNat r.dst2.length) :
    (completeOk r o s).mem.read a = s.mem.read a := by
  unfold InBytes at h h2
  rw [completeOk_mem, Memory.read_writeBytes, if_neg h2, Memory.read_writeBytes, if_neg h]

/-! ### The symbols of a decoded text

Each fits a word, so that the text in memory is the decoder's output and not its remainders (20_memory.md R64). -/

/-- A field of `L` bits is below `2 ^ L` (40_bitio.md R147). -/
theorem lt_of_get_eq {L v : Nat} {r r' : List Bool} (h : get r L = (v, r')) : v < 2 ^ L := by
  cases h
  exact (ofBits_lt _).trans_le (Nat.pow_le_pow_right (by decide) (List.length_take_le L r))

theorem readEntries_ok_lt {n : Nat} {len len' : List (Nat × Nat)} {r r' : List Bool}
    (hlen : ∀ p ∈ len, p.1 < 2 ^ 16) (h : readEntries n len r = .ok (len', r')) : ∀ p ∈ len', p.1 < 2 ^ 16 := by
  induction n generalizing len r with
  | zero => cases h; exact hlen
  | succ n ih =>
    rw [readEntries] at h
    split at h
    · cases h
    · split at h
      next x r₁ hx =>
      split at h
      split_ifs at h
      refine ih (fun p hp => ?_) h
      rcases List.mem_append.1 hp with hp | hp
      · exact hlen p hp
      · rw [List.mem_singleton.1 hp]
        exact lt_of_get_eq hx

theorem readTable_ok_lt {r r' : List Bool} {T : List CodeEntry} {B : Nat} (h : readTable r = .ok (T, B, r')) :
    ∀ e ∈ T, e.sym < 2 ^ 16 := by
  unfold readTable at h
  split at h
  · cases h
  · split at h
    split at h
    · cases h
    · split at h
      case h_1 => cases h
      case h_2 len r₂ hread =>
        split at h
        · cases h
        · split at h
          split_ifs at h
          cases h
          exact fun e he => readEntries_ok_lt (by simp) hread _ (mem_of_mem_canon he)

theorem walkBits_ok_lt {T : List CodeEntry} {cap acc alen N : Nat} {bs : List Bool} {out res : List Nat}
    (hT : ∀ e ∈ T, e.sym < N) (hout : ∀ c ∈ out, c < N) (h : walkBits T cap bs acc alen out = .ok res) :
    ∀ c ∈ res, c < N := by
  induction bs generalizing acc alen out with
  | nil =>
    unfold walkBits at h
    split_ifs at h
    cases h
    exact hout
  | cons b bs ih =>
    unfold walkBits at h
    split at h
    case h_1 e he =>
      split_ifs at h
      refine ih (fun c hc => ?_) h
      rcases List.mem_append.1 hc with hc | hc
      · exact hout c hc
      · rw [List.mem_singleton.1 hc]
        exact hT e (List.mem_of_find?_eq_some he)
    case h_2 =>
      split_ifs at h
      exact ih hout h

theorem hufDecompress_ok_lt {bytes : List Byte} {cap : Nat} {out : List Nat} (h : hufDecompress bytes cap = .ok out) :
    ∀ c ∈ out, c < 2 ^ 16 := by
  unfold hufDecompress at h
  split_ifs at h
  · cases h; simp
  · split at h
    case h_1 => cases h
    case h_2 hread => exact walkBits_ok_lt (readTable_ok_lt hread) (by simp) h

theorem lt_of_mem_replay {N o L : Nat} {out : List Nat} {c : Option Nat} (hN : 0 < N) (hout : ∀ y ∈ out, y < N)
    (hc : ∀ d, c = some d → d < N) : ∀ x ∈ replay out o L c, x < N := fun _ hx =>
  lt_of_mem_replayFrom (ts := [{ off := o, len := L, chr := c, cpos := none }]) hN hout (by simpa using hc) hx

theorem readChar_lt {H c : Nat} {r r' : List Bool} (h : readChar H r = (some c, r')) : c < 2 ^ 8 := by
  unfold readChar at h
  split at h
  · cases h
  · split at h
    next hc =>
    split at h <;> cases h
    exact lt_of_get_eq hc

theorem readTriple_chr_lt {w b f so L c : Nat} {r r' : List Bool} (h : readTriple w b r = (f, so, L, some c, r')) :
    c < 2 ^ 8 := by
  simp only [readTriple, Prod.mk.injEq] at h
  obtain ⟨-, -, -, hc, -⟩ := h
  exact readChar_lt (Prod.ext hc rfl)

theorem decodeTriples_ok_lt {w b cap fuel k : Nat} {r : List Bool} {out res : List Nat} (hout : ∀ c ∈ out, c < 2 ^ 8)
    (h : decodeTriples w b cap fuel k r out = .ok res) : ∀ c ∈ res, c < 2 ^ 8 := by
  induction fuel generalizing k r out with
  | zero => rwa [endOfBits_ok h]
  | succ fuel ih =>
    rw [decodeTriples] at h
    split at h
    · rwa [endOfBits_ok h]
    · split at h
      next htriple =>
      split at h
      case h_1 => cases h
      case h_2 =>
        split_ifs at h
        exact ih (lt_of_mem_replay (by decide) hout fun d hd => readTriple_chr_lt (hd ▸ htriple)) h

theorem suffix_of_expect {x : Nat} {r r' : List Nat} (h : expect x r = some r') : r' <:+ r := by
  unfold expect at h
  split at h
  · cases h
  · split_ifs at h
    cases h
    exact List.suffix_cons _ _

theorem suffix_of_parseNum {v : Nat} {r r' : List Nat} (h : parseNum r = some (v, r')) : r' <:+ r := by
  unfold parseNum at h
  split_ifs at h
  cases h
  exact List.dropWhile_suffix isDigit

/-- The tail is a character or none, and a closing parenthesis (30_encoding.md R122). -/
theorem eq_of_parseTail {c : Option Nat} {r r' : List Nat} (h : parseTail r = some (c, r')) :
    r = c.toList ++ 0x29 :: r' := by
  unfold parseTail at h
  split at h
  · cases h
  · split_ifs at h
    cases h
    simp [*]
  · split_ifs at h <;> cases h <;> simp [*]

/-- A token's character and what follows the token are symbols of the text. -/
theorem suffix_of_parseToken {o L : Nat} {c : Option Nat} {r r' : List Nat} (h : parseToken r = some (o, L, c, r')) :
    c.toList ++ 0x29 :: r' <:+ r := by
  unfold parseToken at h
  split at h
  · cases h
  next hopen =>
  split at h
  · cases h
  next hoff =>
  split at h
  · cases h
  next hcomma =>
  split at h
  · cases h
  next hlen =>
  split at h
  · cases h
  next hcomma2 =>
  split at h
  · cases h
  next htail =>
  cases h
  rw [← eq_of_parseTail htail]
  exact (suffix_of_expect hcomma2).trans <| (suffix_of_parseNum hlen).trans <| (suffix_of_expect hcomma).trans <|
    (suffix_of_parseNum hoff).trans (suffix_of_expect hopen)

theorem decodeTokens_ok_lt {N cap fuel k : Nat} {r out res : List Nat} (hN : 0 < N) (hr : ∀ c ∈ r, c < N)
    (hout : ∀ c ∈ out, c < N) (h : decodeTokens cap fuel k r out = .ok res) : ∀ c ∈ res, c < N := by
  induction fuel generalizing k r out with
  | zero => cases h
  | succ fuel ih =>
    rw [decodeTokens] at h
    split at h
    · cases h
    case h_2 o L c rest htoken =>
      have hmem := fun x hx => hr x ((suffix_of_parseToken htoken).subset hx)
      have hout' : ∀ x ∈ replay out o L c, x < N :=
        lt_of_mem_replay hN hout fun d hd => hmem d (by simp [hd])
      split_ifs at h
      split at h
      · cases h
        exact hout'
      · split_ifs at h
        exact ih (fun x hx => hmem x (by simp [hx])) hout' h

theorem lzDecompressText_ok_lt {N cap : Nat} {x out : List Nat} (hN : 0 < N) (hx : ∀ c ∈ x, c < N)
    (h : lzDecompressText cap x = .ok out) : ∀ c ∈ out, c < N := by
  unfold lzDecompressText at h
  split at h
  · cases h; simp
  · exact decodeTokens_ok_lt hN hx (by simp) h

/-! ### The results of a processing that succeeds -/

/-- The results of a decoder: a text that fits destination 1 and whose symbols fit words, with `comp` for its source. -/
def IsDecoded (o : Operands) (comp : Nat) (r : Results) : Prop :=
  ∃ out, r = textResults out comp ∧ 4 * out.length ≤ o.dstCap.toNat ∧ ∀ c ∈ out, c < 4294967296

section results

variable {o : Operands} {m : Memory} {r : Results}

theorem hufDecompressBody_ok (h : hufDecompressBody o m = .ok r) : IsDecoded o o.srcLen.toNat r := by
  unfold hufDecompressBody at h
  split at h <;> cases h
  case h_2 out hout =>
    exact ⟨out, rfl, hufDecompress_ok_length hout, fun c hc => (hufDecompress_ok_lt hout c hc).trans (by decide)⟩

theorem lzDecompressBitsBody_ok (h : lzDecompressBitsBody o m = .ok r) : IsDecoded o o.srcLen.toNat r := by
  unfold lzDecompressBitsBody at h
  split at h <;> cases h
  case h_2 out hout =>
    exact ⟨out, rfl, decodeTriples_ok_length (by simp) hout,
      fun c hc => (decodeTriples_ok_lt (by simp) hout c hc).trans (by decide)⟩

theorem lzDecompressTextBody_ok (h : lzDecompressTextBody o m = .ok r) :
    IsDecoded o (utf8size (m.readWords o.srcAddr.toNat (o.srcLen.toNat / 4))) r := by
  unfold lzDecompressTextBody at h
  split at h <;> cases h
  case h_2 out hout =>
    exact ⟨out, rfl, lzDecompressText_ok_length hout, lzDecompressText_ok_lt (by decide) (m.readWords_lt _ _) hout⟩

theorem hufCompressBody_ok (h : hufCompressBody o m = .ok r) :
    ∃ bytes, r = containerResults (m.readWords o.srcAddr.toNat (o.srcLen.toNat / 4)) bytes := by
  unfold hufCompressBody at h
  split at h <;> cases h
  case h_2 bytes _ => exact ⟨bytes, rfl⟩

theorem lzCompressBody_ok {e : Emit} (h : lzCompressBody e o m = .ok r) :
    ∃ bits tx, r = compressResults e (m.readWords o.srcAddr.toNat (o.srcLen.toNat / 4)) bits tx ∧
      nbytes bits ≤ o.dstCap.toNat ∧ 4 * tx.length ≤ o.dst2Cap.toNat ∧ ∀ d ∈ tx, d < 4294967296 := by
  unfold lzCompressBody at h
  split at h <;> cases h
  case h_2 bytes tx hlz =>
    obtain ⟨rfl, htx, hcap, hcap2⟩ := lzCompress_ok hlz
    rw [length_finish] at hcap
    refine ⟨_, tx, by simp only [compressResults, length_finish], hcap, hcap2, fun d hd => ?_⟩
    exact lt_of_mem_tokens (e := e) (m.readWords_lt _ _) (htx ▸ hd)

end results

/-! ### The statistics -/

/-- A decoder's STAT_ORIG counts the text in destination 1 (60_exceptions.md R320). -/
theorem IsDecoded.statistics {o : Operands} {comp : Nat} {r : Results} (h : IsDecoded o comp r) (s : State) :
    (completeOk r o s).statOrig.toNat =
        utf8size ((completeOk r o s).mem.readWords o.dstAddr.toNat ((completeOk r o s).dstLen.toNat / 4)) ∧
      (completeOk r o s).statComp = BitVec.ofNat 32 comp := by
  obtain ⟨out, rfl, hcap, hwords⟩ := h
  obtain ⟨hlen, htext, -, horig⟩ := completeOk_textResults comp s hcap hwords
  refine ⟨?_, rfl⟩
  rw [hlen, Nat.mul_div_cancel_left _ (by decide), htext, horig]

/-- LZ_COMPRESS's STAT_ORIG counts its source, and STAT_COMP the bitstream or else the triple text (60_exceptions.md R320). -/
theorem lzCompressBody_statistics {e : Emit} {o : Operands} {r : Results} {s : State}
    (h : lzCompressBody e o s.mem = .ok r) :
    (completeOk r o s).statOrig.toNat = utf8size (s.mem.readWords o.srcAddr.toNat (o.srcLen.toNat / 4)) ∧
      (e.bits = true → (completeOk r o s).statComp = (completeOk r o s).dstLen) ∧
      (e.bits = false → (completeOk r o s).statComp.toNat =
        utf8size ((completeOk r o s).mem.readWords o.dst2Addr.toNat ((completeOk r o s).dst2Len.toNat / 4))) := by
  obtain ⟨bits, tx, rfl, hcap, hcap2, hwords⟩ := lzCompressBody_ok h
  obtain ⟨hlen, hlen2, horig, hcomp⟩ := completeOk_compressResults e s hcap hcap2
    (t := s.mem.readWords o.srcAddr.toNat (o.srcLen.toNat / 4)) (by rw [Memory.length_readWords]; omega)
  refine ⟨horig, fun he => BitVec.eq_of_toNat_eq ?_, fun he => ?_⟩
  · rw [hcomp, hlen, if_pos he]
  · rw [hcomp, hlen2, Nat.mul_div_cancel_left _ (by decide), if_neg (by simp [he])]
    exact congrArg utf8size (Memory.readWords_writeBytes_wordsBytes tx _ _ hwords).symm

end Sys2Proof.Machine

namespace Sys2Proof
open Machine

/-- Settles O15: the results are 0 after an error, and what the end of a command writes is in its used destinations, or in the
bytes of its results. -/
theorem stateAfterACommand : Obligations.StateAfterACommand := by
  intro i s t l hl h
  refine ⟨⟨s.draws, exec_next_statCycles hl h⟩, fun ht => ?_, fun hc => ?_, fun ht a ha ha2 => ?_⟩
  · refine ⟨?_, ?_, ?_, ?_, fun a => exec_next_read_outside hl h⟩
    all_goals
      obtain ⟨e, m, rfl⟩ := exec_next_of_failure hl h ht
      rfl
  · obtain ⟨e, hc⟩ := Option.ne_none_iff_exists'.1 hc
    rw [exec_eq_runCommand, runCommand_of_check hl hc] at h
    cases h
    exact ⟨errCodeOf_ne_zero e, rfl⟩
  · obtain ⟨r, hbody, rfl⟩ := exec_next_of_success hl h ht
    obtain ⟨hlen, hlen2⟩ := (bodyOf_fits hbody).lengths s
    rw [hlen] at ha
    rw [hlen2] at ha2
    exact read_completeOk_outside r l.operands s ha ha2

/-- Settles O19: each processing's statistics count its source text, its bytes, or the text that its destination then holds. -/
theorem statisticsOfEveryCommand : Obligations.StatisticsOfEveryCommand := by
  intro i s t l hl h
  refine ⟨fun ht => ?_, fun ht => ?_⟩
  · obtain ⟨e, m, rfl⟩ := exec_next_of_failure hl h ht
    exact ⟨rfl, rfl⟩
  obtain ⟨r, hbody, rfl⟩ := exec_next_of_success hl h ht
  cases i with
  | hufCompress =>
    obtain ⟨bytes, rfl⟩ := hufCompressBody_ok hbody
    exact ⟨toNat_utf8size_readWords _ _ _, rfl⟩
  | hufDecompress =>
    obtain ⟨horig, hcomp⟩ := (hufDecompressBody_ok hbody).statistics s
    exact ⟨horig, hcomp.trans (BitVec.ofNat_toNat ..)⟩
  | lzCompressBits =>
    obtain ⟨horig, hcomp, -⟩ := lzCompressBody_statistics hbody
    exact ⟨horig, hcomp rfl⟩
  | lzCompressText =>
    obtain ⟨horig, -, hcomp⟩ := lzCompressBody_statistics hbody
    exact ⟨horig, hcomp rfl⟩
  | lzCompressBitsText =>
    obtain ⟨horig, hcomp, -⟩ := lzCompressBody_statistics hbody
    exact ⟨horig, hcomp rfl⟩
  | lzDecompressBits =>
    obtain ⟨horig, hcomp⟩ := (lzDecompressBitsBody_ok hbody).statistics s
    exact ⟨horig, hcomp.trans (BitVec.ofNat_toNat ..)⟩
  | lzDecompressText =>
    obtain ⟨horig, hcomp⟩ := (lzDecompressTextBody_ok hbody).statistics s
    exact ⟨horig, hcomp ▸ toNat_utf8size_readWords _ _ _⟩
  | hufLengths =>
    simp only [bodyOf, hufLengthsBody] at hbody
    split at hbody <;> cases hbody
    exact ⟨rfl, rfl⟩
  | hufCanon =>
    simp only [bodyOf, hufCanonBody] at hbody
    split at hbody <;> cases hbody
    exact ⟨rfl, rfl⟩

end Sys2Proof
end

section
/-! PROOFS. What a soft reset leaves in memory (70_reset_and_hazards.md R341), and the runs that complete a command (R361, 10_state.md
R35). -/

namespace Sys2Proof.Machine

/-! ### The memory of an abandoned command -/

/-- The ranges of an abandoned command are the used destinations of a legal word whose checks passed. -/
theorem inRanges_abandonedRanges {c : Config} {l : Latched} {a : Nat} (h : inRanges (abandonedRanges c l) a = true) :
    ∃ i, decodeCommand l.cmd = .ok i ∧ commonChecks (useOf i) c l.operands = none ∧
      inRanges (dstRanges (useOf i) l.operands) a = true := by
  unfold abandonedRanges at h
  cases hd : decodeCommand l.cmd with
  | error e => simp [hd, inRanges] at h
  | ok i =>
    cases hc : commonChecks (useOf i) c l.operands with
    | some e => simp [hd, hc, inRanges] at h
    | none => exact ⟨i, rfl, hc, by simpa [hd, hc] using h⟩

theorem softReset_mem_of_running {s : State} {l : Latched} (h : s.running = some l) :
    (softReset s).mem = spoilRanges s.draws s.mem (abandonedRanges s.config l) := by
  simp [softReset, h]

/-- A byte that a soft reset changes is in a used destination of a running command that passed its checks. -/
theorem softReset_read (s : State) (a : Nat) :
    (softReset s).mem.read a = s.mem.read a ∨
      ∃ l i, decodeCommand l.cmd = .ok i ∧ Ready i s l ∧ inRanges (dstRanges (useOf i) l.operands) a = true := by
  cases hl : s.running with
  | none => exact .inl (by rw [softReset_of_idle hl, resetRegisters_mem])
  | some l =>
    cases ha : inRanges (abandonedRanges s.config l) a with
    | false => exact .inl (by rw [softReset_mem_of_running hl, read_spoilRanges _ _ _ _ ha])
    | true =>
      obtain ⟨i, hd, hc, hin⟩ := inRanges_abandonedRanges ha
      exact .inr ⟨l, i, hd, ⟨hl, hc⟩, hin⟩

/-! ### Runs without the host -/

theorem runSteps_succ_of_next {s t : State} (h : step s = .next t) (k : Nat) : runSteps (k + 1) s = runSteps k t := by
  simp [runSteps, h, nextOf]

/-- The engine's turn always completes a running command. -/
theorem engineStep_completes {s : State} (h : s.running ≠ none) :
    ∃ t, engineStep s = .next t ∧ t.running = none ∧ t.done = true := by
  rcases engineStep_cases s with ⟨hn, -⟩ | ⟨l, e, -, -, he⟩ | ⟨l, i, hl, -, he⟩
  · exact absurd hn h
  · exact ⟨_, he, rfl, rfl⟩
  · rw [he]
    rcases exec_completes i hl with ⟨e, m, -, hx⟩ | ⟨r, -, hx⟩
    · exact ⟨_, hx, rfl, rfl⟩
    · exact ⟨_, hx, rfl, rfl⟩

/-- With no host operation pending, each of the host's turns on the schedule is spent in vain, and the engine's turn, on the
schedule or after it, completes the command. -/
theorem runSteps_completes (sch : List Agent) {s : State} (hsch : s.schedule = sch) (hrun : s.running ≠ none)
    (hhost : s.host = []) :
    ∃ k t, 1 ≤ k ∧ k ≤ sch.length + 1 ∧ runSteps k s = some t ∧ t.running = none ∧ t.done = true := by
  induction sch generalizing s with
  | nil =>
    obtain ⟨t, he, ht⟩ := engineStep_completes hrun
    exact ⟨1, t, le_rfl, le_rfl, runSteps_succ_of_next ((step_of_busy hsch hrun).trans he) 0, ht⟩
  | cons a rest ih =>
    cases a with
    | engine =>
      obtain ⟨t, he, ht⟩ := engineStep_completes (s := { s with schedule := rest }) hrun
      exact ⟨1, t, le_rfl, by simp, runSteps_succ_of_next ((step_of_engine_turn hsch).trans he) 0, ht⟩
    | host =>
      have hstep : step s = .next { s with schedule := rest } := (step_of_host_turn hsch).trans (hostStep_of_nil hhost)
      obtain ⟨k, t, -, hk, hr, ht⟩ := ih (s := { s with schedule := rest }) rfl hrun hhost
      exact ⟨k + 1, t, by omega, by simpa using hk, (runSteps_succ_of_next hstep k).trans hr, ht⟩

end Sys2Proof.Machine

namespace Sys2Proof
open Machine

/-- Settles O5: the CTRL write is the soft reset, which resets every register and spoils only an abandoned command's ranges. -/
theorem softResetAbandonsTheCommand : Obligations.SoftResetAbandonsTheCommand := by
  intro s v hv
  rw [writeReg_ctrl_reset s hv]
  exact ⟨softReset_running s, readReg_softReset s, irq_of_done_eq_false (softReset_done s), softReset_read s⟩

/-- Settles O60: by induction on the schedule, whose host turns do nothing and whose first engine turn completes the command. -/
theorem commandCompletesEventually : Obligations.CommandCompletesEventually := by
  intro s hb hhost
  obtain ⟨k, t, hk, hle, hrun, hidle, hdone⟩ := runSteps_completes s.schedule rfl (State.busy_eq_true_iff.1 hb) hhost
  exact ⟨k, t, hk, hle, hrun, State.busy_eq_false_iff.2 hidle, hdone⟩

end Sys2Proof
end
